-- ==== Sys2Proof/Word.lean ====
section
/-! DEFINITION. The word types of the AEC: 32-bit registers and command words (00_scope.md R8, W_REG),
bytes of the bit-stream memory (20_memory.md R61). -/

namespace Sys2Proof

/-- A register, a table entry or a command word: 32 bits (00_scope.md R8 `W_REG`, 30_encoding.md R80). -/
abbrev Word := BitVec 32

/-- A byte of BS, a symbol or the operand byte `imm8` (00_scope.md R5, R13; 30_encoding.md R81). -/
abbrev Byte := BitVec 8

end Sys2Proof
end

