-- ==== Sys2Proof/Syntax.lean ====
section
/-! DEFINITION. The 13 commands of 30_encoding.md R84, one constructor per row of the opcode map.
The operand types hold exactly what the format of the row encodes (R81, R82). -/

namespace Sys2Proof

/-- The commands of the AEC (R84). -/
inductive Instr where
  /-- `CONSTRUCT q` (R100): `q` is the requested precision, any byte is a legal encoding. -/
  | construct (q : Byte)
  /-- `MRESET` (R110). -/
  | mreset
  /-- `MADD s` (R111): `s` is a symbol. -/
  | madd (s : Byte)
  /-- `RESCALE` (R113). -/
  | rescale
  /-- `RUNIFORM` (R114). -/
  | runiform
  /-- `GETBIT` (R127): the index is the register `arg`. -/
  | getbit
  /-- `SETBIT v` (R128): `v` is the bit to write, the index is the register `arg`. -/
  | setbit (v : Bool)
  /-- `ENC_INIT` (R150). -/
  | encInit
  /-- `ENCODE s` (R151): `s` is a symbol. -/
  | encode (s : Byte)
  /-- `FLUSH` (R152). -/
  | flush
  /-- `DEC_INIT` (R165). -/
  | decInit
  /-- `DECODE` (R167). -/
  | decode
  /-- `END` (R101). -/
  | endSession
deriving DecidableEq, Repr

/-- The three formats of a command word (R81). -/
inductive Format where
  /-- no operand: `imm8` must be zero -/
  | n
  /-- byte operand: `imm8` is any byte -/
  | b
  /-- bit operand: bits 7:1 must be zero, bit 0 is the operand -/
  | v
deriving DecidableEq, Repr

/-- The format of each command (R81, R84). -/
def Instr.format : Instr → Format
  | .construct _ => .b
  | .mreset => .n
  | .madd _ => .b
  | .rescale => .n
  | .runiform => .n
  | .getbit => .n
  | .setbit _ => .v
  | .encInit => .n
  | .encode _ => .b
  | .flush => .n
  | .decInit => .n
  | .decode => .n
  | .endSession => .n

/-- The value of the field `imm8` that spells the command's operand (R81, R82). -/
def Instr.operand : Instr → Byte
  | .construct q => q
  | .mreset => 0
  | .madd s => s
  | .rescale => 0
  | .runiform => 0
  | .getbit => 0
  | .setbit v => if v then 1 else 0
  | .encInit => 0
  | .encode s => s
  | .flush => 0
  | .decInit => 0
  | .decode => 0
  | .endSession => 0

end Sys2Proof
end

