-- ==== Sys2Proof/WellFormed.lean ====
section
/-! DEFINITION. Which fields spell a command (30_encoding.md R81, R86): the opcode is one of the 13, the
reserved field is zero, and `imm8` fits the format. -/

namespace Sys2Proof

/-- Check of `imm8` against a format (R81): N needs 0, B takes any byte, V needs bits 7:1 zero. -/
def Format.operandOk : Format → Byte → Bool
  | .n, imm8 => imm8 == 0
  | .b, _ => true
  | .v, imm8 => imm8 == 0 || imm8 == 1

/-- The format that an opcode has in the opcode map (R84); `none` for an undefined opcode, that is 0x00
and every value from 0x0E up (R86). -/
def formatOfOpcode (op : Byte) : Option Format :=
  if op == 0x01 || op == 0x03 || op == 0x09 then some .b
  else if op == 0x07 then some .v
  else if op == 0x00 || decide (0x0E ≤ op.toNat) then none
  else some .n

/-- The fields of a legal command word (R81, R86): a defined opcode, `rsv = 0`, `imm8` as the format
asks. -/
def wellFormedFields (op : Byte) (rsv : BitVec 16) (imm8 : Byte) : Bool :=
  match formatOfOpcode op with
  | none => false
  | some f => rsv == 0 && f.operandOk imm8

/-- Check of a command as a term: its operand byte fits its format. The operand types admit no other
value (R82: "every value is a legal symbol"), so the check holds of every term
(`Instr.wf_all`); the ill-formed things of this hardware are field values, refused by
`wellFormedFields`. -/
def Instr.wf (i : Instr) : Bool := i.format.operandOk i.operand

end Sys2Proof
end

