-- ==== Sys2Proof/Decode.lean ====
section
/-! DEFINITION. The decoder of command words (30_encoding.md R80 to R87), total on the 2^32 words,
rejecting by name, and the encoder, from the same opcode map. -/

namespace Sys2Proof

/-- Field `op`, bits 31:24 (R81). -/
def opField (w : Word) : Byte := w.extractLsb' 24 8

/-- Field `rsv`, bits 23:8 (R81). -/
def rsvField (w : Word) : BitVec 16 := w.extractLsb' 8 16

/-- Field `imm8`, bits 7:0 (R81, R82: unsigned, no extension, scaling or shift). -/
def imm8Field (w : Word) : Byte := w.extractLsb' 0 8

/-- Why a word spells no command (R86). -/
inductive IllegalWord where
  /-- `op = 0x00` or `op >= 0x0E` -/
  | undefinedOpcode
  /-- a bit of `rsv` is set under a defined `op` -/
  | reservedBits
  /-- format N with `imm8 != 0`, or `SETBIT` with a bit of 7:1 set -/
  | operandBits
deriving DecidableEq, Repr

/-- One row of the opcode map (R84): `match`, `mask`, and the command that a spelling word gives. -/
structure OpcodeRow where
  word : Word
  mask : Word
  build : Byte → Instr

/-- The complete opcode map (R84), one row per command. -/
def opcodeMap : List OpcodeRow :=
  [ ⟨0x01000000, 0xFFFFFF00, fun q => .construct q⟩,
    ⟨0x02000000, 0xFFFFFFFF, fun _ => .mreset⟩,
    ⟨0x03000000, 0xFFFFFF00, fun s => .madd s⟩,
    ⟨0x04000000, 0xFFFFFFFF, fun _ => .rescale⟩,
    ⟨0x05000000, 0xFFFFFFFF, fun _ => .runiform⟩,
    ⟨0x06000000, 0xFFFFFFFF, fun _ => .getbit⟩,
    ⟨0x07000000, 0xFFFFFFFE, fun v => .setbit (v.getLsbD 0)⟩,
    ⟨0x08000000, 0xFFFFFFFF, fun _ => .encInit⟩,
    ⟨0x09000000, 0xFFFFFF00, fun s => .encode s⟩,
    ⟨0x0A000000, 0xFFFFFFFF, fun _ => .flush⟩,
    ⟨0x0B000000, 0xFFFFFFFF, fun _ => .decInit⟩,
    ⟨0x0C000000, 0xFFFFFFFF, fun _ => .decode⟩,
    ⟨0x0D000000, 0xFFFFFFFF, fun _ => .endSession⟩ ]

/-- A word spells the command of a row iff it equals `match` under `mask` (R83). -/
def OpcodeRow.spells (r : OpcodeRow) (w : Word) : Bool := (w &&& r.mask) == r.word

/-- The name of the rejection of a word that spells no command (R86). -/
def whyIllegal (w : Word) : IllegalWord :=
  if (formatOfOpcode (opField w)).isNone then .undefinedOpcode
  else if rsvField w != 0 then .reservedBits
  else .operandBits

/-- The decoder (R83, R85 step 1): the command that `w` spells, or ILLEGAL with its reason. -/
def decode (w : Word) : Except IllegalWord Instr :=
  match opcodeMap.find? (fun r => r.spells w) with
  | some r => .ok (r.build (imm8Field w))
  | none => .error (whyIllegal w)

/-- The word of a command: `match | operand` (R84, R90). -/
def encode (i : Instr) : Word :=
  match i with
  | .construct q => 0x01000000 ||| q.setWidth 32
  | .mreset => 0x02000000
  | .madd s => 0x03000000 ||| s.setWidth 32
  | .rescale => 0x04000000
  | .runiform => 0x05000000
  | .getbit => 0x06000000
  | .setbit v => 0x07000000 ||| (if v then 1 else 0)
  | .encInit => 0x08000000
  | .encode s => 0x09000000 ||| s.setWidth 32
  | .flush => 0x0A000000
  | .decInit => 0x0B000000
  | .decode => 0x0C000000
  | .endSession => 0x0D000000

/-- The command word that the low `nbits` bits of `w` stand for: register-port data are 32-bit numbers
with no byte order (20_memory.md R64), and the bits above `nbits` are zero. Log 11. -/
def tableWord (nbits w : Nat) : Word := BitVec.ofNat 32 (w % 2 ^ nbits)

/-- The host's view of the decoder: a row's word, by number. -/
def decodeTableWord (nbits w : Nat) : Option Instr := (decode (tableWord nbits w)).toOption

end Sys2Proof
end

