-- ==== Sys2Proof/Config.lean ====
section
/-! DEFINITION. The implementation parameters of 00_scope.md R8 and the model's free values. -/

namespace Sys2Proof.Config

/-- `ALPHABET` (R8): number of symbols. -/
abbrev alphabet : Nat := 256

/-- `NCUM` (R8): entries of `cumulative`. -/
abbrev ncum : Nat := 257

/-- `PREC_DEFAULT` (R8): reset value of `precision`. -/
def precDefault : BitVec 5 := 16

/-- `PREC_MIN` (R8): smallest legal `precision`. -/
def precMin : Nat := 3

/-- `PREC_MAX` (R8): largest legal `precision`. -/
def precMax : Nat := 31

/-- `WEIGHT_DEFAULT` (R8): reset value of `weight`. -/
def weightDefault : Word := 16

/-- `BS_AW` (R8): width of a BS byte address. -/
abbrev bsAw : Nat := 29

/-- `REG_AW` (R8): width of a register-port word address. -/
abbrev regAw : Nat := 10

/-- The largest value of a 32-bit register: `2^32 - 1`, the bound of `COUNT_OVERFLOW` (R111, R181)
and the saturation of the `MODEL_SUM` info word (R112). -/
def wordMax : Nat := 2 ^ 32 - 1

/-- FREE VALUE: the content of BS byte `a` before anybody has written it, "any value" (U10; R39, R61; drawn
once: R247). Log 4. -/
opaque initialByte : Nat → Byte

/-- FREE VALUE: `counts[i]` after the `d`-th reset, "a draw fixed at reset" (R42, R47, U9). Log 3. -/
opaque resetCounts : Nat → Nat → Word

/-- FREE VALUE: `cumulative[i]` after the `d`-th reset, "a draw fixed at reset" (R42, R47, U9). Log 3. -/
opaque resetCumulative : Nat → Nat → Word

end Sys2Proof.Config
end

