-- ==== Sys2Proof/Machine/Memory.lean ====
section
/-! DEFINITION. The bit-stream memory BS (20_memory.md R60, R61, R67): a plain byte memory, held as the list
of the bytes that have been written, addresses strictly rising; a byte that is not listed has the memory's
initial content, which is a free value (log 4). -/

namespace Sys2Proof.Machine

/-- The bytes of BS that have been written (10_state.md R39). -/
abbrev Memory := List Host.Cell

/-- The byte written at `a`; an unlisted address holds no written byte. -/
def Memory.lookup : Memory → Nat → Option Byte
  | [], _ => none
  | (b, v) :: m, a => if a = b then some v else Memory.lookup m a

/-- `MemRead(a, 1)` (R61): "the value of the latest write to that address, or the memory's initial content
if there was none". -/
def Memory.read (m : Memory) (a : Nat) : Byte := (m.lookup a).getD (Config.initialByte a)

/-- `MemWrite(a, 1, v)` (R61), keeping the canonical form. -/
def Memory.write : Memory → Nat → Byte → Memory
  | [], a, v => [(a, v)]
  | (b, w) :: m, a, v =>
    if a < b then (a, v) :: (b, w) :: m
    else if a = b then (a, v) :: m
    else (b, w) :: Memory.write m a v

/-- The canonical form from address `lo` up: addresses strictly rising, each a 29-bit address. An unlisted
address looks up as `none`, which no entry equals. -/
def Memory.wfFrom : Nat → Memory → Bool
  | _, [] => true
  | lo, (a, _) :: m => decide (lo ≤ a) && decide (a < 2 ^ Config.bsAw) && Memory.wfFrom (a + 1) m

/-- The canonical form of a memory. -/
def Memory.wf (m : Memory) : Bool := Memory.wfFrom 0 m

end Sys2Proof.Machine
end

