-- ==== Sys2Proof/Machine/Table.lean ====
section
/-! DEFINITION. Tables of a fixed number of 32-bit entries: `counts[0..255]` and `cumulative[0..256]`
(10_state.md R27, R28). -/

namespace Sys2Proof.Machine

/-- A table of exactly `n` 32-bit entries. -/
structure Table (n : Nat) where
  cells : List Word
  size_eq : cells.length = n
deriving DecidableEq, Repr

/-- Read of entry `i` (00_scope.md R13 `counts[i]`, `cumulative[i]`). Every rule reads inside the table;
outside it the answer is 0 and nothing uses it. -/
def Table.get {n : Nat} (t : Table n) (i : Nat) : Word := t.cells.getD i 0

/-- Write of entry `i` (R13 `counts[i] <- v`). -/
def Table.set {n : Nat} (t : Table n) (i : Nat) (v : Word) : Table n :=
  ⟨t.cells.set i v, by rw [List.length_set, t.size_eq]⟩

/-- The table whose entries are all `v`. -/
def Table.fill (n : Nat) (v : Word) : Table n := ⟨List.replicate n v, List.length_replicate⟩

/-- The table whose entry `i` is `f i`. -/
def Table.tabulate (n : Nat) (f : Nat → Word) : Table n :=
  ⟨(List.range n).map f, by rw [List.length_map, List.length_range]⟩

/-- The sum of all entries as a natural number (10_state.md R29, R50 V9). -/
def Table.sum {n : Nat} (t : Table n) : Nat := (t.cells.map BitVec.toNat).sum

end Sys2Proof.Machine
end

