-- ==== Sys2Proof/Machine/State.lean ====
section
/-! DEFINITION. The state of one AEC (10_state.md R20), the host transactions, the causes of the spec's
faults (60_exceptions.md R190), the reasons for which the MODEL stops, and the state after reset. -/

namespace Sys2Proof.Machine

/-- The register `phase` (10_state.md R35). -/
inductive Phase where
  /-- 0: no Coder State has been constructed -/
  | reset
  /-- 1: constructed, no session -/
  | idle
  /-- 2: encode session -/
  | enc
  /-- 3: decode session -/
  | dec
deriving DecidableEq, Repr

/-- The eleven causes of 60_exceptions.md R190. A spec fault is an ordinary NEXT state with the fault
record written; it never stops the model. -/
inductive Cause where
  | illegalCmd
  | sequence
  | precision
  | config
  | modelDegenerate
  | modelSum
  | countOverflow
  | bsBounds
  | carryUnderrun
  | codeRange
  | access
deriving DecidableEq, Repr

/-- The operand of `raise F(info)` (60_exceptions.md R191). -/
structure Raise where
  cause : Cause
  info : Nat
deriving DecidableEq, Repr

/-- One transaction of the agents outside the AEC (00_scope.md R6, 10_state.md R48). -/
inductive Transaction where
  /-- a register write of `v` at word address `a`, byte offset `4*a` (10_state.md R41);
  `a = 0` is a write to `CMD` -/
  | write (a : BitVec 10) (v : Word)
  /-- a register read at word address `a` (10_state.md R42) -/
  | read (a : BitVec 10)
  /-- the host writes a byte of BS itself (20_memory.md R60, R70) -/
  | bsWrite (a : BitVec 29) (v : Byte)
  /-- the host reads a byte of BS itself (20_memory.md R60, R70) -/
  | bsRead (a : BitVec 29)
  /-- the input `rst`, between two host transactions (70_reset_and_hazards.md R230) -/
  | rst
deriving DecidableEq, Repr

/-- The machine stops. The AEC has no such behaviour: every command is a total function of the state, BS
and the word (70_reset_and_hazards.md R245), so there is no constructor and nobody raises one (safe:
nothing is cut short). Log 12. -/
inductive Fault where
deriving DecidableEq, Repr

/-- The model has no meaning for what it is asked. -/
inductive Refusal where
  /-- Raised by `exec` alone, for an instruction that has no meaning yet; none is left. Safe. -/
  | notModelled (mnemonic : String)
  /-- Raised by a direct host access to a byte of BS during an active session: "the model has no move for
  it" (20_memory.md R70; 93_implementation_defined.md U11, `refuse`). Safe. Log 6. -/
  | bsOwnedBySession
deriving DecidableEq, Repr

/-- The state of one AEC, its BS, and the model's own three fields. -/
structure State where
  /-- R21, 5 bits -/
  precision : BitVec 5
  /-- R22 -/
  base : Word
  /-- R23 -/
  length : Word
  /-- R24, the document's `V` -/
  value : Word
  /-- R25, a bit-stream index -/
  bitCursor : Word
  /-- R27 -/
  counts : Table 256
  /-- R28 -/
  cumulative : Table 257
  /-- R29 -/
  total : Word
  /-- R30 -/
  weight : Word
  /-- R31 -/
  updateRange : Word
  /-- R32 -/
  adaptive : Bool
  /-- R32 -/
  rangeClear : Bool
  /-- R33 -/
  runCount : Word
  /-- R34, bytes -/
  bsSize : BitVec 29
  /-- R35 -/
  phase : Phase
  /-- R36 -/
  modelValid : Bool
  /-- R37, sticky -/
  fault : Bool
  /-- R37 -/
  faultCause : BitVec 4
  /-- R37 -/
  faultInfo : Word
  /-- R38 -/
  arg : Word
  /-- R38 -/
  result : Word
  /-- R39, the bit-stream memory -/
  bs : Memory
  /-- MODEL: the transactions not yet performed, the next one first (R48). Log 1. -/
  host : List Transaction
  /-- MODEL: what the latest host read was answered (R42). Log 2. -/
  hostData : Word
  /-- MODEL: how many draws of table contents have been made before this reset (R42, U9). Log 3. -/
  draws : Nat
deriving DecidableEq, Repr

/-- The register values after a reset (10_state.md R47), the tables being the `d`-th draw, around a BS, a
list of pending transactions and a read datum that a reset does not touch (R230). -/
def State.afterReset (d : Nat) (bs : Memory) (host : List Transaction) (hostData : Word) : State where
  precision := Config.precDefault
  base := 0
  length := 0
  value := 0
  bitCursor := 0
  counts := Table.tabulate 256 (Config.resetCounts d)
  cumulative := Table.tabulate 257 (Config.resetCumulative d)
  total := 0
  weight := Config.weightDefault
  updateRange := 0
  adaptive := false
  rangeClear := false
  runCount := 0
  bsSize := 0
  phase := .reset
  modelValid := false
  fault := false
  faultCause := 0
  faultInfo := 0
  arg := 0
  result := 0
  bs := bs
  host := host
  hostData := hostData
  draws := d

/-- The machine right after its first reset (R47): no byte of BS listed, no transaction pending. -/
def State.reset : State := State.afterReset 0 [] [] 0

end Sys2Proof.Machine
end

