-- ==== Sys2Proof/Machine/Flags.lean ====
section
/-! DEFINITION. Status and mode bits: the codes of `phase` and of the fault causes, the words that
`STATUS` and `MODE` read as, and the output `fault_o` (10_state.md R35, R44, R45; 60_exceptions.md R190,
R205). The AEC has no arithmetic condition codes. -/

namespace Sys2Proof.Machine

/-- The 2-bit code of a phase (10_state.md R35). -/
def Phase.code : Phase → BitVec 2
  | .reset => 0
  | .idle => 1
  | .enc => 2
  | .dec => 3

/-- The 4-bit code of a cause (60_exceptions.md R190). -/
def Cause.code : Cause → BitVec 4
  | .illegalCmd => 1
  | .sequence => 2
  | .precision => 3
  | .config => 4
  | .modelDegenerate => 5
  | .modelSum => 6
  | .countOverflow => 7
  | .bsBounds => 8
  | .carryUnderrun => 9
  | .codeRange => 10
  | .access => 11

/-- A flag as a number. -/
def flagBit (b : Bool) : Nat := if b then 1 else 0

/-- `STATUS` (10_state.md R44): `PHASE` in bits 1:0, `FAULT` bit 2, `MODEL_VALID` bit 3, zeros above. -/
def State.statusWord (s : State) : Word :=
  BitVec.ofNat 32 (s.phase.code.toNat + 4 * flagBit s.fault + 8 * flagBit s.modelValid)

/-- `MODE` (10_state.md R45): `ADAPTIVE` bit 0, `RANGE_CLEAR` bit 1, zeros above. -/
def State.modeWord (s : State) : Word :=
  BitVec.ofNat 32 (flagBit s.adaptive + 2 * flagBit s.rangeClear)

/-- The output `fault_o`, "equal to the `fault` register at all times" (60_exceptions.md R205). -/
def State.faultO (s : State) : Bool := s.fault

/-- An active session: phase ENC or DEC and no fault (00_scope.md glossary, 10_state.md R41). -/
def State.activeSession (s : State) : Bool := (s.phase == .enc || s.phase == .dec) && !s.fault

end Sys2Proof.Machine
end

