-- ==== Sys2Proof/Machine/Operands.lean ====
section
/-! DEFINITION. Operand assembly (30_encoding.md R82) and the quantities every rule derives from the
registers (00_scope.md R10, 20_memory.md R69). All values are unsigned naturals (R12). -/

namespace Sys2Proof.Machine

/-- `p`, the current precision (00_scope.md R10). -/
def State.p (s : State) : Nat := s.precision.toNat

/-- `ONE = 2^p` (R10). -/
def one (p : Nat) : Nat := 2 ^ p

/-- `HALF = 2^(p-1)` (R10). -/
def half (p : Nat) : Nat := 2 ^ (p - 1)

/-- `QUARTER = 2^(p-2)` (R10). -/
def quarter (p : Nat) : Nat := 2 ^ (p - 2)

/-- The number of bits in bounds, `8 * bs_size` (20_memory.md R69). -/
def State.capacity (s : State) : Nat := 8 * s.bsSize.toNat

/-- The operand byte of `CONSTRUCT`, `MADD` and `ENCODE` as an unsigned number 0..255 (R82). -/
def byteOperand (imm8 : Byte) : Nat := imm8.toNat

/-- The operand bit of `SETBIT` as 0 or 1 (R82: `v = w[0]`). -/
def bitOperand (v : Bool) : Nat := if v then 1 else 0

/-- The bit-stream index of `GETBIT` and `SETBIT`: the whole register `arg` at the time the command
executes (R82). -/
def State.indexOperand (s : State) : Nat := s.arg.toNat

/-- The total weighted count of `RESCALE`: the register `total` (R82). -/
def State.totalOperand (s : State) : Nat := s.total.toNat

end Sys2Proof.Machine
end

