-- ==== Sys2Proof/Machine/Ops.lean ====
section
/-! DEFINITION. The shared operations: taking a fault (60_exceptions.md R191) and leaving the faulted
condition (R207), the run of a command's accesses to BS with its commit (00_scope.md R14), the legal
phases (30_encoding.md R88) and the order of the checks of a command (R85). -/

namespace Sys2Proof.Machine

/-- What a command or a step answers. -/
abbrev Outcome := Host.Outcome State Fault Refusal

/-- TAKING A FAULT, `raise F(info)` (60_exceptions.md R191): the first fault writes the record; if a fault
is recorded already nothing is written. No register write of the abandoned command is performed: `s` is
the state from before the command, with the BS bytes it has written. -/
def State.raise (s : State) (r : Raise) : State :=
  if s.fault then s
  else { s with fault := true, faultCause := r.cause.code, faultInfo := BitVec.ofNat 32 r.info }

/-- LEAVING THE FAULTED CONDITION: the fault record is cleared (60_exceptions.md R207; part of the commit of
`CONSTRUCT`, 40_session.md R100). -/
def State.clearFault (s : State) : State := { s with fault := false, faultCause := 0, faultInfo := 0 }

/-- The course of a command or micro-operation that may access BS: it ends with a value, or at a `raise`,
in both cases with the bytes of BS as they are then (00_scope.md R14: a byte written before a `raise` stays
written). -/
inductive Run (α : Type) where
  | done (x : α) (bs : Memory)
  | raised (r : Raise) (bs : Memory)
deriving DecidableEq, Repr

/-- One course after another: a `raise` abandons what follows. -/
def Run.bind {α β : Type} (m : Run α) (f : α → Memory → Run β) : Run β :=
  match m with
  | .done x bs => f x bs
  | .raised r bs => .raised r bs

/-- A check or staged register write that does not access BS, as a course. -/
def Run.lift {α : Type} (e : Except Raise α) (bs : Memory) : Run α :=
  match e with
  | .ok x => .done x bs
  | .error r => .raised r bs

/-- COMMIT (00_scope.md R13, R14): the staged register writes all together after the last `raise` point,
or none of them. `s` is the state before the command. -/
def conclude (s : State) (m : Run State) : Outcome :=
  match m with
  | .done t bs => .next { t with bs := bs }
  | .raised r bs => .next (State.raise { s with bs := bs } r)

/-- COMMIT of a command that makes no access to BS. -/
def concludePure (s : State) (e : Except Raise State) : Outcome :=
  match e with
  | .ok t => .next t
  | .error r => .next (s.raise r)

/-- The legal phases of each command (30_encoding.md R88). -/
def legalPhase : Instr → Phase → Bool
  | .construct _, _ => true
  | .mreset, ph => ph == .idle
  | .madd _, ph => ph == .idle
  | .rescale, ph => ph == .idle
  | .runiform, ph => ph == .idle
  | .getbit, ph => ph == .idle
  | .setbit _, ph => ph == .idle
  | .encInit, ph => ph == .idle
  | .encode _, ph => ph == .enc
  | .flush, ph => ph == .enc
  | .decInit, ph => ph == .idle
  | .decode, ph => ph == .dec
  | .endSession, ph => ph == .idle || ph == .enc || ph == .dec

/-- Whether a command executes while a fault is recorded: `CONSTRUCT` alone (R85 step 2). -/
def runsUnderFault : Instr → Bool
  | .construct _ => true
  | .mreset => false
  | .madd _ => false
  | .rescale => false
  | .runiform => false
  | .getbit => false
  | .setbit _ => false
  | .encInit => false
  | .encode _ => false
  | .flush => false
  | .decInit => false
  | .decode => false
  | .endSession => false

/-- Steps 2, 4 and 5 of 30_encoding.md R85 for a legal command `i`: under a fault everything but
`CONSTRUCT` is ignored; in an illegal phase `SEQUENCE(w)` is raised, `w` being the command word; else the
rule of the command is performed. Log 8. -/
def issue (i : Instr) (s : State) (body : State → Outcome) : Outcome :=
  if s.fault && !runsUnderFault i then .next s
  else if legalPhase i s.phase then body s
  else .next (s.raise ⟨.sequence, (encode i).toNat⟩)

end Sys2Proof.Machine
end

