-- ==== Sys2Proof/Machine/Model.lean ====
section
/-! DEFINITION. probability_model_cdf (41_model.md): the micro-operation `Rescale` and the commands `MRESET`,
`MADD`, `RESCALE`, `RUNIFORM`. -/

namespace Sys2Proof.Machine

/-- The running sums of a list from `acc` on: `c[0] = acc`, `c[i+1] = c[i] + scaled_i` (R112). -/
def runningSums (acc : Nat) : List Nat → List Nat
  | [] => [acc]
  | x :: xs => acc :: runningSums (acc + x) xs

theorem runningSums_length (acc : Nat) (xs : List Nat) : (runningSums acc xs).length = xs.length + 1 := by
  induction xs generalizing acc with
  | nil => rfl
  | cons x xs ih => simp [runningSums, ih]

/-- `scaled_i = (counts[i] * ONE) / den` with `den = T + 256`: product first, then floor division (R112). -/
def scaledWidth (p total count : Nat) : Nat := count * one p / (total + 256)

/-- The numbers `c[0..256]` of `Rescale(T)` (R112). -/
def scaledSums (p total : Nat) (counts : Table 256) : List Nat :=
  runningSums 0 (counts.cells.map fun c => scaledWidth p total c.toNat)

theorem scaledSums_length (p total : Nat) (counts : Table 256) :
    (scaledSums p total counts).length = 257 := by
  simp [scaledSums, runningSums_length, counts.size_eq]

/-- The table that `Rescale(T)` commits. -/
def scaledTable (p total : Nat) (counts : Table 256) : Table 257 :=
  ⟨(scaledSums p total counts).map (BitVec.ofNat 32), by rw [List.length_map, scaledSums_length]⟩

/-- `c[256]` of `Rescale(T)`. -/
def scaledTop (p total : Nat) (counts : Table 256) : Nat := (scaledSums p total counts).getD 256 0

/-- `Rescale(T)` (R112) on the staged state `s`, whose `counts` are the new ones when the invoking command
has changed them. -/
def rescaleModel (total : Nat) (s : State) : Except Raise State :=
  if one s.p < scaledTop s.p total s.counts then
    .error ⟨.modelSum, min (scaledTop s.p total s.counts) Config.wordMax⟩
  else .ok { s with cumulative := scaledTable s.p total s.counts, modelValid := true }

/-- All counts 1 and `total` 0 (R110; the first lines of R114 and R180; R181 with `range_clear`). -/
def clearCounts (s : State) : State := { s with counts := Table.fill 256 1, total := 0 }

/-- The uniform model: counts 1, `total` 0, `Rescale(0)` (R114; the middle lines of R180). -/
def uniformModel (s : State) : Except Raise State := rescaleModel 0 (clearCounts s)

/-- `MRESET` (R110): reset all counts to 1; the table in force stays. -/
def execMreset (s : State) : Outcome :=
  issue .mreset s fun s => .next (clearCounts s)

/-- `MADD s` (R111): the sums are tested before either is written. -/
def addOccurrence (sym : Nat) (s : State) : Except Raise State :=
  if Config.wordMax < (s.counts.get sym).toNat + s.weight.toNat then .error ⟨.countOverflow, sym⟩
  else if Config.wordMax < s.total.toNat + s.weight.toNat then .error ⟨.countOverflow, sym⟩
  else .ok { s with
    counts := s.counts.set sym (BitVec.ofNat 32 ((s.counts.get sym).toNat + s.weight.toNat))
    total := BitVec.ofNat 32 (s.total.toNat + s.weight.toNat) }

/-- `MADD s` (R111): add one occurrence of a symbol to the counts. -/
def execMadd (sym : Byte) (s : State) : Outcome :=
  issue (.madd sym) s fun s => concludePure s (addOccurrence (byteOperand sym) s)

/-- `RESCALE` (R113): rebuild the cumulative table from the counts, with `total` as the operand. -/
def execRescale (s : State) : Outcome :=
  issue .rescale s fun s => concludePure s (rescaleModel s.totalOperand s)

/-- `RUNIFORM` (R114): reset the model to the uniform distribution. -/
def execRuniform (s : State) : Outcome :=
  issue .runiform s fun s => concludePure s (uniformModel s)

end Sys2Proof.Machine
end

