-- ==== Sys2Proof/Machine/Adaptive.lean ====
section
/-! DEFINITION. adaptive_frequency_rescaler (46_adaptive.md): the micro-operations `AdaptStart` and
`AdaptUpdate`, staged on a copy of the state that the invoking command commits. -/

namespace Sys2Proof.Machine

/-- `AdaptStart()` (R180). -/
def adaptStart (s : State) : Except Raise State :=
  if s.updateRange = 0 then .error ⟨.config, 0⟩
  else match uniformModel s with
    | .error r => .error r
    | .ok t => .ok { t with runCount := 0 }

/-- The first lines of `AdaptUpdate(s)` (R181): the count and the total go up by 1, not by `weight`. -/
def bumpCount (sym : Nat) (s : State) : State :=
  { s with
    counts := s.counts.set sym (BitVec.ofNat 32 ((s.counts.get sym).toNat + 1))
    total := BitVec.ofNat 32 (s.total.toNat + 1) }

/-- The end of a period in `AdaptUpdate` (R181): the table is rebuilt from the incremented counts, then
`run_count` is cleared and, with `range_clear = 1`, the counts and `total`, with no second rebuild. -/
def periodEnd (s : State) : Except Raise State :=
  match rescaleModel s.total.toNat s with
  | .error r => .error r
  | .ok t => .ok (if t.rangeClear then { clearCounts t with runCount := 0 } else { t with runCount := 0 })

/-- `AdaptUpdate(s)` (R181). -/
def adaptUpdate (sym : Nat) (s : State) : Except Raise State :=
  if (s.counts.get sym).toNat = Config.wordMax then .error ⟨.countOverflow, sym⟩
  else if s.total.toNat = Config.wordMax then .error ⟨.countOverflow, sym⟩
  else if s.runCount.toNat + 1 = s.updateRange.toNat then periodEnd (bumpCount sym s)
  else .ok { bumpCount sym s with runCount := BitVec.ofNat 32 (s.runCount.toNat + 1) }

/-- The model at the start of a session (44_encoder.md R150, 45_decoder.md R165): in adaptive mode
`AdaptStart`, in static mode the table in force, which must exist, else `SEQUENCE(w)`. -/
def sessionModel (w : Word) (s : State) : Except Raise State :=
  if s.adaptive then adaptStart s
  else if s.modelValid then .ok s
  else .error ⟨.sequence, w.toNat⟩

/-- The model after a symbol (44_encoder.md R151 step 8, 45_decoder.md R167 step 5): `AdaptUpdate` in
adaptive mode, nothing in static mode. -/
def modelAfterSymbol (sym : Nat) (s : State) : Except Raise State :=
  if s.adaptive then adaptUpdate sym s else .ok s

end Sys2Proof.Machine
end

