-- ==== Sys2Proof/Machine/BitBuffer.lean ====
section
/-! DEFINITION. bit_addressable_buffer (42_bitbuffer.md): the micro-operations `GetBit`, `SetBit` and the
commands `GETBIT`, `SETBIT`. Bit-stream index `k` is bit `7 - (k mod 8)` of byte `k >> 3`
(20_memory.md R62). -/

namespace Sys2Proof.Machine

/-- The byte address of a bit-stream index, `a(k) = k >> 3` (20_memory.md R62). -/
def byteAddress (k : Nat) : Nat := k / 8

/-- The mask of a bit-stream index in its byte, `m(k) = 1 << (7 - (k mod 8))` (R62). -/
def bitMask (k : Nat) : Nat := 2 ^ (7 - k % 8)

/-- The bit of BS at index `k`, in bounds or not: `(byte >> (7 - (k mod 8))) mod 2` (R125). -/
def bitAt (bs : Memory) (k : Nat) : Nat := ((bs.read (byteAddress k)).toNat / bitMask k) % 2

/-- The byte with the bit of index `k` cleared and then set to `v` (R126). -/
def byteWithBit (byte : Byte) (k v : Nat) : Byte :=
  BitVec.ofNat 8 ((byte.toNat - (byte.toNat &&& bitMask k)) + v * bitMask k)

/-- `GetBit(k)` (R125), `cap = 8 * bs_size`. -/
def getBit (cap k : Nat) (bs : Memory) : Run Nat :=
  if cap ≤ k then .raised ⟨.bsBounds, k % 2 ^ 32⟩ bs
  else .done (bitAt bs k) bs

/-- `SetBit(k, v)` (R126), `cap = 8 * bs_size`; the byte is written even when it does not change. -/
def setBit (cap k v : Nat) (bs : Memory) : Run Unit :=
  if cap ≤ k then .raised ⟨.bsBounds, k % 2 ^ 32⟩ bs
  else .done () (bs.write (byteAddress k) (byteWithBit (bs.read (byteAddress k)) k v))

/-- The course of `GETBIT` (R127). -/
def getbitRun (s : State) : Run State :=
  (getBit s.capacity s.indexOperand s.bs).bind fun b bs =>
    .done { s with result := BitVec.ofNat 32 b } bs

/-- `GETBIT` (R127): read one bit of BS into `result`. -/
def execGetbit (s : State) : Outcome :=
  issue .getbit s fun s => conclude s (getbitRun s)

/-- The course of `SETBIT v` (R128): no register is written. -/
def setbitRun (v : Bool) (s : State) : Run State :=
  (setBit s.capacity s.indexOperand (bitOperand v) s.bs).bind fun _ bs => .done s bs

/-- `SETBIT v` (R128): write one bit of BS. -/
def execSetbit (v : Bool) (s : State) : Outcome :=
  issue (.setbit v) s fun s => conclude s (setbitRun v s)

end Sys2Proof.Machine
end

