-- ==== Sys2Proof/Machine/Engine.lean ====
section
/-! DEFINITION. fixed_point_interval_engine (43_interval_engine.md): `Scale`, `Carry`, `RenormEnc`,
`RenormDec`. Every value is a natural number, exact (00_scope.md R12); renormalisation is driven by the
length alone (R145). -/

namespace Sys2Proof.Machine

/-- `Scale(L, c) = (L * c) >> p` (R136): exact product, then floor. -/
def scale (p L c : Nat) : Nat := L * c / 2 ^ p

/-- The carry walk of `Carry(cur)` (R140) with the indices `0 .. i-1` still to be visited. -/
def carryWalk (cap cur : Nat) : Nat → Memory → Run Unit
  | 0, bs => .raised ⟨.carryUnderrun, cur⟩ bs
  | i + 1, bs =>
    (getBit cap i bs).bind fun b bs =>
      if b = 1 then (setBit cap i 0 bs).bind fun _ bs => carryWalk cap cur i bs
      else setBit cap i 1 bs

/-- `Carry(cur)` (R140): add one to the number formed by the bits at indices `0 .. cur-1`. -/
def carry (cap cur : Nat) (bs : Memory) : Run Unit := carryWalk cap cur cur bs

/-- The loop of `RenormEnc` (R141). `room` is the number of indices from `cur` up that are in bounds: each
turn writes one bit, so with no room left the next turn raises `BS_BOUNDS(cur)`. Log 10. -/
def renormEncLoop (p cap : Nat) : Nat → Nat → Nat → Nat → Memory → Run (Nat × Nat × Nat)
  | 0, nb, nl, cur, bs =>
    if nl < half p then .raised ⟨.bsBounds, cur % 2 ^ 32⟩ bs else .done (nb, nl, cur) bs
  | room + 1, nb, nl, cur, bs =>
    if nl < half p then
      (setBit cap cur (2 * nb / 2 ^ p) bs).bind fun _ bs =>
        renormEncLoop p cap room ((2 * nb) % one p) ((2 * nl) % one p) (cur + 1) bs
    else .done (nb, nl, cur) bs

/-- `RenormEnc(nb, nl, cur)` (R141). -/
def renormEnc (p cap nb nl cur : Nat) (bs : Memory) : Run (Nat × Nat × Nat) :=
  renormEncLoop p cap (cap - cur) nb nl cur bs

/-- The loop of `RenormDec` (R144). `room` is the number of indices above `cur` that are in bounds: each
turn reads one bit at `cur + 1`, so with no room left the next turn raises `BS_BOUNDS(cur + 1)`.
Log 10. -/
def renormDecLoop (p cap : Nat) : Nat → Nat → Nat → Nat → Memory → Run (Nat × Nat × Nat)
  | 0, v, l, cur, bs =>
    if l < half p then .raised ⟨.bsBounds, (cur + 1) % 2 ^ 32⟩ bs else .done (v, l, cur) bs
  | room + 1, v, l, cur, bs =>
    if l < half p then
      (getBit cap (cur + 1) bs).bind fun b bs =>
        renormDecLoop p cap room ((2 * v) % one p + b) ((2 * l) % one p) (cur + 1) bs
    else .done (v, l, cur) bs

/-- `RenormDec(V, L, cur)` (R144). -/
def renormDec (p cap v l cur : Nat) (bs : Memory) : Run (Nat × Nat × Nat) :=
  renormDecLoop p cap (cap - (cur + 1)) v l cur bs

end Sys2Proof.Machine
end

