-- ==== Sys2Proof/Machine/Decoder.lean ====
section
/-! DEFINITION. The decoder commands (45_decoder.md): `DEC_INIT`, `DECODE`, and the micro-operation
`Search`. -/

namespace Sys2Proof.Machine

/-- The fill of `DEC_INIT` (R165): `n` further bits from index `i` on, most significant first. -/
def fillValue (cap : Nat) : Nat → Nat → Nat → Memory → Run Nat
  | 0, _, v, bs => .done v bs
  | n + 1, i, v, bs => (getBit cap i bs).bind fun b bs => fillValue cap n (i + 1) (2 * v + b) bs

/-- The course of `DEC_INIT` (R165). -/
def decInitRun (s : State) : Run State :=
  (Run.lift (sessionModel (encode .decInit) s) s.bs).bind fun t bs =>
  (fillValue s.capacity s.p 0 0 bs).bind fun v bs =>
  .done { t with
    value := BitVec.ofNat 32 v
    length := BitVec.ofNat 32 (one s.p - 1)
    bitCursor := BitVec.ofNat 32 (s.p - 1)
    phase := .dec } bs

/-- `DEC_INIT` (R165): start a decode session. -/
def execDecInit (s : State) : Outcome :=
  issue .decInit s fun s => conclude s (decInitRun s)

/-- What `Search` (R166) returns: the symbol and its scaled bounds. -/
structure Found where
  sym : Nat
  x : Nat
  y : Nat
deriving DecidableEq, Repr

/-- The scaled bound `Scale(L, cumulative[i])`, `f(i)` of R168. -/
def scaledBound (s : State) (i : Nat) : Nat := scale s.p s.length.toNat (s.cumulative.get i).toNat

/-- The loop of `Search` (R166) with at most `fuel` halvings; 8 halvings take `0..256` to adjacent bounds. -/
def searchLoop (s : State) (v : Nat) : Nat → Nat → Nat → Nat → Nat → Found
  | 0, low, _, x, y => ⟨low, x, y⟩
  | fuel + 1, low, high, x, y =>
    if 1 < high - low then
      if v < scaledBound s ((low + high) / 2) then
        searchLoop s v fuel low ((low + high) / 2) x (scaledBound s ((low + high) / 2))
      else
        searchLoop s v fuel ((low + high) / 2) high (scaledBound s ((low + high) / 2)) y
    else ⟨low, x, y⟩

/-- `Search(V, L)` (R166) at `V = value`, `L = length`. -/
def search (s : State) : Except Raise Found :=
  if scaledBound s 256 ≤ s.value.toNat then .error ⟨.codeRange, s.value.toNat⟩
  else .ok (searchLoop s s.value.toNat 8 0 256 (scaledBound s 0) (scaledBound s 256))

/-- The registers that `DECODE` commits (R167 step 4). -/
def State.withDecoded (t : State) (v l cur sym : Nat) : State :=
  { t with
    value := BitVec.ofNat 32 v
    length := BitVec.ofNat 32 l
    bitCursor := BitVec.ofNat 32 cur
    result := BitVec.ofNat 32 sym }

/-- The course of `DECODE` (R167), steps 1 to 5. -/
def decodeRun (s : State) : Run State :=
  (Run.lift (search s) s.bs).bind fun f bs =>
  (renormDec s.p s.capacity (s.value.toNat - f.x) (f.y - f.x) s.bitCursor.toNat bs).bind fun out bs =>
  (Run.lift (modelAfterSymbol f.sym s) bs).bind fun t bs =>
  .done (t.withDecoded out.1 out.2.1 out.2.2 f.sym) bs

/-- `DECODE` (R167): decode one symbol. -/
def execDecode (s : State) : Outcome :=
  issue .decode s fun s => conclude s (decodeRun s)

end Sys2Proof.Machine
end

