-- ==== Sys2Proof/Machine/Encoder.lean ====
section
/-! DEFINITION. The encoder commands (44_encoder.md): `ENC_INIT`, `ENCODE`, `FLUSH`. -/

namespace Sys2Proof.Machine

/-- The course of `ENC_INIT` (R150). -/
def encInitStaged (s : State) : Except Raise State :=
  match sessionModel (encode .encInit) s with
  | .error r => .error r
  | .ok t => .ok { t with
      base := 0
      length := BitVec.ofNat 32 (one s.p - 1)
      bitCursor := 0
      phase := .enc }

/-- `ENC_INIT` (R150): start an encode session. -/
def execEncInit (s : State) : Outcome :=
  issue .encInit s fun s => concludePure s (encInitStaged s)

/-- `inc` of R151 step 2: the scaled lower bound of the symbol. -/
def lowBound (sym : Nat) (s : State) : Nat := scale s.p s.length.toNat (s.cumulative.get sym).toNat

/-- `Y` of R151 step 2: the scaled upper bound of the symbol. -/
def highBound (sym : Nat) (s : State) : Nat :=
  scale s.p s.length.toNat (s.cumulative.get (sym + 1)).toNat

/-- `nb` of R151 step 3. -/
def narrowedBase (sym : Nat) (s : State) : Nat := (s.base.toNat + lowBound sym s) % one s.p

/-- Step 5 of R151 and its like in R152: the carry, when the addition to `base` wrapped. -/
def carryIf (wrapped : Prop) [Decidable wrapped] (cap cur : Nat) (bs : Memory) : Run Unit :=
  if wrapped then carry cap cur bs else .done () bs

/-- The registers that an encoder command commits (R151 step 7, R152). -/
def State.withInterval (t : State) (nb nl cur : Nat) : State :=
  { t with base := BitVec.ofNat 32 nb, length := BitVec.ofNat 32 nl, bitCursor := BitVec.ofNat 32 cur }

/-- The course of `ENCODE s` (R151), steps 1 to 8. -/
def encodeRun (sym : Nat) (s : State) : Run State :=
  if highBound sym s ≤ lowBound sym s then .raised ⟨.modelDegenerate, sym⟩ s.bs
  else
    (carryIf (narrowedBase sym s < s.base.toNat) s.capacity s.bitCursor.toNat s.bs).bind fun _ bs =>
    (renormEnc s.p s.capacity (narrowedBase sym s) (highBound sym s - lowBound sym s)
      s.bitCursor.toNat bs).bind fun out bs =>
    (Run.lift (modelAfterSymbol sym s) bs).bind fun t bs =>
    .done (t.withInterval out.1 out.2.1 out.2.2) bs

/-- `ENCODE s` (R151): encode one symbol. -/
def execEncode (sym : Byte) (s : State) : Outcome :=
  issue (.encode sym) s fun s => conclude s (encodeRun (byteOperand sym) s)

/-- `candidateBase` of R152. -/
def candidateBase (s : State) : Nat := (s.base.toNat + quarter s.p) % one s.p

/-- The course of `FLUSH` (R152). -/
def flushRun (s : State) : Run State :=
  (carryIf (candidateBase s < s.base.toNat) s.capacity s.bitCursor.toNat s.bs).bind fun _ bs =>
  (renormEnc s.p s.capacity (candidateBase s) (quarter s.p - 1) s.bitCursor.toNat bs).bind fun out bs =>
  .done { s.withInterval out.1 out.2.1 out.2.2 with
    result := BitVec.ofNat 32 out.2.2
    phase := .idle } bs

/-- `FLUSH` (R152): end the encode session by writing the tail code. -/
def execFlush (s : State) : Outcome :=
  issue .flush s fun s => conclude s (flushRun s)

end Sys2Proof.Machine
end

