-- ==== Sys2Proof/Machine/Session.lean ====
section
/-! DEFINITION. Session control (40_session.md): `CONSTRUCT` and `END`. -/

namespace Sys2Proof.Machine

/-- The commit of `CONSTRUCT` (R100) at a legal precision `q`: the tables `cumulative`, the configuration
registers, `arg` and BS are not written. -/
def constructState (q : Nat) (s : State) : State :=
  State.clearFault { clearCounts s with
    precision := BitVec.ofNat 5 q
    runCount := 0
    modelValid := false
    base := 0
    length := 0
    value := 0
    bitCursor := 0
    result := 0
    phase := .idle }

/-- The check and commit of `CONSTRUCT q` (R100). -/
def constructAt (q : Nat) (s : State) : Except Raise State :=
  if q < Config.precMin ∨ Config.precMax < q then .error ⟨.precision, q⟩
  else .ok (constructState q s)

/-- `CONSTRUCT q` (R100): construct a Coder State at precision `q`, in every phase and under a fault. -/
def execConstruct (q : Byte) (s : State) : Outcome :=
  issue (.construct q) s fun s => concludePure s (constructAt (byteOperand q) s)

/-- `END` (R101): end the current session without flushing. -/
def execEnd (s : State) : Outcome :=
  issue .endSession s fun s => .next { s with phase := .idle }

end Sys2Proof.Machine
end

