-- ==== Sys2Proof/Machine/Dispatch.lean ====
section
/-! DEFINITION. The commands and their meanings (30_encoding.md R84, last column). -/

namespace Sys2Proof.Machine

def exec (i : Instr) (s : State) : Host.Outcome State Fault Refusal :=
  match i with
  | .construct q => Sys2Proof.Machine.execConstruct q s
  | .mreset => Sys2Proof.Machine.execMreset s
  | .madd sym => Sys2Proof.Machine.execMadd sym s
  | .rescale => Sys2Proof.Machine.execRescale s
  | .runiform => Sys2Proof.Machine.execRuniform s
  | .getbit => Sys2Proof.Machine.execGetbit s
  | .setbit v => Sys2Proof.Machine.execSetbit v s
  | .encInit => Sys2Proof.Machine.execEncInit s
  | .encode sym => Sys2Proof.Machine.execEncode sym s
  | .flush => Sys2Proof.Machine.execFlush s
  | .decInit => Sys2Proof.Machine.execDecInit s
  | .decode => Sys2Proof.Machine.execDecode s
  | .endSession => Sys2Proof.Machine.execEnd s

end Sys2Proof.Machine
end

