-- ==== Sys2Proof/Machine/Port.lean ====
section
/-! DEFINITION. The two ports and the reset input as the outside world uses them: the register map
(10_state.md R40 to R46), the command register (30_encoding.md R85), the host's own accesses to BS
(20_memory.md R60, R70) and `rst` (70_reset_and_hazards.md R230). -/

namespace Sys2Proof.Machine

/-- The byte offset of a register-port word address (10_state.md R40). -/
def byteOffset (a : BitVec 10) : Nat := 4 * a.toNat

/-- The content column of the register map (10_state.md R40, R42 to R46) by byte offset: unnamed bits are
zero, `CMD` and unmapped offsets read as 0. -/
def registerContent (s : State) (o : Nat) : Word :=
  if o = 0x000 then 0
  else if o = 0x004 then s.arg
  else if o = 0x008 then s.result
  else if o = 0x00C then s.statusWord
  else if o = 0x010 then s.faultCause.setWidth 32
  else if o = 0x014 then s.faultInfo
  else if o = 0x018 then s.precision.setWidth 32
  else if o = 0x01C then s.modeWord
  else if o = 0x020 then s.weight
  else if o = 0x024 then s.updateRange
  else if o = 0x028 then s.bsSize.setWidth 32
  else if o = 0x02C then s.total
  else if o = 0x030 then s.runCount
  else if o = 0x034 then s.base
  else if o = 0x038 then s.length
  else if o = 0x03C then s.value
  else if o = 0x040 then s.bitCursor
  else if 0x400 ≤ o ∧ o ≤ 0x7FC then s.counts.get ((o - 0x400) / 4)
  else if 0x800 ≤ o ∧ o ≤ 0xC00 then s.cumulative.get ((o - 0x800) / 4)
  else 0

/-- The RW-idle registers (10_state.md R41): writable whenever no session is active. -/
def isConfigOffset (o : Nat) : Bool :=
  o == 0x01C || o == 0x020 || o == 0x024 || o == 0x028 || o == 0x02C

/-- The write of an RW-idle register (10_state.md R41, R45, R46): unnamed bits are ignored. -/
def writeConfig (o : Nat) (v : Word) (s : State) : State :=
  if o = 0x01C then { s with adaptive := v.getLsbD 0, rangeClear := v.getLsbD 1 }
  else if o = 0x020 then { s with weight := v }
  else if o = 0x024 then { s with updateRange := v }
  else if o = 0x028 then { s with bsSize := v.setWidth 29 }
  else if o = 0x02C then { s with total := v }
  else s

/-- A register write to byte offset `o` other than `CMD` (10_state.md R41). -/
def registerWrite (o : Nat) (v : Word) (s : State) : State :=
  if o = 0x004 then { s with arg := v }
  else if isConfigOffset o then
    if s.activeSession then s.raise ⟨.access, o⟩ else writeConfig o v s
  else s.raise ⟨.access, o⟩

/-- An illegal word written to `CMD` (30_encoding.md R85 steps 2 and 3, R86): ignored under a fault, else
`ILLEGAL_CMD(w)`. Both are what `raise` does. -/
def illegalCommand (w : Word) (s : State) : State := s.raise ⟨.illegalCmd, w.toNat⟩

/-- A write of the word `w` to `CMD` (30_encoding.md R85). -/
def commandWrite (w : Word) (s : State) : Outcome :=
  match decode w with
  | .ok i => exec i s
  | .error _ => .next (illegalCommand w s)

/-- Whether a byte of BS belongs to the session in progress (20_memory.md R70, `bs_size` bytes: R61).
Log 6. -/
def sessionOwns (a : Nat) (s : State) : Bool := s.activeSession && decide (a < s.bsSize.toNat)

/-- The host writes a byte of BS itself (20_memory.md R60, R61, R70). -/
def hostBsWrite (a : BitVec 29) (v : Byte) (s : State) : Outcome :=
  if sessionOwns a.toNat s then .refused .bsOwnedBySession
  else .next { s with bs := s.bs.write a.toNat v }

/-- The host reads a byte of BS itself (20_memory.md R60, R61, R70). -/
def hostBsRead (a : BitVec 29) (s : State) : Outcome :=
  if sessionOwns a.toNat s then .refused .bsOwnedBySession
  else .next { s with hostData := (s.bs.read a.toNat).setWidth 32 }

/-- `rst` (70_reset_and_hazards.md R230): every register takes its reset value, the tables a new draw; BS is
not touched. Logs 3 and 7. -/
def resetEvent (s : State) : State := State.afterReset (s.draws + 1) s.bs s.host s.hostData

/-- One transaction of the outside world, taken to completion (00_scope.md R7). -/
def perform (x : Transaction) (s : State) : Outcome :=
  match x with
  | .write a v => if a = 0 then commandWrite v s else .next (registerWrite (byteOffset a) v s)
  | .read a => .next { s with hostData := registerContent s (byteOffset a) }
  | .bsWrite a v => hostBsWrite a v s
  | .bsRead a => hostBsRead a s
  | .rst => .next (resetEvent s)

/-- Take the next pending transaction and perform it; with none pending nothing happens ("Nothing
asynchronous ever changes AEC state", 60_exceptions.md R205). Log 1. -/
def takeTransaction (s : State) : Outcome :=
  match s.host with
  | [] => .next s
  | x :: rest => perform x { s with host := rest }

end Sys2Proof.Machine
end

