-- ==== Sys2Proof/Machine/Step.lean ====
section
/-! DEFINITION. One step of the machine is one transaction of the host (00_scope.md R6, R7; 10_state.md
R26: no program counter, no fetch). -/

namespace Sys2Proof.Machine

/-- One step: the next pending transaction, to completion. -/
def step (s : State) : Host.Outcome State Fault Refusal := takeTransaction s

/-- `s` with the command word (30_encoding.md R80) as the next pending transaction, a write to `CMD`: the
very next step runs it. Log 1. -/
def State.withFetchWord (s : State) (nbits w : Nat) : State :=
  { s with host := .write 0 (tableWord nbits w) :: s.host }

end Sys2Proof.Machine
end

