-- ==== Sys2Proof/Machine/Pseudo.lean ====
section
/-! DEFINITION. The pseudo-instructions (30_encoding.md R91) as lists of host transactions. -/

namespace Sys2Proof.Machine

/-- A command as a transaction: `WR CMD, match | operand` (R90). -/
def cmd (i : Instr) : Transaction := .write 0 (encode i)

/-- `RD RESULT` (R90, 10_state.md R40: byte offset 0x008). -/
def readResult : Transaction := .read 2

/-- `BUILD_FROM_SAMPLE B`. -/
def buildFromSample (b : List Byte) : List Transaction :=
  cmd .mreset :: (b.map fun s => cmd (.madd s)) ++ [cmd .rescale]

/-- `RESET_UNIFORM`. -/
def resetUniform : List Transaction := [cmd .runiform]

/-- `RESCALE_T t`: `TOTAL` is at byte offset 0x02C. -/
def rescaleT (t : Word) : List Transaction := [.write 11 t, cmd .rescale]

/-- `GETBIT_AT k`: `ARG` is at byte offset 0x004. -/
def getbitAt (k : Word) : List Transaction := [.write 1 k, cmd .getbit, readResult]

/-- `SETBIT_AT k, v`. -/
def setbitAt (k : Word) (v : Bool) : List Transaction := [.write 1 k, cmd (.setbit v)]

/-- `ENCODE_BUFFER B`. -/
def encodeBuffer (b : List Byte) : List Transaction :=
  cmd .encInit :: (b.map fun s => cmd (.encode s)) ++ [cmd .flush, readResult]

/-- `DECODE_BUFFER n`. -/
def decodeBuffer (n : Nat) : List Transaction :=
  cmd .decInit :: (List.replicate n [cmd .decode, readResult]).flatten ++ [cmd .endSession]

/-- `WR UPDATE_RANGE, u`; `WR MODE, 1 + 2*c`: offsets 0x024 and 0x01C. -/
def adaptiveConfig (u : Word) (c : Bool) : List Transaction :=
  [.write 9 u, .write 7 (BitVec.ofNat 32 (1 + 2 * flagBit c))]

/-- `ADAPTIVE_ENCODE_BUFFER B, u, c`. -/
def adaptiveEncodeBuffer (b : List Byte) (u : Word) (c : Bool) : List Transaction :=
  adaptiveConfig u c ++ encodeBuffer b

/-- `ADAPTIVE_DECODE_BUFFER n, u, c`. -/
def adaptiveDecodeBuffer (n : Nat) (u : Word) (c : Bool) : List Transaction :=
  adaptiveConfig u c ++ decodeBuffer n

end Sys2Proof.Machine
end

