-- ==== Sys2Proof/Safety.lean ====
section
/-! DEFINITION. The terms claims are made in: the fault record of a state, bit strings of BS, the number of
renormalisation steps, the legal phases as the table of 30_encoding.md R88 lists them, and the invariants
of 10_state.md R50. -/

namespace Sys2Proof.Machine

/-- The state with the fault record written and nothing else (60_exceptions.md R191). -/
def State.faulted (s : State) (code : BitVec 4) (info : Word) : State :=
  { s with fault := true, faultCause := code, faultInfo := info }

/-- The number whose `n` binary digits, most significant first, are the bits of BS from index `lo` on
(20_memory.md R64; `E` of 43_interval_engine.md R135 is `bitsFrom bs 0 bit_cursor`). -/
def bitsFrom (bs : Memory) (lo : Nat) : Nat → Nat
  | 0 => 0
  | n + 1 => 2 * bitsFrom bs lo n + bitAt bs (lo + n)

/-- `t` is the least natural with `l * 2^t >= HALF` (43_interval_engine.md R142). -/
def RenormSteps (p l t : Nat) : Prop := half p ≤ l * 2 ^ t ∧ ∀ u, u < t → l * 2 ^ u < half p

/-- Every bit of BS outside the indices `lo .. hi-1`, and every byte that holds none of them, reads as
before. -/
def OnlyBitsChanged (bs bs' : Memory) (lo hi : Nat) : Prop :=
  (∀ j, j < lo ∨ hi ≤ j → bitAt bs' j = bitAt bs j) ∧
  (∀ a, 8 * a + 8 ≤ lo ∨ hi ≤ 8 * a → bs'.read a = bs.read a)

/-- What a carry at `cur` finds and leaves (43_interval_engine.md R140): `z` is the last index below `cur`
that holds a 0; it becomes 1, the ones above it become 0, every other bit is as before, and so is every
byte that holds none of them. -/
def Carried (bs bs' : Memory) (z cur : Nat) : Prop :=
  bitAt bs' z = 1 ∧ (∀ j, z < j → j < cur → bitAt bs' j = 0) ∧ OnlyBitsChanged bs bs' z cur

/-- `z` is where a carry at `cur` is absorbed: a 0 bit below `cur` with only ones between (R140). -/
def AbsorbsCarry (bs : Memory) (z cur : Nat) : Prop :=
  z < cur ∧ bitAt bs z = 0 ∧ ∀ j, z < j → j < cur → bitAt bs j = 1

/-- The emission of `t` bits at `cur` (43_interval_engine.md R142): bits `p-1, p-2, ..., p-t` of `nb`. -/
def Emitted (p nb t : Nat) (bs bs' : Memory) (cur : Nat) : Prop :=
  (∀ j, j < t → bitAt bs' (cur + j) = nb / 2 ^ (p - 1 - j) % 2) ∧ OnlyBitsChanged bs bs' cur (cur + t)

/-- The legal phases of each command, as the table of 30_encoding.md R88 lists them. -/
def phasesOf : Instr → List Phase
  | .construct _ => [.reset, .idle, .enc, .dec]
  | .mreset => [.idle]
  | .madd _ => [.idle]
  | .rescale => [.idle]
  | .runiform => [.idle]
  | .getbit => [.idle]
  | .setbit _ => [.idle]
  | .encInit => [.idle]
  | .encode _ => [.enc]
  | .flush => [.enc]
  | .decInit => [.idle]
  | .decode => [.dec]
  | .endSession => [.idle, .enc, .dec]

/-- The codes of the faults that each command can raise (60_exceptions.md R192, R190): 2 is `SEQUENCE`. -/
def causesOf : Instr → List Nat
  | .construct _ => [3]
  | .mreset => [2]
  | .madd _ => [2, 7]
  | .rescale => [2, 6]
  | .runiform => [2]
  | .getbit => [2, 8]
  | .setbit _ => [2, 8]
  | .encInit => [2, 4]
  | .encode _ => [2, 5, 9, 8, 7]
  | .flush => [2, 9, 8]
  | .decInit => [2, 4, 8]
  | .decode => [2, 10, 8, 7]
  | .endSession => [2]

/-- The registers of the AEC (10_state.md R20) outside the fault record. -/
inductive Register where
  | precision | base | length | value | bitCursor | counts | cumulative | total | weight | updateRange
  | adaptive | rangeClear | runCount | bsSize | phase | modelValid | arg | result
deriving DecidableEq, Repr

/-- The register holds the same in both states. -/
def Register.same (s t : State) : Register → Prop
  | .precision => t.precision = s.precision
  | .base => t.base = s.base
  | .length => t.length = s.length
  | .value => t.value = s.value
  | .bitCursor => t.bitCursor = s.bitCursor
  | .counts => t.counts = s.counts
  | .cumulative => t.cumulative = s.cumulative
  | .total => t.total = s.total
  | .weight => t.weight = s.weight
  | .updateRange => t.updateRange = s.updateRange
  | .adaptive => t.adaptive = s.adaptive
  | .rangeClear => t.rangeClear = s.rangeClear
  | .runCount => t.runCount = s.runCount
  | .bsSize => t.bsSize = s.bsSize
  | .phase => t.phase = s.phase
  | .modelValid => t.modelValid = s.modelValid
  | .arg => t.arg = s.arg
  | .result => t.result = s.result

/-- The registers that the adaptive micro-operations write (46_adaptive.md R180, R181), in adaptive mode
only. -/
def adaptiveRegisters (adaptive : Bool) : List Register :=
  if adaptive then [.counts, .total, .cumulative, .modelValid, .runCount] else []

/-- The registers that each command may write, in static or adaptive mode, as the "written by" lists of
10_state.md R21 to R38 and the commits of the commands name them. -/
def mayWrite (adaptive : Bool) : Instr → List Register
  | .construct _ =>
    [.precision, .counts, .total, .runCount, .modelValid, .base, .length, .value, .bitCursor, .result,
      .phase]
  | .mreset => [.counts, .total]
  | .madd _ => [.counts, .total]
  | .rescale => [.cumulative, .modelValid]
  | .runiform => [.counts, .total, .cumulative, .modelValid]
  | .getbit => [.result]
  | .setbit _ => []
  | .encInit => [.base, .length, .bitCursor, .phase] ++ adaptiveRegisters adaptive
  | .encode _ => [.base, .length, .bitCursor] ++ adaptiveRegisters adaptive
  | .flush => [.base, .length, .bitCursor, .result, .phase]
  | .decInit => [.value, .length, .bitCursor, .phase] ++ adaptiveRegisters adaptive
  | .decode => [.value, .length, .bitCursor, .result] ++ adaptiveRegisters adaptive
  | .endSession => [.phase]

/-- A table computed by a rescale at precision `p` (10_state.md R50 V3). -/
def TableValid (p : Nat) (t : Table 257) : Prop :=
  (t.get 0).toNat = 0 ∧ (∀ i, i < 256 → (t.get i).toNat ≤ (t.get (i + 1)).toNat) ∧
    (t.get 256).toNat ≤ one p

/-- `c[i]` of `Rescale(T)` (41_model.md R112): the sum of the first `i` scaled counts, each
`(counts[j] * 2^p) / (T + 256)`, product first. -/
def widthsBelow (p total : Nat) (counts : Table 256) (i : Nat) : Nat :=
  ((List.range i).map fun j => (counts.get j).toNat * 2 ^ p / (total + 256)).sum

/-- The invariant of an undisturbed encode session (43_interval_engine.md R147): with `E` the number that
the emitted bits form and `n` their count, `E * ONE + base + length <= 2^n * ONE`. -/
def StreamInv (s : State) : Prop :=
  bitsFrom s.bs 0 s.bitCursor.toNat * one s.p + s.base.toNat + s.length.toNat ≤
    2 ^ s.bitCursor.toNat * one s.p

/-- Two AECs hold the same model, the same adaptive schedule and the same precision and interval length
(45_decoder.md R169, R172; 46_adaptive.md R182). -/
def SameModel (e d : State) : Prop :=
  e.precision = d.precision ∧ e.length = d.length ∧ e.counts = d.counts ∧ e.cumulative = d.cumulative ∧
    e.total = d.total ∧ e.modelValid = d.modelValid ∧ e.adaptive = d.adaptive ∧
    e.updateRange = d.updateRange ∧ e.rangeClear = d.rangeClear ∧ e.runCount = d.runCount

/-- The invariants of the AEC between transactions: V1 to V9 of 10_state.md R50 (but for "number of bits
emitted in the session" of V6, which no register but `bit_cursor` holds), the fault record of R37, and the
canonical form of BS. -/
structure Inv (s : State) : Prop where
  /-- the canonical form of the memory -/
  memory : s.bs.wf = true
  /-- R37: no fault, no record -/
  recordClear : s.fault = false → s.faultCause = 0 ∧ s.faultInfo = 0
  /-- R190: the cause codes are 1 to 11 -/
  recordCause : s.fault = true → 1 ≤ s.faultCause.toNat ∧ s.faultCause.toNat ≤ 11
  /-- V1 -/
  precision : 3 ≤ s.p ∧ s.p ≤ 31
  /-- V2 -/
  counts : s.phase ≠ .reset → ∀ i, i < 256 → 1 ≤ (s.counts.get i).toNat
  /-- V3 -/
  table : s.modelValid = true → TableValid s.p s.cumulative
  /-- V4, V6 -/
  enc : s.fault = false → s.phase = .enc →
    s.base.toNat < one s.p ∧ half s.p ≤ s.length.toNat ∧ s.length.toNat ≤ one s.p - 1 ∧
      s.bitCursor.toNat ≤ s.capacity
  /-- V5, V7 -/
  dec : s.fault = false → s.phase = .dec →
    s.value.toNat < one s.p ∧ half s.p ≤ s.length.toNat ∧ s.length.toNat ≤ one s.p - 1 ∧
      s.p - 1 ≤ s.bitCursor.toNat ∧ s.bitCursor.toNat < s.capacity
  /-- V8 -/
  model : s.fault = false → s.phase = .enc ∨ s.phase = .dec → s.modelValid = true
  /-- V9 -/
  adaptive : s.fault = false → s.phase = .enc ∨ s.phase = .dec → s.adaptive = true →
    1 ≤ s.updateRange.toNat ∧ s.runCount.toNat < s.updateRange.toNat ∧
      s.total.toNat + 256 = s.counts.sum

end Sys2Proof.Machine
end

