-- ==== Sys2Proof/Certificates/Slice0/Obligations.lean ====
section
/-! DEFINITION. The statements about the AEC, one per rule or group of rules of spec/. A state is any
`State` whatever, reached by a run or not, unless a premise says otherwise. `State.faulted s c w` is `s`
with the fault record (cause `c`, info `w`) written and nothing else. -/

open Sys2Proof Sys2Proof.Machine

/-! ### Encoding (30_encoding.md) -/

/-- R83, R84, R90: the word of every command, at every operand, decodes to that command. -/
def Obligations.DecodeInvertsEncode : Prop :=
  ∀ i : Instr, decode (encode i) = .ok i

/-- R83, R84, R87: a word that decodes to a command is the word of that command, so every command has one
word only. -/
def Obligations.EncodeInvertsDecode : Prop :=
  ∀ (w : Word) (i : Instr), decode w = .ok i → encode i = w

/-- R86: the illegal words, by their fields, and what they do when written to `CMD`. -/
def Obligations.IllegalWordsAreThoseOfTheFields : Prop :=
  ∀ (w : Word) (s : State), s.fault = false →
    ((opField w = 0 ∨ 0x0E ≤ (opField w).toNat ∨ rsvField w ≠ 0 ∨
        ((opField w).toNat ∈ [0x02, 0x04, 0x05, 0x06, 0x08, 0x0A, 0x0B, 0x0C, 0x0D] ∧ imm8Field w ≠ 0) ∨
        ((opField w).toNat = 0x07 ∧ 2 ≤ (imm8Field w).toNat)) →
      (∃ r, decode w = .error r) ∧ commandWrite w s = .next (s.faulted 1 w)) ∧
    (¬ (opField w = 0 ∨ 0x0E ≤ (opField w).toNat ∨ rsvField w ≠ 0 ∨
        ((opField w).toNat ∈ [0x02, 0x04, 0x05, 0x06, 0x08, 0x0A, 0x0B, 0x0C, 0x0D] ∧ imm8Field w ≠ 0) ∨
        ((opField w).toNat = 0x07 ∧ 2 ≤ (imm8Field w).toNat)) →
      ∃ i, decode w = .ok i)

/-- 95_test_vectors.md 2.1: the words written out there decode to the commands named there. -/
def Obligations.WrittenOutWordsDecode : Prop :=
  decode 0x01000010 = .ok (.construct 16) ∧ decode 0x010000FF = .ok (.construct 255) ∧
  decode 0x02000000 = .ok .mreset ∧ decode 0x03000061 = .ok (.madd 0x61) ∧
  decode 0x07000000 = .ok (.setbit false) ∧ decode 0x07000001 = .ok (.setbit true) ∧
  decode 0x090000FF = .ok (.encode 0xFF) ∧ decode 0x0C000000 = .ok .decode ∧
  decode 0x0D000000 = .ok .endSession ∧ decode 0x0E000000 = .error .undefinedOpcode ∧
  decode 0x09000100 = .error .reservedBits ∧ decode 0x07000003 = .error .operandBits

/-- R83: no word spells the commands of two rows, and a word that matches no row is illegal. -/
def Obligations.RowsAreMutuallyExclusive : Prop :=
  ∀ w : Word, opcodeMap.Pairwise (fun a b => ¬ (a.spells w = true ∧ b.spells w = true)) ∧
    ((∃ r, decode w = .error r) ↔ ∀ r ∈ opcodeMap, r.spells w = false)

/-! ### Issuing a command (30_encoding.md R85, R88; 60_exceptions.md R191) -/

/-- R85 step 1 with 10_state.md R41 and the model's list of transactions (log 1): the step that takes a
write to `CMD` of a word that decodes to `i` is `exec i`, on the state with that transaction taken. -/
def Obligations.StepRunsTheDecodedCommand : Prop :=
  ∀ (s : State) (w : Word) (rest : List Transaction) (i : Instr),
    s.host = .write 0 w :: rest → decode w = .ok i → step s = exec i { s with host := rest }

/-- R85: the order of the checks of a command word. -/
def Obligations.CommandChecksInOrder : Prop :=
  ∀ (w : Word) (s : State),
    (s.fault = true → (∀ q, decode w ≠ .ok (.construct q)) → commandWrite w s = .next s) ∧
    (s.fault = false → (∀ i, decode w ≠ .ok i) → commandWrite w s = .next (s.faulted 1 w)) ∧
    (∀ i, s.fault = false → decode w = .ok i → s.phase ∉ phasesOf i →
      commandWrite w s = .next (s.faulted 2 w)) ∧
    (∀ i, decode w = .ok i → s.phase ∈ phasesOf i → (s.fault = false ∨ ∃ q, i = .construct q) →
      commandWrite w s = exec i s)

/-- R88, the table of legal phases: in any other phase a command raises `SEQUENCE` with its word and changes
nothing else. -/
def Obligations.IllegalPhaseRaisesSequence : Prop :=
  ∀ (i : Instr) (s : State), s.fault = false → s.phase ∉ phasesOf i →
    exec i s = .next (s.faulted 2 (encode i))

/-- R85 step 2, R207: under a recorded fault every command but `CONSTRUCT` changes nothing at all. -/
def Obligations.FaultedMachineIgnoresCommands : Prop :=
  ∀ (i : Instr) (s : State), s.fault = true → (∀ q, i ≠ .construct q) → exec i s = .next s

/-- R191: what taking a fault does; the register writes of the abandoned command are not performed, the BS
bytes it has written stay, the first record is kept. -/
def Obligations.RaiseKeepsTheFirstFault : Prop :=
  ∀ (s : State) (c : Cause) (info : Nat) (bs : Memory),
    (s.fault = false → conclude s (.raised ⟨c, info⟩ bs) =
      .next { s with bs := bs, fault := true, faultCause := c.code,
                     faultInfo := BitVec.ofNat 32 (info % 2 ^ 32) }) ∧
    (s.fault = true → conclude s (.raised ⟨c, info⟩ bs) = .next { s with bs := bs }) ∧
    [Cause.illegalCmd, .sequence, .precision, .config, .modelDegenerate, .modelSum, .countOverflow,
      .bsBounds, .carryUnderrun, .codeRange, .access].map Cause.code = [1, 2, 3, 4, 5, 6, 7, 8, 9, 10, 11]

/-! ### Session control (40_session.md) -/

/-- R100: `CONSTRUCT q`, whole: at a legal precision it executes in every phase and under a fault, and
writes exactly the registers of its commit; at another it raises `PRECISION(q)`, or changes nothing if a
fault is recorded. -/
def Obligations.ConstructMakesACoderState : Prop :=
  ∀ (q : Byte) (s : State),
    (3 ≤ q.toNat → q.toNat ≤ 31 → ∃ ones : Table 256, (∀ j, j < 256 → ones.get j = 1) ∧
      exec (.construct q) s = .next { s with
        precision := q.setWidth 5, counts := ones, total := 0, runCount := 0, modelValid := false,
        base := 0, length := 0, value := 0, bitCursor := 0, result := 0, phase := .idle,
        fault := false, faultCause := 0, faultInfo := 0 }) ∧
    (q.toNat < 3 ∨ 31 < q.toNat →
      (s.fault = false → exec (.construct q) s = .next (s.faulted 3 (q.setWidth 32))) ∧
      (s.fault = true → exec (.construct q) s = .next s))

/-- R101: `END` goes to IDLE and writes nothing else; in phase RESET it is a `SEQUENCE` fault. -/
def Obligations.EndOnlyLeavesTheSession : Prop :=
  ∀ s : State, s.fault = false →
    (s.phase = .idle ∨ s.phase = .enc ∨ s.phase = .dec →
      exec .endSession s = .next { s with phase := .idle }) ∧
    (s.phase = .reset → exec .endSession s = .next (s.faulted 2 0x0D000000))

/-! ### The probability model (41_model.md) -/

/-- R110: `MRESET` sets all counts to 1 and `total` to 0 and writes nothing else. -/
def Obligations.MresetSetsAllCountsToOne : Prop :=
  ∀ s : State, s.fault = false → s.phase = .idle →
    ∃ ones : Table 256, (∀ j, j < 256 → ones.get j = 1) ∧
      exec .mreset s = .next { s with counts := ones, total := 0 }

/-- R111: `MADD s` adds `weight` to one count and to `total`, or faults and writes nothing. -/
def Obligations.MaddAddsTheWeightOrFaults : Prop :=
  ∀ (sym : Byte) (s : State), s.fault = false → s.phase = .idle →
    ((s.counts.get sym.toNat).toNat + s.weight.toNat ≤ 2 ^ 32 - 1 →
      s.total.toNat + s.weight.toNat ≤ 2 ^ 32 - 1 →
      ∃ counts' : Table 256, (∀ j, j < 256 → j ≠ sym.toNat → counts'.get j = s.counts.get j) ∧
        counts'.get sym.toNat = s.counts.get sym.toNat + s.weight ∧
        exec (.madd sym) s = .next { s with counts := counts', total := s.total + s.weight }) ∧
    (2 ^ 32 - 1 < (s.counts.get sym.toNat).toNat + s.weight.toNat ∨
        2 ^ 32 - 1 < s.total.toNat + s.weight.toNat →
      exec (.madd sym) s = .next (s.faulted 7 (sym.setWidth 32)))

/-- R112, R113: `RESCALE` commits the prefix sums of the scaled counts, product first and floor division by
`total + 256`, or raises `MODEL_SUM` with the saturated sum and writes nothing. -/
def Obligations.RescaleCommitsThePrefixSums : Prop :=
  ∀ s : State, s.fault = false → s.phase = .idle →
    (widthsBelow s.p s.total.toNat s.counts 256 ≤ 2 ^ s.p →
      ∃ table : Table 257,
        (∀ i, i ≤ 256 → (table.get i).toNat = widthsBelow s.p s.total.toNat s.counts i) ∧
        exec .rescale s = .next { s with cumulative := table, modelValid := true }) ∧
    (2 ^ s.p < widthsBelow s.p s.total.toNat s.counts 256 →
      exec .rescale s = .next (s.faulted 6
        (BitVec.ofNat 32 (min (widthsBelow s.p s.total.toNat s.counts 256) (2 ^ 32 - 1)))))

/-- R116 (a) to (e): the properties of the table that `Rescale(T)` commits, and when `MODEL_SUM` cannot be
raised. -/
def Obligations.RescaledTableIsNormalised : Prop :=
  ∀ (total : Nat) (s : State),
    (∀ t, rescaleModel total s = .ok t →
      (t.cumulative.get 0).toNat = 0 ∧
      (∀ i, i < 256 → (t.cumulative.get i).toNat ≤ (t.cumulative.get (i + 1)).toNat) ∧
      (t.cumulative.get 256).toNat ≤ 2 ^ s.p ∧
      (total + 256 = s.counts.sum → 2 ^ s.p - (t.cumulative.get 256).toNat ≤ 255)) ∧
    (s.counts.sum ≤ total + 256 → ∃ t, rescaleModel total s = .ok t)

/-- R114: `RUNIFORM` never faults and leaves the uniform table in closed form. -/
def Obligations.RuniformYieldsTheUniformTable : Prop :=
  ∀ s : State, s.fault = false → s.phase = .idle →
    ∃ (ones : Table 256) (table : Table 257), (∀ j, j < 256 → ones.get j = 1) ∧
      (8 ≤ s.p → ∀ i, i ≤ 256 → (table.get i).toNat = i * 2 ^ (s.p - 8)) ∧
      (s.p ≤ 7 → ∀ i, i ≤ 256 → (table.get i).toNat = 0) ∧
      exec .runiform s = .next { s with counts := ones, total := 0, cumulative := table, modelValid := true }

/-! ### The bit buffer (42_bitbuffer.md) -/

/-- R127, R125: `GETBIT` puts the addressed bit, MSB first in its byte, into `result` and writes nothing
else; out of bounds it raises `BS_BOUNDS(arg)` and `result` is unchanged. -/
def Obligations.GetbitReadsTheAddressedBit : Prop :=
  ∀ s : State, s.fault = false → s.phase = .idle →
    (s.arg.toNat < 8 * s.bsSize.toNat →
      exec .getbit s = .next { s with result :=
        if (s.bs.read (s.arg.toNat / 8)).getLsbD (7 - s.arg.toNat % 8) then 1 else 0 }) ∧
    (8 * s.bsSize.toNat ≤ s.arg.toNat → exec .getbit s = .next (s.faulted 8 s.arg))

/-- R128, R126: `SETBIT v` writes no register; in bounds it sets the addressed bit to `v`, the other seven
bits of its byte and every other byte read as before, and the memory stays canonical; out of bounds it
raises `BS_BOUNDS(arg)` and BS is unchanged. -/
def Obligations.SetbitWritesOneBit : Prop :=
  ∀ (v : Bool) (s : State), s.fault = false → s.phase = .idle → s.bs.wf = true →
    (s.arg.toNat < 8 * s.bsSize.toNat → ∃ bs' : Memory,
      exec (.setbit v) s = .next { s with bs := bs' } ∧ bs'.wf = true ∧
      (∀ b, b < 8 → (bs'.read (s.arg.toNat / 8)).getLsbD b =
        if b = 7 - s.arg.toNat % 8 then v else (s.bs.read (s.arg.toNat / 8)).getLsbD b) ∧
      ∀ a, a ≠ s.arg.toNat / 8 → bs'.read a = s.bs.read a) ∧
    (8 * s.bsSize.toNat ≤ s.arg.toNat → exec (.setbit v) s = .next (s.faulted 8 s.arg))

/-- R129: the laws of the bit buffer for in-bounds indices of a canonical memory. -/
def Obligations.BitBufferLaws : Prop :=
  ∀ (cap k j v : Nat) (bs : Memory), bs.wf = true → v ≤ 1 → k < cap → j < cap →
    ∃ bs' : Memory, setBit cap k v bs = .done () bs' ∧ getBit cap k bs' = .done v bs' ∧
      (j ≠ k → ∃ b, getBit cap j bs = .done b bs ∧ getBit cap j bs' = .done b bs')

/-! ### The interval engine (43_interval_engine.md) -/

/-- R139: the properties of `Scale`, and the chain of scaled bounds of a valid table. -/
def Obligations.ScaleProperties : Prop :=
  ∀ p l : Nat, scale p l 0 = 0 ∧ (∀ c d, c ≤ d → scale p l c ≤ scale p l d) ∧
    (∀ c, c ≤ 2 ^ p → scale p l c ≤ l) ∧ scale p l (2 ^ p) = l ∧
    ∀ t : Table 257, TableValid p t → scale p l (t.get 0).toNat = 0 ∧
      (∀ i, i < 256 → scale p l (t.get i).toNat ≤ scale p l (t.get (i + 1)).toNat) ∧
      scale p l (t.get 256).toNat ≤ l

/-- R140: `Carry(cur)` is absorbed at the last 0 bit below `cur`, adding one to the number that the emitted
bits form; with no 0 bit it raises `CARRY_UNDERRUN(cur)` and the flips stay. -/
def Obligations.CarryAddsOneToTheEmittedBits : Prop :=
  ∀ (cap cur : Nat) (bs : Memory), bs.wf = true → cap ≤ 2 ^ 32 - 8 → cur ≤ cap →
    (∀ z, AbsorbsCarry bs z cur → ∃ bs', carry cap cur bs = .done () bs' ∧ bs'.wf = true ∧
      Carried bs bs' z cur ∧ bitsFrom bs' 0 cur = bitsFrom bs 0 cur + 1) ∧
    ((∀ j, j < cur → bitAt bs j = 1) → ∃ bs', carry cap cur bs = .raised ⟨.carryUnderrun, cur⟩ bs' ∧
      bs'.wf = true ∧ (∀ j, j < cur → bitAt bs' j = 0) ∧ OnlyBitsChanged bs bs' 0 cur)

/-- R141: one turn of the loop of `RenormEnc`, exactly as its pseudocode says, in every state. -/
def Obligations.RenormEncFollowsItsLoop : Prop :=
  ∀ (p cap nb nl cur : Nat) (bs : Memory), renormEnc p cap nb nl cur bs =
    if nl < 2 ^ (p - 1) then
      (setBit cap cur (2 * nb / 2 ^ p) bs).bind fun _ bs =>
        renormEnc p cap (2 * nb % 2 ^ p) (2 * nl % 2 ^ p) (cur + 1) bs
    else .done (nb, nl, cur) bs

/-- R142: the closed form of `RenormEnc`: the number of steps, the bits written, the result and its
range; with too little room `BS_BOUNDS` at the first index out of bounds, and the bits that did fit are
written. -/
def Obligations.RenormEncClosedForm : Prop :=
  ∀ (p cap nb nl cur : Nat) (bs : Memory), 1 ≤ p → bs.wf = true → cap ≤ 2 ^ 32 - 8 → nb < 2 ^ p →
    1 ≤ nl → nl < 2 ^ p → cur ≤ cap → ∃ t, RenormSteps p nl t ∧ t ≤ p - 1 ∧
      (cur + t ≤ cap → ∃ bs',
        renormEnc p cap nb nl cur bs = .done (nb * 2 ^ t % 2 ^ p, nl * 2 ^ t, cur + t) bs' ∧
        bs'.wf = true ∧ Emitted p nb t bs bs' cur ∧
        2 ^ (p - 1) ≤ nl * 2 ^ t ∧ nl * 2 ^ t ≤ 2 ^ p - 1) ∧
      (cap < cur + t → ∃ bs', renormEnc p cap nb nl cur bs = .raised ⟨.bsBounds, cap⟩ bs' ∧
        bs'.wf = true ∧ Emitted p nb (cap - cur) bs bs' cur)

/-- R144: `RenormDec` follows its loop in every state, and in closed form it shifts `t` further bits into
the code value, keeping it below `ONE`, and does not change BS. -/
def Obligations.RenormDecShiftsBitsIn : Prop :=
  (∀ (p cap v l cur : Nat) (bs : Memory), renormDec p cap v l cur bs =
    if l < 2 ^ (p - 1) then
      (getBit cap (cur + 1) bs).bind fun b bs =>
        renormDec p cap (2 * v % 2 ^ p + b) (2 * l % 2 ^ p) (cur + 1) bs
    else .done (v, l, cur) bs) ∧
  ∀ (p cap v l cur : Nat) (bs : Memory), 1 ≤ p → v < 2 ^ p → 1 ≤ l → l < 2 ^ p →
    ∃ t, RenormSteps p l t ∧ t ≤ p - 1 ∧ (t = 0 ∨ cur + t < cap →
      renormDec p cap v l cur bs =
        .done ((v * 2 ^ t + bitsFrom bs (cur + 1) t) % 2 ^ p, l * 2 ^ t, cur + t) bs ∧
      2 ^ (p - 1) ≤ l * 2 ^ t ∧ l * 2 ^ t ≤ 2 ^ p - 1)

/-- R146: which symbols are encodable, by the width of their table interval. -/
def Obligations.WidthTwoIsAlwaysEncodable : Prop :=
  (∀ p l c d : Nat, 1 ≤ p → 2 ^ (p - 1) ≤ l → c + 2 ≤ d → scale p l c < scale p l d) ∧
  (∀ p l c : Nat, scale p l c - scale p l c = 0) ∧
  (∀ p l c d : Nat, c ≤ d → l * (d - c) / 2 ^ p ≤ scale p l d - scale p l c) ∧
  scale 8 128 1 - scale 8 128 0 = 0 ∧ scale 8 128 2 - scale 8 128 1 = 1

/-! ### The encoder (44_encoder.md) -/

/-- R150 in static mode: the start state of an encode session, or `SEQUENCE` when no model is valid. -/
def Obligations.EncInitStartsAStaticSession : Prop :=
  ∀ s : State, s.fault = false → s.phase = .idle → s.adaptive = false →
    (s.modelValid = true → exec .encInit s = .next { s with
      base := 0, length := BitVec.ofNat 32 (2 ^ s.p - 1), bitCursor := 0, phase := .enc }) ∧
    (s.modelValid = false → exec .encInit s = .next (s.faulted 2 0x08000000))

/-- R180 inside `ENC_INIT` and `DEC_INIT` (R150, R165): in adaptive mode the session starts from the uniform
model; `update_range = 0` raises `CONFIG(0)`. -/
def Obligations.AdaptiveSessionStartsUniform : Prop :=
  ∀ s : State, s.fault = false → s.phase = .idle → s.adaptive = true →
    (s.updateRange = 0 →
      exec .encInit s = .next (s.faulted 4 0) ∧ exec .decInit s = .next (s.faulted 4 0)) ∧
    (s.updateRange ≠ 0 → ∃ (ones : Table 256) (table : Table 257),
      (∀ j, j < 256 → ones.get j = 1) ∧
      (8 ≤ s.p → ∀ i, i ≤ 256 → (table.get i).toNat = i * 2 ^ (s.p - 8)) ∧
      (s.p ≤ 7 → ∀ i, i ≤ 256 → (table.get i).toNat = 0) ∧
      exec .encInit s = .next { s with
        counts := ones, total := 0, cumulative := table, modelValid := true, runCount := 0,
        base := 0, length := BitVec.ofNat 32 (2 ^ s.p - 1), bitCursor := 0, phase := .enc } ∧
      (s.p ≤ 8 * s.bsSize.toNat → exec .decInit s = .next { s with
        counts := ones, total := 0, cumulative := table, modelValid := true, runCount := 0,
        value := BitVec.ofNat 32 (bitsFrom s.bs 0 s.p),
        length := BitVec.ofNat 32 (2 ^ s.p - 1), bitCursor := BitVec.ofNat 32 (s.p - 1), phase := .dec }) ∧
      (8 * s.bsSize.toNat < s.p →
        exec .decInit s = .next (s.faulted 8 (BitVec.ofNat 32 (8 * s.bsSize.toNat)))))

/-- R151 when the addition to `base` does not wrap: `ENCODE s` narrows the interval, emits `t` bits at the
cursor and commits, together with the model after the symbol `m` (R151 step 8). -/
def Obligations.EncodeNarrowsAndEmits : Prop :=
  ∀ (sym : Byte) (s m : State) (t inc y : Nat), s.fault = false → s.phase = .enc → s.bs.wf = true →
    inc = s.length.toNat * (s.cumulative.get sym.toNat).toNat / 2 ^ s.p →
    y = s.length.toNat * (s.cumulative.get (sym.toNat + 1)).toNat / 2 ^ s.p →
    inc < y → y - inc < 2 ^ s.p → 1 ≤ s.p → s.base.toNat + inc < 2 ^ s.p →
    RenormSteps s.p (y - inc) t → s.bitCursor.toNat + t ≤ 8 * s.bsSize.toNat →
    (s.adaptive = false ∧ m = s ∨ s.adaptive = true ∧ adaptUpdate sym.toNat s = .ok m) →
    ∃ bs', bs'.wf = true ∧ Emitted s.p (s.base.toNat + inc) t s.bs bs' s.bitCursor.toNat ∧
      exec (.encode sym) s = .next { m with
        base := BitVec.ofNat 32 ((s.base.toNat + inc) * 2 ^ t % 2 ^ s.p)
        length := BitVec.ofNat 32 ((y - inc) * 2 ^ t)
        bitCursor := s.bitCursor + BitVec.ofNat 32 t
        bs := bs' }

/-- R151 step 5 when the addition to `base` wraps: the carry is absorbed at the last 0 bit `z` below the
cursor, then the bits are emitted. -/
def Obligations.EncodeCarriesOnWrap : Prop :=
  ∀ (sym : Byte) (s m : State) (t inc y z nb : Nat), s.fault = false → s.phase = .enc → s.bs.wf = true →
    inc = s.length.toNat * (s.cumulative.get sym.toNat).toNat / 2 ^ s.p →
    y = s.length.toNat * (s.cumulative.get (sym.toNat + 1)).toNat / 2 ^ s.p →
    inc < y → y - inc < 2 ^ s.p → 1 ≤ s.p →
    nb = (s.base.toNat + inc) % 2 ^ s.p → nb < s.base.toNat → AbsorbsCarry s.bs z s.bitCursor.toNat →
    RenormSteps s.p (y - inc) t → s.bitCursor.toNat + t ≤ 8 * s.bsSize.toNat →
    (s.adaptive = false ∧ m = s ∨ s.adaptive = true ∧ adaptUpdate sym.toNat s = .ok m) →
    ∃ bs1 bs', Carried s.bs bs1 z s.bitCursor.toNat ∧
      bitsFrom bs1 0 s.bitCursor.toNat = bitsFrom s.bs 0 s.bitCursor.toNat + 1 ∧
      bs'.wf = true ∧ Emitted s.p nb t bs1 bs' s.bitCursor.toNat ∧
      exec (.encode sym) s = .next { m with
        base := BitVec.ofNat 32 (nb * 2 ^ t % 2 ^ s.p)
        length := BitVec.ofNat 32 ((y - inc) * 2 ^ t)
        bitCursor := s.bitCursor + BitVec.ofNat 32 t
        bs := bs' }

/-- R151 step 4, R196: a symbol whose narrowed length is not positive raises `MODEL_DEGENERATE(s)` and
nothing is written anywhere. -/
def Obligations.DegenerateSymbolFaultsCleanly : Prop :=
  ∀ (sym : Byte) (s : State), s.fault = false → s.phase = .enc →
    s.length.toNat * (s.cumulative.get (sym.toNat + 1)).toNat / 2 ^ s.p ≤
      s.length.toNat * (s.cumulative.get sym.toNat).toNat / 2 ^ s.p →
    exec (.encode sym) s = .next (s.faulted 5 (sym.setWidth 32))

/-- R152, R143: `FLUSH` emits exactly the two top bits of the candidate base, after a carry when the
addition wrapped, and returns the number of bits. -/
def Obligations.FlushEmitsExactlyTwoBits : Prop :=
  ∀ (s : State) (cb : Nat), s.fault = false → s.phase = .enc → s.bs.wf = true → 3 ≤ s.p →
    cb = (s.base.toNat + 2 ^ (s.p - 2)) % 2 ^ s.p → s.bitCursor.toNat + 2 ≤ 8 * s.bsSize.toNat →
    (s.base.toNat ≤ cb → ∃ bs', bs'.wf = true ∧ Emitted s.p cb 2 s.bs bs' s.bitCursor.toNat ∧
      exec .flush s = .next { s with
        base := BitVec.ofNat 32 (4 * cb % 2 ^ s.p), length := BitVec.ofNat 32 (2 ^ s.p - 4),
        bitCursor := s.bitCursor + 2, result := s.bitCursor + 2, phase := .idle, bs := bs' }) ∧
    (∀ z, cb < s.base.toNat → AbsorbsCarry s.bs z s.bitCursor.toNat →
      ∃ bs1 bs', Carried s.bs bs1 z s.bitCursor.toNat ∧
        bitsFrom bs1 0 s.bitCursor.toNat = bitsFrom s.bs 0 s.bitCursor.toNat + 1 ∧ bs'.wf = true ∧
        Emitted s.p cb 2 bs1 bs' s.bitCursor.toNat ∧
        exec .flush s = .next { s with
          base := BitVec.ofNat 32 (4 * cb % 2 ^ s.p), length := BitVec.ofNat 32 (2 ^ s.p - 4),
          bitCursor := s.bitCursor + 2, result := s.bitCursor + 2, phase := .idle, bs := bs' })

/-- R140, R151, R152, R199: a wrap with no 0 bit before the cursor raises `CARRY_UNDERRUN(bit_cursor)`; no
register is written, the flipped bits stay: every bit below the cursor is 0. -/
def Obligations.CarryUnderrunFaults : Prop :=
  ∀ (s : State) (sym : Byte), s.fault = false → s.phase = .enc → s.bs.wf = true →
    s.bitCursor.toNat ≤ 8 * s.bsSize.toNat → (∀ j, j < s.bitCursor.toNat → bitAt s.bs j = 1) →
    (lowBound sym.toNat s < highBound sym.toNat s →
      (s.base.toNat + lowBound sym.toNat s) % 2 ^ s.p < s.base.toNat →
      ∃ bs', bs'.wf = true ∧ (∀ j, j < s.bitCursor.toNat → bitAt bs' j = 0) ∧
        OnlyBitsChanged s.bs bs' 0 s.bitCursor.toNat ∧
        exec (.encode sym) s = .next { s.faulted 9 s.bitCursor with bs := bs' }) ∧
    ((s.base.toNat + 2 ^ (s.p - 2)) % 2 ^ s.p < s.base.toNat →
      ∃ bs', bs'.wf = true ∧ (∀ j, j < s.bitCursor.toNat → bitAt bs' j = 0) ∧
        OnlyBitsChanged s.bs bs' 0 s.bitCursor.toNat ∧
        exec .flush s = .next { s.faulted 9 s.bitCursor with bs := bs' })

/-- R154, R198, R206: when the bits of a symbol do not fit, `ENCODE` raises `BS_BOUNDS` with the first index
out of bounds and writes no register; a carry of the wrapped `base` stays, and so do the bits that did fit. -/
def Obligations.CapacityExhaustionFaults : Prop :=
  ∀ (sym : Byte) (s : State) (t inc y nb : Nat), s.fault = false → s.phase = .enc → s.bs.wf = true →
    inc = s.length.toNat * (s.cumulative.get sym.toNat).toNat / 2 ^ s.p →
    y = s.length.toNat * (s.cumulative.get (sym.toNat + 1)).toNat / 2 ^ s.p →
    inc < y → y - inc < 2 ^ s.p → 1 ≤ s.p → nb = (s.base.toNat + inc) % 2 ^ s.p →
    RenormSteps s.p (y - inc) t → s.bitCursor.toNat ≤ 8 * s.bsSize.toNat →
    8 * s.bsSize.toNat < s.bitCursor.toNat + t →
    (s.base.toNat ≤ nb → ∃ bs', bs'.wf = true ∧
      Emitted s.p nb (8 * s.bsSize.toNat - s.bitCursor.toNat) s.bs bs' s.bitCursor.toNat ∧
      exec (.encode sym) s =
        .next { s.faulted 8 (BitVec.ofNat 32 (8 * s.bsSize.toNat)) with bs := bs' }) ∧
    (∀ z, nb < s.base.toNat → AbsorbsCarry s.bs z s.bitCursor.toNat →
      ∃ bs1 bs', Carried s.bs bs1 z s.bitCursor.toNat ∧ bs'.wf = true ∧
        Emitted s.p nb (8 * s.bsSize.toNat - s.bitCursor.toNat) bs1 bs' s.bitCursor.toNat ∧
        exec (.encode sym) s =
          .next { s.faulted 8 (BitVec.ofNat 32 (8 * s.bsSize.toNat)) with bs := bs' })

/-- R152, R198, R206: `FLUSH` without room for its two bits raises `BS_BOUNDS` with the first index out of
bounds; no register is written (`phase` stays ENC, `result` is unchanged); a carry stays, and so does the
bit that did fit. -/
def Obligations.FlushWithoutRoomFaults : Prop :=
  ∀ (s : State) (cb : Nat), s.fault = false → s.phase = .enc → s.bs.wf = true → 3 ≤ s.p →
    cb = (s.base.toNat + 2 ^ (s.p - 2)) % 2 ^ s.p → s.bitCursor.toNat ≤ 8 * s.bsSize.toNat →
    8 * s.bsSize.toNat < s.bitCursor.toNat + 2 →
    (s.base.toNat ≤ cb → ∃ bs', bs'.wf = true ∧
      Emitted s.p cb (8 * s.bsSize.toNat - s.bitCursor.toNat) s.bs bs' s.bitCursor.toNat ∧
      exec .flush s = .next { s.faulted 8 (BitVec.ofNat 32 (8 * s.bsSize.toNat)) with bs := bs' }) ∧
    (∀ z, cb < s.base.toNat → AbsorbsCarry s.bs z s.bitCursor.toNat →
      ∃ bs1 bs', Carried s.bs bs1 z s.bitCursor.toNat ∧ bs'.wf = true ∧
        Emitted s.p cb (8 * s.bsSize.toNat - s.bitCursor.toNat) bs1 bs' s.bitCursor.toNat ∧
        exec .flush s = .next { s.faulted 8 (BitVec.ofNat 32 (8 * s.bsSize.toNat)) with bs := bs' })

/-! ### The decoder (45_decoder.md) -/

/-- R165 in static mode: `DEC_INIT` fills the code value from the first `p` bits, MSB first; with no valid
model `SEQUENCE`; with fewer than `p` bits in bounds `BS_BOUNDS` at the first index out of bounds. -/
def Obligations.DecInitFillsTheCodeValue : Prop :=
  ∀ s : State, s.fault = false → s.phase = .idle → s.adaptive = false →
    (s.modelValid = false → exec .decInit s = .next (s.faulted 2 0x0B000000)) ∧
    (s.modelValid = true → s.p ≤ 8 * s.bsSize.toNat → exec .decInit s = .next { s with
      value := BitVec.ofNat 32 (bitsFrom s.bs 0 s.p), length := BitVec.ofNat 32 (2 ^ s.p - 1),
      bitCursor := BitVec.ofNat 32 (s.p - 1), phase := .dec }) ∧
    (s.modelValid = true → 8 * s.bsSize.toNat < s.p →
      exec .decInit s = .next (s.faulted 8 (BitVec.ofNat 32 (8 * s.bsSize.toNat))))

/-- R166, R168: over a valid table `Search` returns the one symbol whose scaled range holds the code value,
with its bounds, and raises `CODE_RANGE(value)` when there is none. -/
def Obligations.SearchFindsTheOneSymbol : Prop :=
  ∀ s : State, TableValid s.p s.cumulative →
    (s.value.toNat < scaledBound s 256 → ∃ sym, sym < 256 ∧
      search s = .ok ⟨sym, scaledBound s sym, scaledBound s (sym + 1)⟩ ∧
      scaledBound s sym ≤ s.value.toNat ∧ s.value.toNat < scaledBound s (sym + 1) ∧
      ∀ other, other < 256 → scaledBound s other ≤ s.value.toNat →
        s.value.toNat < scaledBound s (other + 1) → other = sym) ∧
    (scaledBound s 256 ≤ s.value.toNat → search s = .error ⟨.codeRange, s.value.toNat⟩)

/-- R167: `DECODE` returns the symbol whose scaled range holds the code value, narrows, shifts in the next
bits and commits, together with the model after the symbol `m` (R167 step 5). -/
def Obligations.DecodeReturnsTheSymbol : Prop :=
  ∀ (s m : State) (sym t x y : Nat), s.fault = false → s.phase = .dec → TableValid s.p s.cumulative →
    1 ≤ s.p → s.length.toNat < 2 ^ s.p → sym < 256 →
    x = s.length.toNat * (s.cumulative.get sym).toNat / 2 ^ s.p →
    y = s.length.toNat * (s.cumulative.get (sym + 1)).toNat / 2 ^ s.p →
    x ≤ s.value.toNat → s.value.toNat < y → RenormSteps s.p (y - x) t →
    (t = 0 ∨ s.bitCursor.toNat + t < 8 * s.bsSize.toNat) →
    (s.adaptive = false ∧ m = s ∨ s.adaptive = true ∧ adaptUpdate sym s = .ok m) →
    exec .decode s = .next { m with
      value := BitVec.ofNat 32
        (((s.value.toNat - x) * 2 ^ t + bitsFrom s.bs (s.bitCursor.toNat + 1) t) % 2 ^ s.p)
      length := BitVec.ofNat 32 ((y - x) * 2 ^ t)
      bitCursor := s.bitCursor + BitVec.ofNat 32 t
      result := BitVec.ofNat 32 sym }

/-- R166, R167, R200: a code value that no symbol's range holds raises `CODE_RANGE(value)`, and nothing is
written; a decode that needs a bit beyond BS raises `BS_BOUNDS` there, and nothing is written. -/
def Obligations.DecodeFaultsCleanly : Prop :=
  ∀ s : State, s.fault = false → s.phase = .dec →
    (s.length.toNat * (s.cumulative.get 256).toNat / 2 ^ s.p ≤ s.value.toNat →
      exec .decode s = .next (s.faulted 10 s.value)) ∧
    (∀ sym t x y : Nat, TableValid s.p s.cumulative → 1 ≤ s.p → s.length.toNat < 2 ^ s.p → sym < 256 →
      x = s.length.toNat * (s.cumulative.get sym).toNat / 2 ^ s.p →
      y = s.length.toNat * (s.cumulative.get (sym + 1)).toNat / 2 ^ s.p →
      x ≤ s.value.toNat → s.value.toNat < y → RenormSteps s.p (y - x) t → 1 ≤ t →
      s.bitCursor.toNat < 8 * s.bsSize.toNat → 8 * s.bsSize.toNat ≤ s.bitCursor.toNat + t →
      exec .decode s = .next (s.faulted 8 (BitVec.ofNat 32 (8 * s.bsSize.toNat))))

/-! ### The adaptive rescaler (46_adaptive.md) -/

/-- R151, R167, R181: in adaptive mode a symbol whose count, or whose `total`, is already `2^32 - 1` raises
`COUNT_OVERFLOW(s)`; `ENCODE` and `DECODE` write no register, and the carry and the emitted bits of the
`ENCODE` stay in BS (R14). -/
def Obligations.CountOverflowOfACodedSymbolFaults : Prop :=
  (∀ (sym : Byte) (s : State) (t inc y nb : Nat), s.fault = false → s.phase = .enc → s.bs.wf = true →
    inc = s.length.toNat * (s.cumulative.get sym.toNat).toNat / 2 ^ s.p →
    y = s.length.toNat * (s.cumulative.get (sym.toNat + 1)).toNat / 2 ^ s.p →
    inc < y → y - inc < 2 ^ s.p → 1 ≤ s.p → nb = (s.base.toNat + inc) % 2 ^ s.p →
    RenormSteps s.p (y - inc) t → s.bitCursor.toNat + t ≤ 8 * s.bsSize.toNat → s.adaptive = true →
    (s.counts.get sym.toNat).toNat = 2 ^ 32 - 1 ∨ s.total.toNat = 2 ^ 32 - 1 →
    (s.base.toNat ≤ nb → ∃ bs', bs'.wf = true ∧ Emitted s.p nb t s.bs bs' s.bitCursor.toNat ∧
      exec (.encode sym) s = .next { s.faulted 7 (sym.setWidth 32) with bs := bs' }) ∧
    (∀ z, nb < s.base.toNat → AbsorbsCarry s.bs z s.bitCursor.toNat →
      ∃ bs1 bs', Carried s.bs bs1 z s.bitCursor.toNat ∧ bs'.wf = true ∧
        Emitted s.p nb t bs1 bs' s.bitCursor.toNat ∧
        exec (.encode sym) s = .next { s.faulted 7 (sym.setWidth 32) with bs := bs' })) ∧
  ∀ (s : State) (sym t x y : Nat), s.fault = false → s.phase = .dec → TableValid s.p s.cumulative →
    1 ≤ s.p → s.length.toNat < 2 ^ s.p → sym < 256 →
    x = s.length.toNat * (s.cumulative.get sym).toNat / 2 ^ s.p →
    y = s.length.toNat * (s.cumulative.get (sym + 1)).toNat / 2 ^ s.p →
    x ≤ s.value.toNat → s.value.toNat < y → RenormSteps s.p (y - x) t →
    (t = 0 ∨ s.bitCursor.toNat + t < 8 * s.bsSize.toNat) → s.adaptive = true →
    (s.counts.get sym).toNat = 2 ^ 32 - 1 ∨ s.total.toNat = 2 ^ 32 - 1 →
    exec .decode s = .next (s.faulted 7 (BitVec.ofNat 32 sym))

/-- R181: `AdaptUpdate(s)`, all of it: the overflow checks, the increments by 1, the end of a period with
the table rebuilt from the incremented counts, and the clearing of counts and `total` after it. -/
def Obligations.AdaptUpdateFollowsItsRule : Prop :=
  ∀ (sym : Byte) (s : State),
    ((s.counts.get sym.toNat).toNat = 2 ^ 32 - 1 ∨ s.total.toNat = 2 ^ 32 - 1 →
      adaptUpdate sym.toNat s = .error ⟨.countOverflow, sym.toNat⟩) ∧
    ((s.counts.get sym.toNat).toNat ≠ 2 ^ 32 - 1 → s.total.toNat ≠ 2 ^ 32 - 1 →
      ∃ counts' : Table 256, (∀ j, j < 256 → j ≠ sym.toNat → counts'.get j = s.counts.get j) ∧
        counts'.get sym.toNat = s.counts.get sym.toNat + 1 ∧
        (s.runCount.toNat + 1 ≠ s.updateRange.toNat → adaptUpdate sym.toNat s = .ok { s with
          counts := counts', total := s.total + 1, runCount := s.runCount + 1 }) ∧
        (s.runCount.toNat + 1 = s.updateRange.toNat →
          widthsBelow s.p (s.total.toNat + 1) counts' 256 ≤ 2 ^ s.p →
          ∃ table : Table 257,
            (∀ i, i ≤ 256 → (table.get i).toNat = widthsBelow s.p (s.total.toNat + 1) counts' i) ∧
            (s.rangeClear = false → adaptUpdate sym.toNat s = .ok { s with
              counts := counts', total := s.total + 1, runCount := 0, cumulative := table,
              modelValid := true }) ∧
            (s.rangeClear = true → ∃ ones : Table 256, (∀ j, j < 256 → ones.get j = 1) ∧
              adaptUpdate sym.toNat s = .ok { s with
                counts := ones, total := 0, runCount := 0, cumulative := table, modelValid := true })) ∧
        (s.runCount.toNat + 1 = s.updateRange.toNat →
          2 ^ s.p < widthsBelow s.p (s.total.toNat + 1) counts' 256 →
          adaptUpdate sym.toNat s = .error
            ⟨.modelSum, min (widthsBelow s.p (s.total.toNat + 1) counts' 256) (2 ^ 32 - 1)⟩))

/-- R183: while `total + 256` is the sum of the counts, the adaptive update cannot raise `MODEL_SUM`, and it
keeps that equality; R184: it keeps `run_count` below `update_range`. -/
def Obligations.AdaptUpdateKeepsTheTotal : Prop :=
  ∀ (sym : Byte) (s : State), s.total.toNat + 256 = s.counts.sum →
    s.runCount.toNat < s.updateRange.toNat →
    (∀ info, adaptUpdate sym.toNat s ≠ .error ⟨.modelSum, info⟩) ∧
    ∀ m, adaptUpdate sym.toNat s = .ok m → m.total.toNat + 256 = m.counts.sum ∧
      m.runCount.toNat = (s.runCount.toNat + 1) % s.updateRange.toNat ∧
      m.updateRange = s.updateRange

/-- R169, R182: a `DECODE` mirrors the `ENCODE` of the same symbol. With the same model, schedule, precision
and length on both sides and the code value in the symbol's scaled range, it returns that symbol, both
sides renormalise the same number of steps, and both end with the same length and the same model. -/
def Obligations.DecoderMirrorsTheEncoder : Prop :=
  ∀ (sym : Byte) (e d e' d' : State), SameModel e d → TableValid e.p e.cumulative → 1 ≤ e.p →
    e.length.toNat < 2 ^ e.p → e.fault = false → d.fault = false → e.phase = .enc → d.phase = .dec →
    lowBound sym.toNat e ≤ d.value.toNat → d.value.toNat < highBound sym.toNat e →
    exec (.encode sym) e = .next e' → exec .decode d = .next d' → e'.fault = false → d'.fault = false →
    d'.result = sym.setWidth 32 ∧ SameModel e' d' ∧
      e'.bitCursor - e.bitCursor = d'.bitCursor - d.bitCursor

/-- R147: the carry is always absorbed in an undisturbed session. `ENC_INIT` establishes the invariant of
the emitted bits, every `ENCODE` that does not fault keeps it, and while it holds neither `ENCODE` nor
`FLUSH` can raise `CARRY_UNDERRUN`. -/
def Obligations.CarryIsAlwaysAbsorbed : Prop :=
  (∀ s t : State, Inv s → s.fault = false → exec .encInit s = .next t → t.fault = false → StreamInv t) ∧
  (∀ (sym : Byte) (s t : State), Inv s → StreamInv s → s.fault = false → s.phase = .enc →
    exec (.encode sym) s = .next t → t.faultCause ≠ 9 ∧ (t.fault = false → StreamInv t)) ∧
  (∀ s t : State, Inv s → StreamInv s → s.fault = false → s.phase = .enc →
    exec .flush s = .next t → t.faultCause ≠ 9)

/-! ### The ports and the reset (10_state.md R40 to R47, 70_reset_and_hazards.md R230) -/

/-- R41: a step that takes a register write other than to `CMD`: `ARG` always, the RW-idle registers when no
session is active, everything else raises `ACCESS(offset)`. -/
def Obligations.RegisterWritesFollowTheMap : Prop :=
  ∀ (s : State) (a : BitVec 10) (v : Word) (rest : List Transaction),
    s.host = .write a v :: rest →
    (a = 1 → step s = .next { s with host := rest, arg := v }) ∧
    (a.toNat ∈ [7, 8, 9, 10, 11] → (s.phase = .enc ∨ s.phase = .dec) → s.fault = false →
      step s = .next { s.faulted 11 (BitVec.ofNat 32 (4 * a.toNat)) with host := rest }) ∧
    (¬ ((s.phase = .enc ∨ s.phase = .dec) ∧ s.fault = false) →
      (a = 7 → step s = .next { s with
        host := rest, adaptive := v.getLsbD 0, rangeClear := v.getLsbD 1 }) ∧
      (a = 8 → step s = .next { s with host := rest, weight := v }) ∧
      (a = 9 → step s = .next { s with host := rest, updateRange := v }) ∧
      (a = 10 → step s = .next { s with host := rest, bsSize := v.setWidth 29 }) ∧
      (a = 11 → step s = .next { s with host := rest, total := v })) ∧
    (a ≠ 0 → a ≠ 1 → a.toNat ∉ [7, 8, 9, 10, 11] →
      (s.fault = false →
        step s = .next { s.faulted 11 (BitVec.ofNat 32 (4 * a.toNat)) with host := rest }) ∧
      (s.fault = true → step s = .next { s with host := rest }))

/-- R40, R42: a register read has no effect on the AEC and answers the content of the map (the model's
field `hostData`, log 2); `CMD` and unmapped offsets answer 0. -/
def Obligations.RegisterReadsAnswerTheMap : Prop :=
  ∀ (s : State) (a : BitVec 10) (rest : List Transaction), s.host = .read a :: rest →
    ∃ d : Word, step s = .next { s with host := rest, hostData := d } ∧
      (a.toNat = 0 → d = 0) ∧ (a.toNat = 1 → d = s.arg) ∧ (a.toNat = 2 → d = s.result) ∧
      (a.toNat = 3 → d.extractLsb' 0 2 = s.phase.code ∧ d.getLsbD 2 = s.fault ∧
        d.getLsbD 3 = s.modelValid ∧ d.extractLsb' 4 28 = 0) ∧
      (a.toNat = 4 → d = s.faultCause.setWidth 32) ∧ (a.toNat = 5 → d = s.faultInfo) ∧
      (a.toNat = 6 → d = s.precision.setWidth 32) ∧
      (a.toNat = 7 → d.getLsbD 0 = s.adaptive ∧ d.getLsbD 1 = s.rangeClear ∧ d.extractLsb' 2 30 = 0) ∧
      (a.toNat = 8 → d = s.weight) ∧ (a.toNat = 9 → d = s.updateRange) ∧
      (a.toNat = 10 → d = s.bsSize.setWidth 32) ∧ (a.toNat = 11 → d = s.total) ∧
      (a.toNat = 12 → d = s.runCount) ∧ (a.toNat = 13 → d = s.base) ∧ (a.toNat = 14 → d = s.length) ∧
      (a.toNat = 15 → d = s.value) ∧ (a.toNat = 16 → d = s.bitCursor) ∧
      (∀ i, i < 256 → a.toNat = 256 + i → d = s.counts.get i) ∧
      (∀ i, i ≤ 256 → a.toNat = 512 + i → d = s.cumulative.get i) ∧
      (17 ≤ a.toNat → a.toNat < 256 → d = 0) ∧ (769 ≤ a.toNat → d = 0)

/-- R230, R47: `rst` gives every register its reset value and does not touch BS; of the tables it says nothing
(log 3: a new draw, counted by `draws`). That it leaves the pending transactions and `hostData` as they are
is the model's choice (log 7). -/
def Obligations.ResetGivesTheResetValues : Prop :=
  ∀ (s : State) (rest : List Transaction), s.host = .rst :: rest →
    ∃ (counts : Table 256) (cumulative : Table 257), step s = .next {
      precision := 16, base := 0, length := 0, value := 0, bitCursor := 0, counts := counts,
      cumulative := cumulative, total := 0, weight := 16, updateRange := 0, adaptive := false,
      rangeClear := false, runCount := 0, bsSize := 0, phase := .reset, modelValid := false,
      fault := false, faultCause := 0, faultInfo := 0, arg := 0, result := 0, bs := s.bs, host := rest,
      hostData := s.hostData, draws := s.draws + 1 }

/-- R61, R70, U11: the host's own accesses to BS, the model's choice of the refused region being log 6. A
write stores the byte, every other byte reads as before and the list stays canonical; a read answers the
byte (the model's field `hostData`, log 2); an access to a byte of the session's buffer during an active
session has no move. -/
def Obligations.HostOwnsBsOutsideSessions : Prop :=
  ∀ (s : State) (a : BitVec 29) (v : Byte) (rest : List Transaction),
    (¬ ((s.phase = .enc ∨ s.phase = .dec) ∧ s.fault = false ∧ a.toNat < s.bsSize.toNat) →
      (s.host = .bsWrite a v :: rest → ∃ bs' : Memory,
        step s = .next { s with host := rest, bs := bs' } ∧ bs'.read a.toNat = v ∧
        (∀ b, b ≠ a.toNat → bs'.read b = s.bs.read b) ∧ (s.bs.wf = true → bs'.wf = true)) ∧
      (s.host = .bsRead a :: rest →
        step s = .next { s with host := rest, hostData := (s.bs.read a.toNat).setWidth 32 })) ∧
    ((s.phase = .enc ∨ s.phase = .dec) → s.fault = false → a.toNat < s.bsSize.toNat →
      s.host = .bsWrite a v :: rest ∨ s.host = .bsRead a :: rest →
      step s = .refused .bsOwnedBySession)

/-! ### The whole machine -/

/-- 10_state.md R50, R37 and the canonical form of BS: the invariants hold after the reset. -/
def Obligations.ResetMeetsTheInvariants : Prop := Inv State.reset

/-- 10_state.md R50 (V1 to V9), R37 and the canonical form of BS: every step from any state that meets the
invariants leaves a state that meets them. -/
def Obligations.StepKeepsTheInvariants : Prop :=
  ∀ s t : State, Inv s → step s = .next t → Inv t

/-- 20_memory.md R61, the canonical form alone: every step keeps it, whatever the registers hold. -/
def Obligations.StepKeepsBsCanonical : Prop :=
  ∀ s t : State, s.bs.wf = true → step s = .next t → t.bs.wf = true

/-- R245, 10_state.md R47: every command answers a next state in every state: none stops the machine. -/
def Obligations.EveryCommandCompletes : Prop :=
  ∀ (i : Instr) (s : State), ∃ t, exec i s = .next t

/-- R14, R206: a command that faults leaves every register but the fault record as it was, and only `ENCODE`
and `FLUSH` can have written to BS before the fault. -/
def Obligations.FaultsArePreciseForRegisters : Prop :=
  ∀ (i : Instr) (s t : State), s.fault = false → exec i s = .next t → t.fault = true →
    t = { s with bs := t.bs, fault := true, faultCause := t.faultCause, faultInfo := t.faultInfo } ∧
      1 ≤ t.faultCause.toNat ∧ t.faultCause.toNat ≤ 10 ∧
      ((∀ sym, i ≠ .encode sym) → i ≠ .flush → t.bs = s.bs)

/-- R68: BS is written by `SETBIT`, `ENCODE` and `FLUSH` alone; R61, R198: none of them changes a byte at an
address `>= bs_size`. -/
def Obligations.CommandsWriteBsInBoundsOnly : Prop :=
  ∀ (i : Instr) (s t : State), exec i s = .next t →
    (∀ a, s.bsSize.toNat ≤ a → t.bs.read a = s.bs.read a) ∧
    ((∀ v, i ≠ .setbit v) → (∀ sym, i ≠ .encode sym) → i ≠ .flush → t.bs = s.bs)

/-- The register frame of every command (R21 to R38): a register that is not in the command's list `mayWrite`
holds what it held, in static mode no list has a register of the adaptive micro-operations, and the fault
record changes only by a `CONSTRUCT` or by a fault recorded on a machine that had none. That no command
writes the model's own fields `host`, `hostData`, `draws` is the model's rule (logs 1 to 3). -/
def Obligations.CommandsWriteOnlyTheirRegisters : Prop :=
  ∀ (i : Instr) (s t : State), exec i s = .next t →
    (∀ r : Register, r ∉ mayWrite s.adaptive i → r.same s t) ∧
    ((∀ q, i ≠ .construct q) → s.fault = true ∨ t.fault = false →
      t.fault = s.fault ∧ t.faultCause = s.faultCause ∧ t.faultInfo = s.faultInfo) ∧
    t.host = s.host ∧ t.hostData = s.hostData ∧ t.draws = s.draws

/-- R47, R247: no command reads an unspecified value. In phase RESET what a command answers does not depend
on the tables, and while no model is valid nothing but the content of `cumulative` depends on its old
content. -/
def Obligations.UnspecifiedTablesAreNeverRead : Prop :=
  ∀ (i : Instr) (s t : State) (c : Table 256) (d : Table 257), exec i s = .next t →
    (s.phase = .reset →
      exec i { s with counts := c, cumulative := d } = .next { t with counts := c, cumulative := d } ∨
      exec i { s with counts := c, cumulative := d } = .next { t with cumulative := d }) ∧
    (s.phase = .idle → s.modelValid = false →
      exec i { s with cumulative := d } = .next { t with cumulative := d } ∨
      exec i { s with cumulative := d } = .next t)

/-- R35: the transitions of `phase` by a command, complete; a fault does not change it. -/
def Obligations.PhaseChangesOnlyAsListed : Prop :=
  ∀ (i : Instr) (s t : State), exec i s = .next t → t.phase ≠ s.phase →
    t.fault = false ∧
    ((∃ q, i = .construct q ∧ t.phase = .idle) ∨
     (i = .encInit ∧ s.phase = .idle ∧ t.phase = .enc) ∨
     (i = .decInit ∧ s.phase = .idle ∧ t.phase = .dec) ∨
     (i = .flush ∧ s.phase = .enc ∧ t.phase = .idle) ∨
     (i = .endSession ∧ (s.phase = .enc ∨ s.phase = .dec) ∧ t.phase = .idle))

/-- R192, the table of which command can raise what: from any state that meets the invariants each command
raises only its listed faults (`END` in RESET only); an illegal word raises `ILLEGAL_CMD`; a register write
other than to `CMD` raises nothing but `ACCESS`, and a register read raises nothing. -/
def Obligations.EachCommandRaisesItsListedFaults : Prop :=
  ∀ s : State, Inv s → s.fault = false →
    (∀ (i : Instr) (t : State), exec i s = .next t → t.fault = true →
      t.faultCause.toNat ∈ causesOf i ∧ (i = .endSession → s.phase = .reset)) ∧
    (∀ (w : Word) (t : State), (∀ i, decode w ≠ .ok i) → commandWrite w s = .next t → t.faultCause = 1) ∧
    (∀ (a : BitVec 10) (v : Word) (rest : List Transaction) (t : State), a ≠ 0 →
      s.host = .write a v :: rest → step s = .next t → t.fault = true → t.faultCause = 11) ∧
    (∀ (a : BitVec 10) (rest : List Transaction) (t : State),
      s.host = .read a :: rest → step s = .next t → t.fault = false)

/-- R207: the only exits from the faulted condition are a successful `CONSTRUCT` and `rst`; until then a
step changes no register but `arg` and the RW-idle ones, no table, no record, and BS only by the host's own
write. -/
def Obligations.FaultIsSticky : Prop :=
  ∀ (s t : State) (x : Transaction) (rest : List Transaction), s.fault = true → s.host = x :: rest →
    step s = .next t → x ≠ .rst →
    (∀ w q, x = .write 0 w → decode w = .ok (.construct q) → ¬ (3 ≤ q.toNat ∧ q.toNat ≤ 31)) →
    t = { s with
      arg := t.arg, weight := t.weight, updateRange := t.updateRange, adaptive := t.adaptive,
      rangeClear := t.rangeClear, bsSize := t.bsSize, total := t.total, bs := t.bs,
      host := rest, hostData := t.hostData } ∧
    ((∀ a v, x ≠ .bsWrite a v) → t.bs = s.bs)

/-- The model's own rule (logs 1 and 6): a step never stops the machine with a fault; it is refused only for
a host access to the session's BS; with nothing pending it changes nothing. -/
def Obligations.StepStopsOnlyForHostBsAccess : Prop :=
  ∀ s : State, (∀ f, step s ≠ .fault f) ∧
    (∀ r, step s = .refused r → r = .bsOwnedBySession ∧ s.activeSession = true ∧
      ∃ a rest, (∃ v, s.host = .bsWrite a v :: rest) ∨ s.host = .bsRead a :: rest) ∧
    (s.host = [] → step s = .next s)
end

