-- ==== Sys2Proof/Laws/Memory.lean ====
section
/-! SUPPORT. The laws of BS as a memory (20_memory.md R61): read after write, that a write keeps the
canonical form, and that canonical memories with the same bytes written are the same list. -/

namespace Sys2Proof.Machine

@[simp] theorem Memory.lookup_nil (a : Nat) : Memory.lookup [] a = none := rfl

theorem Memory.lookup_cons (b a : Nat) (v : Byte) (m : Memory) :
    Memory.lookup ((b, v) :: m) a = if a = b then some v else Memory.lookup m a := rfl

/-- A byte that nobody has written reads as the initial content (R61). -/
@[simp] theorem Memory.read_nil (a : Nat) : Memory.read [] a = Config.initialByte a := rfl

theorem Memory.read_cons (b a : Nat) (v : Byte) (m : Memory) :
    Memory.read ((b, v) :: m) a = if a = b then v else Memory.read m a := by
  unfold Memory.read
  rw [Memory.lookup_cons]
  split <;> rfl

theorem Memory.wfFrom_cons (lo a : Nat) (v : Byte) (m : Memory) :
    Memory.wfFrom lo ((a, v) :: m) = true ↔
      lo ≤ a ∧ a < 2 ^ Config.bsAw ∧ Memory.wfFrom (a + 1) m = true := by
  simp [Memory.wfFrom, and_assoc]

/-- Below its first address a canonical memory lists nothing. -/
theorem Memory.lookup_below {lo a : Nat} {m : Memory} (h : Memory.wfFrom lo m = true) (ha : a < lo) :
    m.lookup a = none := by
  induction m generalizing lo with
  | nil => rfl
  | cons c m ih =>
    obtain ⟨b, v⟩ := c
    rw [Memory.wfFrom_cons] at h
    rw [Memory.lookup_cons, if_neg (by omega)]
    exact ih h.2.2 (by omega)

/-- What a write leaves to be looked up, at every address. -/
theorem Memory.lookup_write (m : Memory) (a b : Nat) (v : Byte) :
    (m.write a v).lookup b = if b = a then some v else m.lookup b := by
  induction m with
  | nil => rfl
  | cons c m ih =>
    obtain ⟨d, w⟩ := c
    unfold Memory.write
    split
    · rfl
    · split
      · simp only [Memory.lookup_cons, ‹a = d›]
        split <;> rfl
      · simp only [Memory.lookup_cons, ih]
        split
        · rw [if_neg (by omega)]
        · rfl

/-- "a read returns the value of the latest write to that address" (R61). -/
theorem Memory.read_write_same (m : Memory) (a : Nat) (v : Byte) : (m.write a v).read a = v := by
  simp [Memory.read, Memory.lookup_write]

/-- A write leaves every other address alone. -/
theorem Memory.read_write_other (m : Memory) {a b : Nat} (v : Byte) (h : b ≠ a) :
    (m.write a v).read b = m.read b := by
  simp [Memory.read, Memory.lookup_write, h]

theorem Memory.wfFrom_write {lo a : Nat} {m : Memory} (v : Byte) (h : Memory.wfFrom lo m = true)
    (hl : lo ≤ a) (ha : a < 2 ^ Config.bsAw) : Memory.wfFrom lo (m.write a v) = true := by
  induction m generalizing lo with
  | nil => simp [Memory.write, Memory.wfFrom, *]
  | cons c m ih =>
    obtain ⟨b, w⟩ := c
    rw [Memory.wfFrom_cons] at h
    unfold Memory.write
    split
    · rw [Memory.wfFrom_cons, Memory.wfFrom_cons]
      exact ⟨hl, ha, by omega, h.2⟩
    · split
      · rw [Memory.wfFrom_cons, ‹a = b›]
        exact h
      · rw [Memory.wfFrom_cons]
        exact ⟨h.1, h.2.1, ih h.2.2 (by omega)⟩

/-- A write at a 29-bit address keeps the canonical form. -/
theorem Memory.wf_write {a : Nat} {m : Memory} (v : Byte) (h : m.wf = true) (ha : a < 2 ^ Config.bsAw) :
    (m.write a v).wf = true := Memory.wfFrom_write v h (Nat.zero_le a) ha

/-- Equal memories are equal data: two canonical memories that list the same bytes are the same list. -/
theorem Memory.ext_lookup_from {lo : Nat} {m m' : Memory} (h : Memory.wfFrom lo m = true)
    (h' : Memory.wfFrom lo m' = true) (he : ∀ a, m.lookup a = m'.lookup a) : m = m' := by
  induction m generalizing lo m' with
  | nil =>
    cases m' with
    | nil => rfl
    | cons c m' => have := he c.1; simp [Memory.lookup] at this
  | cons c m ih =>
    obtain ⟨b, w⟩ := c
    rw [Memory.wfFrom_cons] at h
    cases m' with
    | nil => have := he b; simp [Memory.lookup_cons] at this
    | cons d m' =>
      obtain ⟨b', w'⟩ := d
      rw [Memory.wfFrom_cons] at h'
      have hb : b = b' := by
        rcases Nat.lt_trichotomy b b' with hlt | heq | hgt
        · have := he b
          rw [Memory.lookup_cons, if_pos rfl, Memory.lookup_cons, if_neg (by omega),
            Memory.lookup_below h'.2.2 (by omega)] at this
          cases this
        · exact heq
        · have := he b'
          rw [Memory.lookup_cons, if_neg (by omega), Memory.lookup_below h.2.2 (by omega),
            Memory.lookup_cons, if_pos rfl] at this
          cases this
      subst hb
      have hw : w = w' := by simpa [Memory.lookup_cons] using he b
      subst hw
      have : m = m' := by
        refine ih h.2.2 h'.2.2 fun a => ?_
        by_cases hab : a = b
        · rw [hab, Memory.lookup_below h.2.2 (by omega), Memory.lookup_below h'.2.2 (by omega)]
        · simpa [Memory.lookup_cons, hab] using he a
      rw [this]

theorem Memory.ext_lookup {m m' : Memory} (h : m.wf = true) (h' : m'.wf = true)
    (he : ∀ a, m.lookup a = m'.lookup a) : m = m' := Memory.ext_lookup_from h h' he

end Sys2Proof.Machine
end

