-- ==== Sys2Proof/Laws/BitBuffer.lean ====
section
/-! SUPPORT. The laws of the bit buffer (42_bitbuffer.md R125, R126, R129): what a bit reads as after a
bit is written, and everything `getBit` and `setBit` can answer. -/

namespace Sys2Proof.Machine

theorem bitMask_lt (k : Nat) : bitMask k < 2 ^ 8 := by
  unfold bitMask
  exact Nat.pow_lt_pow_right (by omega) (by omega)

/-- A bit as a truth value: position `7 - (k mod 8)` of byte `k / 8` (20_memory.md R62). -/
theorem bitAt_eq_getLsbD (bs : Memory) (k : Nat) :
    bitAt bs k = ((bs.read (k / 8)).getLsbD (7 - k % 8)).toNat := by
  rw [BitVec.getLsbD, Nat.testBit_eq_decide_div_mod_eq]
  unfold bitAt byteAddress bitMask
  have := Nat.mod_two_eq_zero_or_one ((bs.read (k / 8)).toNat / 2 ^ (7 - k % 8))
  rcases this with h | h <;> simp [h]

theorem bitAt_le_one (bs : Memory) (k : Nat) : bitAt bs k ≤ 1 := by
  unfold bitAt
  omega

/-- The arithmetic of R126: clearing bit `j` of `n` and setting it to `v`. -/
theorem testBit_clear_set (n j v i : Nat) (hv : v ≤ 1) :
    ((n - (n &&& 2 ^ j)) + v * 2 ^ j).testBit i = if i = j then decide (v = 1) else n.testBit i := by
  obtain ⟨a, b, r, hr, hb, hn⟩ : ∃ a b r, r < 2 ^ j ∧ b ≤ 1 ∧ n = 2 ^ j * (2 * a + b) + r := by
    refine ⟨n / 2 ^ j / 2, n / 2 ^ j % 2, n % 2 ^ j, Nat.mod_lt _ (by positivity), by omega, ?_⟩
    rw [Nat.div_add_mod, Nat.div_add_mod]
  have hbit : n.testBit j = decide (b = 1) := by
    rw [hn, Nat.testBit_two_pow_mul_add _ hr, if_neg (by omega), Nat.sub_self, Nat.testBit_zero]
    congr 1
    simp only [eq_iff_iff]
    omega
  have hand : n &&& 2 ^ j = b * 2 ^ j := by
    rw [Nat.and_two_pow, hbit]
    rcases (by omega : b = 0 ∨ b = 1) with h | h <;> simp [h]
  have hx : (n - (n &&& 2 ^ j)) + v * 2 ^ j = 2 ^ j * (2 * a + v) + r := by
    rw [hand, hn]
    have h1 : 2 ^ j * (2 * a + b) = 2 ^ j * (2 * a) + b * 2 ^ j := by ring
    have h2 : 2 ^ j * (2 * a + v) = 2 ^ j * (2 * a) + v * 2 ^ j := by ring
    omega
  rw [hx, Nat.testBit_two_pow_mul_add _ hr]
  by_cases hlt : i < j
  · rw [if_pos hlt, if_neg (by omega), hn, Nat.testBit_two_pow_mul_add _ hr, if_pos hlt]
  · rw [if_neg hlt]
    by_cases he : i = j
    · rw [if_pos he, he, Nat.sub_self, Nat.testBit_zero]
      congr 1
      simp only [eq_iff_iff]
      omega
    · rw [if_neg he, hn, Nat.testBit_two_pow_mul_add _ hr, if_neg hlt]
      obtain ⟨d, hd⟩ : ∃ d, i - j = d + 1 := ⟨i - j - 1, by omega⟩
      rw [hd, Nat.testBit_succ, Nat.testBit_succ]
      congr 1
      omega

theorem byteWithBit_getLsbD (byte : Byte) (k v i : Nat) (hv : v ≤ 1) (hi : i < 8) :
    (byteWithBit byte k v).getLsbD i =
      if i = 7 - k % 8 then decide (v = 1) else byte.getLsbD i := by
  unfold byteWithBit bitMask
  rw [BitVec.getLsbD_ofNat, testBit_clear_set _ _ _ _ hv]
  simp [hi, BitVec.getLsbD]

/-- BS after a bit is written at index `k`. -/
def bsWithBit (bs : Memory) (k v : Nat) : Memory :=
  bs.write (byteAddress k) (byteWithBit (bs.read (byteAddress k)) k v)

/-- "after `SetBit(k, v)`, `GetBit(k) = v`" (R129). -/
theorem bitAt_bsWithBit_same {bs : Memory} {k v : Nat} (hv : v ≤ 1) :
    bitAt (bsWithBit bs k v) k = v := by
  rw [bitAt_eq_getLsbD]
  unfold bsWithBit byteAddress
  rw [Memory.read_write_same, byteWithBit_getLsbD _ _ _ _ hv (by omega), if_pos rfl]
  rcases (by omega : v = 0 ∨ v = 1) with h | h <;> simp [h]

/-- "for `j != k`, `GetBit(j)` is unchanged by `SetBit(k, v)`" (R129). -/
theorem bitAt_bsWithBit_other {bs : Memory} {k v j : Nat} (hv : v ≤ 1) (hj : j ≠ k) :
    bitAt (bsWithBit bs k v) j = bitAt bs j := by
  rw [bitAt_eq_getLsbD, bitAt_eq_getLsbD]
  unfold bsWithBit byteAddress
  by_cases hb : j / 8 = k / 8
  · rw [hb, Memory.read_write_same, byteWithBit_getLsbD _ _ _ _ hv (by omega), if_neg (by omega)]
  · rw [Memory.read_write_other _ _ hb]

/-- Only the byte of the index changes (R126). -/
theorem read_bsWithBit_other (bs : Memory) {k v a : Nat} (ha : a ≠ k / 8) :
    (bsWithBit bs k v).read a = bs.read a := Memory.read_write_other _ _ ha

theorem wf_bsWithBit {bs : Memory} {k v : Nat} (h : bs.wf = true) (hk : k < 2 ^ 32) :
    (bsWithBit bs k v).wf = true := by
  refine Memory.wf_write _ h ?_
  show k / 8 < 2 ^ 29
  omega

/-- Everything `SetBit` can answer. -/
theorem setBit_in_bounds {cap k : Nat} (v : Nat) (bs : Memory) (h : k < cap) :
    setBit cap k v bs = .done () (bsWithBit bs k v) := by
  unfold setBit bsWithBit
  rw [if_neg (by omega)]

theorem setBit_out_of_bounds {cap k : Nat} (v : Nat) (bs : Memory) (h : cap ≤ k) :
    setBit cap k v bs = .raised ⟨.bsBounds, k % 2 ^ 32⟩ bs := by
  unfold setBit
  rw [if_pos h]

/-- Everything `GetBit` can answer. -/
theorem getBit_in_bounds {cap k : Nat} (bs : Memory) (h : k < cap) :
    getBit cap k bs = .done (bitAt bs k) bs := by
  unfold getBit
  rw [if_neg (by omega)]

theorem getBit_out_of_bounds {cap k : Nat} (bs : Memory) (h : cap ≤ k) :
    getBit cap k bs = .raised ⟨.bsBounds, k % 2 ^ 32⟩ bs := by
  unfold getBit
  rw [if_pos h]

end Sys2Proof.Machine
end

