-- ==== Sys2Proof/Laws/Ops.lean ====
section
/-! SUPPORT. The laws of the shared operations of Machine/Ops.lean. -/

namespace Sys2Proof.Machine

@[simp] theorem Run.bind_done {α β : Type} (x : α) (bs : Memory) (f : α → Memory → Run β) :
    (Run.done x bs).bind f = f x bs := rfl

@[simp] theorem Run.bind_raised {α β : Type} (r : Raise) (bs : Memory) (f : α → Memory → Run β) :
    (Run.raised (α := α) r bs).bind f = .raised r bs := rfl

@[simp] theorem Run.lift_ok {α : Type} (x : α) (bs : Memory) :
    Run.lift (.ok x) bs = .done x bs := rfl

@[simp] theorem Run.lift_error {α : Type} (r : Raise) (bs : Memory) :
    Run.lift (α := α) (.error r) bs = .raised r bs := rfl

@[simp] theorem conclude_done (s t : State) (bs : Memory) :
    conclude s (.done t bs) = .next { t with bs := bs } := rfl

@[simp] theorem conclude_raised (s : State) (r : Raise) (bs : Memory) :
    conclude s (.raised r bs) = .next (State.raise { s with bs := bs } r) := rfl

@[simp] theorem concludePure_ok (s t : State) : concludePure s (.ok t) = .next t := rfl

@[simp] theorem concludePure_error (s : State) (r : Raise) :
    concludePure s (.error r) = .next (s.raise r) := rfl

/-- The first fault writes the record (60_exceptions.md R191). -/
theorem raise_first {s : State} (r : Raise) (h : s.fault = false) :
    s.raise r = { s with fault := true, faultCause := r.cause.code, faultInfo := BitVec.ofNat 32 r.info } := by
  simp [State.raise, h]

/-- A second fault writes nothing (R191). -/
theorem raise_again {s : State} (r : Raise) (h : s.fault = true) : s.raise r = s := by
  simp [State.raise, h]

/-- A command in a legal phase without a fault is performed (30_encoding.md R85 step 5). -/
theorem issue_ready {i : Instr} {s : State} (body : State → Outcome) (hf : s.fault = false)
    (hp : legalPhase i s.phase = true) : issue i s body = body s := by
  simp [issue, hf, hp]

/-- A command under a fault is ignored (R85 step 2). -/
theorem issue_faulted {i : Instr} {s : State} (body : State → Outcome) (hf : s.fault = true)
    (hi : runsUnderFault i = false) : issue i s body = .next s := by
  simp [issue, hf, hi]

/-- A command in an illegal phase raises `SEQUENCE` (R85 step 4). -/
theorem issue_illegal_phase {i : Instr} {s : State} (body : State → Outcome) (hf : s.fault = false)
    (hp : legalPhase i s.phase = false) :
    issue i s body = .next (s.raise ⟨.sequence, (encode i).toNat⟩) := by
  simp [issue, hf, hp]

/-- Everything a command other than `CONSTRUCT` can do before its own rule is performed. -/
theorem issue_cases (i : Instr) (s : State) (body : State → Outcome) (hi : runsUnderFault i = false) :
    (s.fault = true ∧ issue i s body = .next s) ∨
    (s.fault = false ∧ legalPhase i s.phase = false ∧
      issue i s body = .next (s.raise ⟨.sequence, (encode i).toNat⟩)) ∨
    (s.fault = false ∧ legalPhase i s.phase = true ∧ issue i s body = body s) := by
  cases hf : s.fault with
  | true => exact .inl ⟨rfl, issue_faulted body hf hi⟩
  | false =>
    cases hp : legalPhase i s.phase with
    | false => exact .inr (.inl ⟨rfl, rfl, issue_illegal_phase body hf hp⟩)
    | true => exact .inr (.inr ⟨rfl, rfl, issue_ready body hf hp⟩)

end Sys2Proof.Machine
end

