-- ==== Sys2Proof/Laws/Engine.lean ====
section
/-! SUPPORT. The laws of the interval engine (43_interval_engine.md): scaling, the carry walk and the two
renormalisations, each said once. -/

namespace Sys2Proof.Machine

theorem one_pos (p : Nat) : 0 < one p := Nat.two_pow_pos p

theorem half_pos (p : Nat) : 0 < half p := Nat.two_pow_pos _

theorem one_eq_two_half {p : Nat} (h : 1 ≤ p) : one p = 2 * half p := by
  obtain ⟨q, rfl⟩ : ∃ q, p = q + 1 := ⟨p - 1, by omega⟩
  simp [one, half, Nat.pow_succ]
  omega

/-! ### Scale (R136, R139) -/

theorem scale_zero (p l : Nat) : scale p l 0 = 0 := by simp [scale]

theorem scale_mono (p l : Nat) {c d : Nat} (h : c ≤ d) : scale p l c ≤ scale p l d :=
  Nat.div_le_div_right (Nat.mul_le_mul_left l h)

theorem scale_one (p l : Nat) : scale p l (one p) = l := by
  unfold scale one
  exact Nat.mul_div_cancel l (Nat.two_pow_pos p)

theorem scale_le (p l : Nat) {c : Nat} (h : c ≤ one p) : scale p l c ≤ l := by
  have := scale_mono p l h
  rwa [scale_one] at this

/-! ### Bit strings -/

theorem OnlyBitsChanged.refl (bs : Memory) (lo hi : Nat) : OnlyBitsChanged bs bs lo hi :=
  ⟨fun _ _ => rfl, fun _ _ => rfl⟩

theorem OnlyBitsChanged.trans {a b c : Memory} {lo hi : Nat} (h : OnlyBitsChanged a b lo hi)
    (h' : OnlyBitsChanged b c lo hi) : OnlyBitsChanged a c lo hi :=
  ⟨fun j hj => (h'.1 j hj).trans (h.1 j hj), fun x hx => (h'.2 x hx).trans (h.2 x hx)⟩

theorem OnlyBitsChanged.widen {a b : Memory} {lo hi lo' hi' : Nat} (h : OnlyBitsChanged a b lo hi)
    (hl : lo' ≤ lo) (hh : hi ≤ hi') : OnlyBitsChanged a b lo' hi' :=
  ⟨fun j hj => h.1 j (by omega), fun x hx => h.2 x (by omega)⟩

theorem onlyBitsChanged_bsWithBit {bs : Memory} {k v : Nat} (hv : v ≤ 1) :
    OnlyBitsChanged bs (bsWithBit bs k v) k (k + 1) :=
  ⟨fun _ hj => bitAt_bsWithBit_other hv (by omega), fun _ ha => read_bsWithBit_other bs (by omega)⟩

theorem bitsFrom_congr {bs bs' : Memory} {lo n : Nat}
    (h : ∀ j, j < n → bitAt bs' (lo + j) = bitAt bs (lo + j)) : bitsFrom bs' lo n = bitsFrom bs lo n := by
  induction n with
  | zero => rfl
  | succ n ih =>
    rw [bitsFrom, bitsFrom, ih fun j hj => h j (by omega), h n (by omega)]

theorem bitsFrom_lt (bs : Memory) (lo n : Nat) : bitsFrom bs lo n < 2 ^ n := by
  induction n with
  | zero => simp [bitsFrom]
  | succ n ih =>
    have := bitAt_le_one bs (lo + n)
    rw [bitsFrom, Nat.pow_succ]
    omega

theorem bitsFrom_head (bs : Memory) (lo n : Nat) :
    bitsFrom bs lo (n + 1) = bitAt bs lo * 2 ^ n + bitsFrom bs (lo + 1) n := by
  induction n with
  | zero => simp [bitsFrom]
  | succ n ih =>
    rw [bitsFrom, ih, bitsFrom, Nat.pow_succ, show lo + 1 + n = lo + (n + 1) by omega]
    ring

/-! ### Carry (R140) -/

/-- A carry walk that meets a 0 bit ends there. -/
theorem carryWalk_absorbed {cap cur z i : Nat} {bs : Memory} (hw : bs.wf = true) (hc : cap ≤ 2 ^ 32)
    (hi : i ≤ cap) (hz : AbsorbsCarry bs z i) :
    ∃ bs', carryWalk cap cur i bs = .done () bs' ∧ bs'.wf = true ∧ Carried bs bs' z i := by
  induction i generalizing bs with
  | zero => exact absurd hz.1 (by omega)
  | succ i ih =>
    obtain ⟨hlt, hz0, hones⟩ := hz
    rw [carryWalk, getBit_in_bounds bs (by omega), Run.bind_done]
    by_cases hb : z = i
    · subst hb
      rw [hz0, if_neg (by omega), setBit_in_bounds _ _ (by omega)]
      refine ⟨_, rfl, wf_bsWithBit hw (by omega), bitAt_bsWithBit_same (by omega), fun j h1 h2 => by omega,
        onlyBitsChanged_bsWithBit (by omega)⟩
    · rw [hones i (by omega) (by omega), if_pos rfl, setBit_in_bounds _ _ (by omega), Run.bind_done]
      have hkeep : ∀ j, j ≠ i → bitAt (bsWithBit bs i 0) j = bitAt bs j :=
        fun j hj => bitAt_bsWithBit_other (by omega) hj
      obtain ⟨bs', hrun, hw', h1, h0, hsame⟩ := ih (wf_bsWithBit hw (by omega)) (by omega)
        (show AbsorbsCarry (bsWithBit bs i 0) z i from
          ⟨by omega, by rw [hkeep z (by omega)]; exact hz0,
            fun j hj hji => by rw [hkeep j (by omega)]; exact hones j hj (by omega)⟩)
      refine ⟨bs', hrun, hw', h1, fun j hj hji => ?_, ?_⟩
      · by_cases he : j = i
        · subst he
          rw [hsame.1 j (by omega), bitAt_bsWithBit_same (by omega)]
        · exact h0 j hj (by omega)
      · exact ((onlyBitsChanged_bsWithBit (by omega)).widen (by omega) (by omega)).trans
          (hsame.widen (by omega) (by omega))

/-- A carry walk over ones alone raises `CARRY_UNDERRUN`, and the flips stay. -/
theorem carryWalk_underrun {cap cur i : Nat} {bs : Memory} (hw : bs.wf = true) (hc : cap ≤ 2 ^ 32)
    (hi : i ≤ cap) (hones : ∀ j, j < i → bitAt bs j = 1) :
    ∃ bs', carryWalk cap cur i bs = .raised ⟨.carryUnderrun, cur⟩ bs' ∧ bs'.wf = true ∧
      (∀ j, j < i → bitAt bs' j = 0) ∧ OnlyBitsChanged bs bs' 0 i := by
  induction i generalizing bs with
  | zero => exact ⟨bs, rfl, hw, fun j hj => by omega, OnlyBitsChanged.refl _ _ _⟩
  | succ i ih =>
    rw [carryWalk, getBit_in_bounds bs (by omega), Run.bind_done, hones i (by omega), if_pos rfl,
      setBit_in_bounds _ _ (by omega), Run.bind_done]
    obtain ⟨bs', hrun, hw', h0, hsame⟩ := ih (wf_bsWithBit (k := i) (v := 0) hw (by omega)) (by omega)
      (fun j hj => by rw [bitAt_bsWithBit_other (by omega) (by omega)]; exact hones j (by omega))
    refine ⟨bs', hrun, hw', fun j hj => ?_, ?_⟩
    · by_cases he : j = i
      · subst he
        rw [hsame.1 j (by omega), bitAt_bsWithBit_same (by omega)]
      · exact h0 j (by omega)
    · exact ((onlyBitsChanged_bsWithBit (by omega)).widen (by omega) (by omega)).trans
        (hsame.widen (by omega) (by omega))

/-- A carry below the cursor adds one to the number that the bits form. -/
theorem bitsFrom_carried {bs bs' : Memory} {z cur : Nat} (hz : AbsorbsCarry bs z cur)
    (hc : Carried bs bs' z cur) : bitsFrom bs' 0 cur = bitsFrom bs 0 cur + 1 := by
  obtain ⟨hlt, hz0, hones⟩ := hz
  obtain ⟨h1, h0, hsame, -⟩ := hc
  have key : ∀ n, z < n → n ≤ cur → bitsFrom bs' 0 n = bitsFrom bs 0 n + 1 := by
    intro n
    induction n with
    | zero => intro h; omega
    | succ n ih =>
      intro hzn hn
      rw [bitsFrom, bitsFrom, Nat.zero_add]
      by_cases he : n = z
      · subst he
        rw [h1, hz0, bitsFrom_congr fun j hj => hsame (0 + j) (by omega)]
      · rw [ih (by omega) (by omega), h0 n (by omega) (by omega), hones n (by omega) (by omega)]
        omega
  exact key cur hlt (Nat.le_refl _)

/-! ### Number of renormalisation steps (R142) -/

theorem renormSteps_zero {p l : Nat} (h : RenormSteps p l 0) : half p ≤ l := by
  simpa using h.1

theorem renormSteps_succ {p l t : Nat} (h : RenormSteps p l (t + 1)) :
    l < half p ∧ RenormSteps p (2 * l) t := by
  refine ⟨by simpa using h.2 0 (by omega), ?_, fun u hu => ?_⟩
  · have := h.1
    rw [Nat.pow_succ] at this
    calc half p ≤ l * (2 ^ t * 2) := this
      _ = 2 * l * 2 ^ t := by ring
  · have := h.2 (u + 1) (by omega)
    rw [Nat.pow_succ] at this
    calc 2 * l * 2 ^ u = l * (2 ^ u * 2) := by ring
      _ < half p := this

/-- Every positive length has its number of steps, at most `p - 1` (R142). -/
theorem renormSteps_exists {p l : Nat} (hl : 1 ≤ l) : ∃ t, t ≤ p - 1 ∧ RenormSteps p l t := by
  have hex : ∃ t, half p ≤ l * 2 ^ t :=
    ⟨p - 1, by unfold half; exact Nat.le_mul_of_pos_left _ hl⟩
  refine ⟨Nat.find hex, ?_, Nat.find_spec hex, fun u hu => ?_⟩
  · exact Nat.find_min' hex (by unfold half; exact Nat.le_mul_of_pos_left _ hl)
  · have := Nat.find_min hex hu
    omega

theorem renormSteps_lt_one {p l t : Nat} (hp : 1 ≤ p) (hl : l < one p) (h : RenormSteps p l t) :
    l * 2 ^ t < one p := by
  cases t with
  | zero => simpa using hl
  | succ t =>
    have := h.2 t (by omega)
    rw [one_eq_two_half hp, Nat.pow_succ]
    calc l * (2 ^ t * 2) = 2 * (l * 2 ^ t) := by ring
      _ < 2 * half p := by omega

/-- The number of steps of a positive length is at most `p - 1` (R142). -/
theorem renormSteps_le {p l t : Nat} (hl : 1 ≤ l) (h : RenormSteps p l t) : t ≤ p - 1 := by
  by_contra hc
  have h1 := h.2 (p - 1) (by omega)
  have h2 : half p ≤ l * 2 ^ (p - 1) := by
    unfold half
    exact Nat.le_mul_of_pos_left _ hl
  omega

theorem renormSteps_unique {p l t u : Nat} (h : RenormSteps p l t) (h' : RenormSteps p l u) : t = u := by
  rcases Nat.lt_trichotomy t u with hlt | he | hgt
  · have := h'.2 t hlt
    have := h.1
    omega
  · exact he
  · have := h.2 u hgt
    have := h'.1
    omega

/-- A cursor moved on by `t` bits, as a register. -/
theorem cursor_add (c : Word) (t : Nat) : BitVec.ofNat 32 (c.toNat + t) = c + BitVec.ofNat 32 t := by
  rw [BitVec.ofNat_add]
  simp

/-- `FLUSH` renormalises `QUARTER - 1` by two steps (R143). -/
theorem renormSteps_flush {p : Nat} (h : 3 ≤ p) : RenormSteps p (quarter p - 1) 2 := by
  obtain ⟨q, rfl⟩ : ∃ q, p = q + 3 := ⟨p - 3, by omega⟩
  have e1 : half (q + 3) = 4 * 2 ^ q := by
    unfold half
    rw [show q + 3 - 1 = q + 2 by omega]
    ring
  have e2 : quarter (q + 3) = 2 * 2 ^ q := by
    unfold quarter
    rw [show q + 3 - 2 = q + 1 by omega]
    ring
  have := Nat.two_pow_pos q
  refine ⟨by rw [e1, e2]; omega, fun u hu => ?_⟩
  rcases (by omega : u = 0 ∨ u = 1) with rfl | rfl <;> rw [e1, e2] <;> omega

/-! ### RenormEnc (R141, R142) -/

theorem renormEncLoop_done {p cap room nb nl cur : Nat} {bs : Memory} (h : half p ≤ nl) :
    renormEncLoop p cap room nb nl cur bs = .done (nb, nl, cur) bs := by
  cases room <;> rw [renormEncLoop, if_neg (by omega)]

/-- One turn of the loop (R141), whatever the room. -/
theorem renormEnc_turn (p cap nb nl cur : Nat) (bs : Memory) :
    renormEnc p cap nb nl cur bs =
      if nl < half p then
        (setBit cap cur (2 * nb / 2 ^ p) bs).bind fun _ bs =>
          renormEnc p cap ((2 * nb) % one p) ((2 * nl) % one p) (cur + 1) bs
      else .done (nb, nl, cur) bs := by
  unfold renormEnc
  by_cases hc : cap ≤ cur
  · rw [Nat.sub_eq_zero_of_le hc, renormEncLoop, setBit_out_of_bounds _ _ hc]
    rfl
  · obtain ⟨room, hr⟩ : ∃ room, cap - cur = room + 1 := ⟨cap - cur - 1, by omega⟩
    rw [hr, renormEncLoop, show cap - (cur + 1) = room by omega]

theorem top_bit {p nb : Nat} (hp : 1 ≤ p) (hnb : nb < one p) : 2 * nb / 2 ^ p = nb / 2 ^ (p - 1) ∧
    2 * nb / 2 ^ p ≤ 1 := by
  obtain ⟨q, rfl⟩ : ∃ q, p = q + 1 := ⟨p - 1, by omega⟩
  have h1 : 2 * nb / 2 ^ (q + 1) = nb / 2 ^ q := by
    rw [Nat.pow_succ, Nat.mul_comm (2 ^ q) 2]
    exact Nat.mul_div_mul_left nb (2 ^ q) (by omega)
  refine ⟨by simpa using h1, ?_⟩
  rw [h1]
  have : nb < 2 * 2 ^ q := by simpa [one, Nat.pow_succ, Nat.mul_comm] using hnb
  have := (Nat.div_lt_iff_lt_mul (Nat.two_pow_pos q)).2 this
  omega

/-- The emitted bits of a doubled base are those of the base, one place on. -/
theorem doubled_bit {p nb i : Nat} (hi : i + 2 ≤ p) :
    (2 * nb) % one p / 2 ^ (p - 1 - i) % 2 = nb / 2 ^ (p - 1 - (i + 1)) % 2 := by
  obtain ⟨q, hq⟩ : ∃ q, p - 1 - i = q + 1 := ⟨p - 2 - i, by omega⟩
  have hm : (2 * nb) % one p / 2 ^ (p - 1 - i) % 2 = (2 * nb) / 2 ^ (p - 1 - i) % 2 := by
    have h1 := Nat.testBit_mod_two_pow (2 * nb) p (p - 1 - i)
    rw [Nat.testBit_eq_decide_div_mod_eq, Nat.testBit_eq_decide_div_mod_eq] at h1
    have h2 := Nat.mod_two_eq_zero_or_one ((2 * nb) % 2 ^ p / 2 ^ (p - 1 - i))
    have h3 := Nat.mod_two_eq_zero_or_one ((2 * nb) / 2 ^ (p - 1 - i))
    have h4 : p - 1 - i < p := by omega
    unfold one
    rcases h2 with h2 | h2 <;> rcases h3 with h3 | h3 <;> simp_all
  rw [hm, hq, show p - 1 - (i + 1) = q by omega, Nat.pow_succ, Nat.mul_comm (2 ^ q) 2,
    Nat.mul_div_mul_left nb (2 ^ q) (by omega)]

/-- Everything `RenormEnc` does when its bits fit (R142). -/
theorem renormEnc_fits {p cap nb nl cur t : Nat} {bs : Memory} (hp : 1 ≤ p) (hw : bs.wf = true)
    (hc : cap ≤ 2 ^ 32) (hnb : nb < one p) (hnl : nl < one p) (ht : RenormSteps p nl t) (htp : t ≤ p - 1)
    (hfit : cur + t ≤ cap) :
    ∃ bs', renormEnc p cap nb nl cur bs = .done (nb * 2 ^ t % one p, nl * 2 ^ t, cur + t) bs' ∧
      bs'.wf = true ∧ Emitted p nb t bs bs' cur := by
  induction t generalizing nb nl cur bs p with
  | zero =>
    refine ⟨bs, ?_, hw, fun j hj => by omega, OnlyBitsChanged.refl _ _ _⟩
    rw [renormEnc_turn, if_neg (by have := renormSteps_zero ht; omega)]
    simp [Nat.mod_eq_of_lt hnb]
  | succ t ih =>
    obtain ⟨hlt, ht'⟩ := renormSteps_succ ht
    have hdbl : 2 * nl % one p = 2 * nl := Nat.mod_eq_of_lt (by rw [one_eq_two_half hp]; omega)
    obtain ⟨htop, hbit⟩ := top_bit hp hnb
    rw [renormEnc_turn, if_pos hlt, setBit_in_bounds _ _ (by omega), Run.bind_done, hdbl]
    obtain ⟨bs', hrun, hw', hem, hsame⟩ := ih (bs := bsWithBit bs cur (2 * nb / 2 ^ p)) (cur := cur + 1)
      hp (wf_bsWithBit hw (by omega)) (Nat.mod_lt (2 * nb) (one_pos p))
      (by rw [one_eq_two_half hp]; omega) ht' (by omega) (by omega)
    refine ⟨bs', ?_, hw', fun j hj => ?_, ?_⟩
    · rw [hrun, Nat.mod_mul_mod]
      have h1 : 2 * nb * 2 ^ t = nb * 2 ^ (t + 1) := by rw [Nat.pow_succ]; ring
      have h2 : 2 * nl * 2 ^ t = nl * 2 ^ (t + 1) := by rw [Nat.pow_succ]; ring
      rw [h1, h2, show cur + 1 + t = cur + (t + 1) by omega]
    · cases j with
      | zero =>
        rw [hsame.1 (cur + 0) (by omega), Nat.add_zero, bitAt_bsWithBit_same hbit, htop, Nat.sub_zero]
        rw [htop] at hbit
        exact (Nat.mod_eq_of_lt (by omega)).symm
      | succ j =>
        rw [show cur + (j + 1) = cur + 1 + j by omega, hem j (by omega), doubled_bit (by omega)]
    · exact ((onlyBitsChanged_bsWithBit hbit).widen (by omega) (by omega)).trans
        (hsame.widen (by omega) (by omega))

/-- `RenormEnc` raises `BS_BOUNDS` at the end of BS when its bits do not fit; the bits that did fit are
written (00_scope.md R14). -/
theorem renormEnc_short {p cap nb nl cur t : Nat} {bs : Memory} (hp : 1 ≤ p) (hw : bs.wf = true)
    (hc : cap ≤ 2 ^ 32) (hnb : nb < one p) (hnl : nl < one p) (ht : RenormSteps p nl t) (htp : t ≤ p - 1)
    (hcur : cur ≤ cap) (hshort : cap < cur + t) :
    ∃ bs', renormEnc p cap nb nl cur bs = .raised ⟨.bsBounds, cap % 2 ^ 32⟩ bs' ∧ bs'.wf = true ∧
      Emitted p nb (cap - cur) bs bs' cur := by
  induction t generalizing nb nl cur bs p with
  | zero => omega
  | succ t ih =>
    obtain ⟨hlt, ht'⟩ := renormSteps_succ ht
    have hdbl : 2 * nl % one p = 2 * nl := Nat.mod_eq_of_lt (by rw [one_eq_two_half hp]; omega)
    obtain ⟨htop, hbit⟩ := top_bit hp hnb
    rw [renormEnc_turn, if_pos hlt]
    by_cases he : cur = cap
    · rw [setBit_out_of_bounds _ _ (by omega), Run.bind_raised, he]
      exact ⟨bs, rfl, hw, fun j hj => by omega, OnlyBitsChanged.refl _ _ _⟩
    · rw [setBit_in_bounds _ _ (by omega), Run.bind_done, hdbl]
      obtain ⟨bs', hrun, hw', hem, hsame⟩ := ih (bs := bsWithBit bs cur (2 * nb / 2 ^ p))
        (cur := cur + 1) hp (wf_bsWithBit hw (by omega)) (Nat.mod_lt (2 * nb) (one_pos p))
        (by rw [one_eq_two_half hp]; omega) ht' (by omega) (by omega) (by omega)
      refine ⟨bs', hrun, hw', fun j hj => ?_, ?_⟩
      · cases j with
        | zero =>
          rw [hsame.1 (cur + 0) (by omega), Nat.add_zero, bitAt_bsWithBit_same hbit, htop, Nat.sub_zero]
          rw [htop] at hbit
          exact (Nat.mod_eq_of_lt (by omega)).symm
        | succ j =>
          rw [show cur + (j + 1) = cur + 1 + j by omega, hem j (by omega), doubled_bit (by omega)]
      · exact ((onlyBitsChanged_bsWithBit hbit).widen (by omega) (by omega)).trans
          (hsame.widen (by omega) (by omega))

/-- What a `RenormEnc` that ends has done to the length and the cursor, whatever BS holds (R142). -/
theorem renormEncLoop_steps {p cap room nb nl cur nb' nl' cur' : Nat} {bs bs' : Memory} (hp : 1 ≤ p)
    (hnl : nl < one p) (h : renormEncLoop p cap room nb nl cur bs = .done (nb', nl', cur') bs') :
    ∃ t, RenormSteps p nl t ∧ nl' = nl * 2 ^ t ∧ cur' = cur + t := by
  induction room generalizing nb nl cur bs with
  | zero =>
    rw [renormEncLoop] at h
    split at h
    · cases h
    · cases h
      exact ⟨0, ⟨by omega, fun u hu => by omega⟩, by simp, rfl⟩
  | succ room ih =>
    rw [renormEncLoop] at h
    split at h
    · rename_i hlt
      have hdbl : 2 * nl % one p = 2 * nl := Nat.mod_eq_of_lt (by rw [one_eq_two_half hp]; omega)
      rw [hdbl] at h
      unfold setBit at h
      split at h
      · cases h
      · rw [Run.bind_done] at h
        obtain ⟨t, ht, h1, h2⟩ := ih (by rw [one_eq_two_half hp]; omega) h
        have he : ∀ u, nl * 2 ^ (u + 1) = 2 * nl * 2 ^ u := fun u => by rw [Nat.pow_succ]; ring
        refine ⟨t + 1, ⟨by rw [he]; exact ht.1, fun u hu => ?_⟩, by rw [he]; exact h1, by omega⟩
        cases u with
        | zero => simpa using hlt
        | succ u => rw [he]; exact ht.2 u (by omega)
    · cases h
      exact ⟨0, ⟨by omega, fun u hu => by omega⟩, by simp, rfl⟩

theorem renormEnc_steps {p cap nb nl cur nb' nl' cur' : Nat} {bs bs' : Memory} (hp : 1 ≤ p)
    (hnl : nl < one p) (h : renormEnc p cap nb nl cur bs = .done (nb', nl', cur') bs') :
    ∃ t, RenormSteps p nl t ∧ nl' = nl * 2 ^ t ∧ cur' = cur + t := renormEncLoop_steps hp hnl h

/-! ### RenormDec (R144) -/

/-- One turn of the loop (R144), whatever the room. -/
theorem renormDec_turn (p cap v l cur : Nat) (bs : Memory) :
    renormDec p cap v l cur bs =
      if l < half p then
        (getBit cap (cur + 1) bs).bind fun b bs =>
          renormDec p cap ((2 * v) % one p + b) ((2 * l) % one p) (cur + 1) bs
      else .done (v, l, cur) bs := by
  unfold renormDec
  by_cases hc : cap ≤ cur + 1
  · rw [Nat.sub_eq_zero_of_le hc, renormDecLoop, getBit_out_of_bounds _ hc]
    rfl
  · obtain ⟨room, hr⟩ : ∃ room, cap - (cur + 1) = room + 1 := ⟨cap - cur - 2, by omega⟩
    rw [hr, renormDecLoop, show cap - (cur + 1 + 1) = room by omega]

theorem double_add_bit_mod {p v b : Nat} (hp : 1 ≤ p) (hb : b ≤ 1) :
    (2 * v) % one p + b = (2 * v + b) % one p := by
  rw [one_eq_two_half hp]
  have hh := half_pos p
  have h1 : 2 * v % (2 * half p) = 2 * (v % half p) := Nat.mul_mod_mul_left 2 v (half p)
  have h2 := Nat.mod_lt v hh
  have h3 : 2 * v + b = 2 * (v % half p) + b + 2 * half p * (v / half p) := by
    have := Nat.mod_add_div v (half p)
    calc 2 * v + b = 2 * (v % half p + half p * (v / half p)) + b := by rw [this]
      _ = _ := by ring
  rw [h1, h3, Nat.add_mul_mod_self_left,
    Nat.mod_eq_of_lt (show 2 * (v % half p) + b < 2 * half p by omega)]

/-- Everything `RenormDec` does when its bits are in bounds. -/
theorem renormDec_fits {p cap v l cur t : Nat} {bs : Memory} (hp : 1 ≤ p) (hv : v < one p)
    (hl : l < one p) (ht : RenormSteps p l t) (hfit : t = 0 ∨ cur + t < cap) :
    renormDec p cap v l cur bs =
      .done ((v * 2 ^ t + bitsFrom bs (cur + 1) t) % one p, l * 2 ^ t, cur + t) bs := by
  induction t generalizing v l cur with
  | zero =>
    rw [renormDec_turn, if_neg (by have := renormSteps_zero ht; omega)]
    simp [bitsFrom, Nat.mod_eq_of_lt hv]
  | succ t ih =>
    obtain ⟨hlt, ht'⟩ := renormSteps_succ ht
    have hdbl : 2 * l % one p = 2 * l := Nat.mod_eq_of_lt (by rw [one_eq_two_half hp]; omega)
    rw [renormDec_turn, if_pos hlt, getBit_in_bounds _ (by omega), Run.bind_done, hdbl,
      double_add_bit_mod hp (bitAt_le_one _ _),
      ih (Nat.mod_lt _ (one_pos p)) (by rw [one_eq_two_half hp]; omega) ht' (by omega)]
    have h2 : 2 * l * 2 ^ t = l * 2 ^ (t + 1) := by rw [Nat.pow_succ]; ring
    rw [bitsFrom_head, h2, show cur + 1 + t = cur + (t + 1) by omega]
    congr 2
    rw [Nat.add_mod, Nat.mod_mul_mod, ← Nat.add_mod]
    congr 1
    rw [Nat.pow_succ]
    ring

/-- `RenormDec` raises `BS_BOUNDS` at the end of BS when it needs a bit beyond it. -/
theorem renormDec_short {p cap v l cur t : Nat} {bs : Memory} (hp : 1 ≤ p)
    (hl : l < one p) (ht : RenormSteps p l t) (hpos : 1 ≤ t) (hcur : cur < cap)
    (hshort : cap ≤ cur + t) :
    renormDec p cap v l cur bs = .raised ⟨.bsBounds, cap % 2 ^ 32⟩ bs := by
  induction t generalizing v l cur with
  | zero => omega
  | succ t ih =>
    obtain ⟨hlt, ht'⟩ := renormSteps_succ ht
    have hdbl : 2 * l % one p = 2 * l := Nat.mod_eq_of_lt (by rw [one_eq_two_half hp]; omega)
    rw [renormDec_turn, if_pos hlt]
    by_cases he : cur + 1 = cap
    · rw [getBit_out_of_bounds _ (by omega), Run.bind_raised, he]
    · rw [getBit_in_bounds _ (by omega), Run.bind_done, hdbl]
      exact ih (by rw [one_eq_two_half hp]; omega) ht' (by omega) (by omega) (by omega)

/-- What a `RenormDec` that ends has done to the length and the cursor, whatever BS holds (R144). -/
theorem renormDecLoop_steps {p cap room v l cur v' l' cur' : Nat} {bs bs' : Memory} (hp : 1 ≤ p)
    (hl : l < one p) (h : renormDecLoop p cap room v l cur bs = .done (v', l', cur') bs') :
    ∃ t, RenormSteps p l t ∧ l' = l * 2 ^ t ∧ cur' = cur + t ∧ (t = 0 ∨ cur + t < cap) := by
  induction room generalizing v l cur with
  | zero =>
    rw [renormDecLoop] at h
    split at h
    · cases h
    · cases h
      exact ⟨0, ⟨by omega, fun u hu => by omega⟩, by simp, rfl, .inl rfl⟩
  | succ room ih =>
    rw [renormDecLoop] at h
    split at h
    · rename_i hlt
      have hdbl : 2 * l % one p = 2 * l := Nat.mod_eq_of_lt (by rw [one_eq_two_half hp]; omega)
      rw [hdbl] at h
      unfold getBit at h
      split at h
      · cases h
      · rw [Run.bind_done] at h
        obtain ⟨t, ht, h1, h2, h3⟩ := ih (by rw [one_eq_two_half hp]; omega) h
        have he : ∀ u, l * 2 ^ (u + 1) = 2 * l * 2 ^ u := fun u => by rw [Nat.pow_succ]; ring
        refine ⟨t + 1, ⟨by rw [he]; exact ht.1, fun u hu => ?_⟩, by rw [he]; exact h1, by omega, by omega⟩
        cases u with
        | zero => simpa using hlt
        | succ u => rw [he]; exact ht.2 u (by omega)
    · cases h
      exact ⟨0, ⟨by omega, fun u hu => by omega⟩, by simp, rfl, .inl rfl⟩

theorem renormDec_steps {p cap v l cur v' l' cur' : Nat} {bs bs' : Memory} (hp : 1 ≤ p)
    (hl : l < one p) (h : renormDec p cap v l cur bs = .done (v', l', cur') bs') :
    ∃ t, RenormSteps p l t ∧ l' = l * 2 ^ t ∧ cur' = cur + t ∧ (t = 0 ∨ cur + t < cap) :=
  renormDecLoop_steps hp hl h

end Sys2Proof.Machine
end

