-- ==== Sys2Proof/Laws/Table.lean ====
section
/-! SUPPORT. The laws of tables: one read lemma per way of building a table. -/

namespace Sys2Proof.Machine

theorem Table.ext_get {n : Nat} {t u : Table n} (h : ∀ i, i < n → t.get i = u.get i) : t = u := by
  cases t with
  | mk c hc =>
    cases u with
    | mk d hd =>
      have : c = d := by
        apply List.ext_getElem (by rw [hc, hd])
        intro i h1 h2
        have := h i (by omega)
        simpa [Table.get, List.getD_eq_getElem?_getD, h1, h2] using this
      subst this
      rfl

@[simp] theorem Table.get_fill {n i : Nat} (v : Word) (h : i < n) : (Table.fill n v).get i = v := by
  simp [Table.get, Table.fill, List.getD_eq_getElem?_getD, h]

@[simp] theorem Table.get_tabulate {n i : Nat} (f : Nat → Word) (h : i < n) :
    (Table.tabulate n f).get i = f i := by
  simp [Table.get, Table.tabulate, List.getD_eq_getElem?_getD, h]

theorem Table.get_set_same {n i : Nat} (t : Table n) (v : Word) (h : i < n) : (t.set i v).get i = v := by
  have : i < t.cells.length := by rw [t.size_eq]; exact h
  simp [Table.get, Table.set, List.getD_eq_getElem?_getD, this]

theorem Table.get_set_other {n i j : Nat} (t : Table n) (v : Word) (h : j ≠ i) :
    (t.set i v).get j = t.get j := by
  simp [Table.get, Table.set, List.getD_eq_getElem?_getD, List.getElem?_set_ne (Ne.symm h)]

theorem Table.sum_fill (n : Nat) (v : Word) : (Table.fill n v).sum = n * v.toNat := by
  simp [Table.sum, Table.fill]

theorem list_sum_set (l : List Nat) (i v : Nat) (h : i < l.length) :
    (l.set i v).sum + l.getD i 0 = l.sum + v := by
  induction l generalizing i with
  | nil => simp at h
  | cons x xs ih =>
    cases i with
    | zero => simp; omega
    | succ i =>
      have := ih i (by simpa using h)
      simp only [List.set_cons_succ, List.sum_cons, List.getD_cons_succ]
      omega

theorem Table.sum_set {n i : Nat} (t : Table n) (v : Word) (h : i < n) :
    (t.set i v).sum + (t.get i).toNat = t.sum + v.toNat := by
  have hl : i < (t.cells.map BitVec.toNat).length := by simpa [t.size_eq] using h
  have := list_sum_set (t.cells.map BitVec.toNat) i v.toNat hl
  have hg : (t.cells.map BitVec.toNat).getD i 0 = (t.get i).toNat := by
    have hi : i < t.cells.length := by rw [t.size_eq]; exact h
    simp [Table.get, List.getD_eq_getElem?_getD, hi]
  rw [hg] at this
  simpa [Table.sum, Table.set, List.map_set] using this

end Sys2Proof.Machine
end

