-- ==== Sys2Proof/Laws/Model.lean ====
section
/-! SUPPORT. The laws of the probability model (41_model.md R112 to R116) and of the adaptive rescaler
(46_adaptive.md R180, R181). -/

namespace Sys2Proof.Machine

theorem runningSums_getD (acc : Nat) (xs : List Nat) {i : Nat} (h : i ≤ xs.length) :
    (runningSums acc xs).getD i 0 = acc + (xs.take i).sum := by
  induction xs generalizing acc i with
  | nil =>
    have : i = 0 := by simpa using h
    subst this
    rfl
  | cons x xs ih =>
    cases i with
    | zero => simp [runningSums]
    | succ i =>
      rw [runningSums, List.getD_cons_succ, ih _ (by simpa using h), List.take_succ_cons, List.sum_cons]
      omega

theorem take_map_eq_range (t : Table 256) (f : Nat → Nat) {i : Nat} (h : i ≤ 256) :
    (t.cells.map fun c => f c.toNat).take i = (List.range i).map fun j => f (t.get j).toNat := by
  apply List.ext_getElem
  · simp [t.size_eq, h]
  · intro j h1 h2
    have hj : j < t.cells.length := by rw [t.size_eq]; simp at h2; omega
    simp [Table.get, List.getD_eq_getElem?_getD, hj]

/-- The entries of `Rescale(T)` are the prefix sums of the scaled counts (R112). -/
theorem scaledSums_getD (p total : Nat) (counts : Table 256) {i : Nat} (h : i ≤ 256) :
    (scaledSums p total counts).getD i 0 = widthsBelow p total counts i := by
  unfold scaledSums
  rw [runningSums_getD _ _ (by simp [counts.size_eq, h]), Nat.zero_add]
  have := take_map_eq_range counts (fun c => scaledWidth p total c) h
  rw [this]
  rfl

theorem scaledTop_eq (p total : Nat) (counts : Table 256) :
    scaledTop p total counts = widthsBelow p total counts 256 := scaledSums_getD p total counts (Nat.le_refl _)

theorem widthsBelow_succ (p total : Nat) (counts : Table 256) (i : Nat) :
    widthsBelow p total counts (i + 1) =
      widthsBelow p total counts i + (counts.get i).toNat * 2 ^ p / (total + 256) := by
  simp [widthsBelow, List.range_succ]

theorem widthsBelow_mono (p total : Nat) (counts : Table 256) {i j : Nat} (h : i ≤ j) :
    widthsBelow p total counts i ≤ widthsBelow p total counts j := by
  induction j with
  | zero => simp_all
  | succ j ih =>
    rcases Nat.lt_or_ge i (j + 1) with hlt | hge
    · rw [widthsBelow_succ]
      exact Nat.le_trans (ih (by omega)) (Nat.le_add_right _ _)
    · rw [show i = j + 1 by omega]

theorem p_le_31 (s : State) : s.p ≤ 31 := by
  have : s.precision.toNat < 2 ^ 5 := s.precision.isLt
  unfold State.p
  omega

theorem one_le_of_p {p : Nat} (h : p ≤ 31) : one p ≤ 2 ^ 31 := Nat.pow_le_pow_right (by omega) h

/-- The committed entries, as numbers (R115: they fit). -/
theorem scaledTable_get {p total : Nat} {counts : Table 256} (hp : p ≤ 31)
    (htop : scaledTop p total counts ≤ one p) {i : Nat} (h : i ≤ 256) :
    ((scaledTable p total counts).get i).toNat = widthsBelow p total counts i := by
  have hlen := scaledSums_length p total counts
  have hi : i < (scaledSums p total counts).length := by omega
  have hle : widthsBelow p total counts i ≤ 2 ^ 31 := by
    rw [scaledTop_eq] at htop
    have := widthsBelow_mono p total counts h
    have := one_le_of_p hp
    omega
  have hg := scaledSums_getD p total counts h
  simp only [List.getD_eq_getElem?_getD, List.getElem?_eq_getElem hi, Option.getD_some] at hg
  simp only [Table.get, scaledTable, List.getD_eq_getElem?_getD, List.getElem?_map,
    List.getElem?_eq_getElem hi, Option.map_some, Option.getD_some, BitVec.toNat_ofNat, hg]
  exact Nat.mod_eq_of_lt (by omega)

/-- Everything `Rescale(T)` can do (R112). -/
theorem rescaleModel_cases (total : Nat) (s : State) :
    (one s.p < widthsBelow s.p total s.counts 256 ∧
      rescaleModel total s =
        .error ⟨.modelSum, min (widthsBelow s.p total s.counts 256) Config.wordMax⟩) ∨
    (widthsBelow s.p total s.counts 256 ≤ one s.p ∧
      rescaleModel total s =
        .ok { s with cumulative := scaledTable s.p total s.counts, modelValid := true }) := by
  unfold rescaleModel
  rw [scaledTop_eq]
  by_cases h : one s.p < widthsBelow s.p total s.counts 256
  · exact .inl ⟨h, by rw [if_pos h]⟩
  · exact .inr ⟨by omega, by rw [if_neg h]⟩

/-- Properties (a) to (c) of R116. -/
theorem tableValid_scaledTable {p total : Nat} {counts : Table 256} (hp : p ≤ 31)
    (htop : widthsBelow p total counts 256 ≤ one p) : TableValid p (scaledTable p total counts) := by
  have ht : scaledTop p total counts ≤ one p := by rw [scaledTop_eq]; exact htop
  refine ⟨?_, fun i hi => ?_, ?_⟩
  · rw [scaledTable_get hp ht (by omega)]
    rfl
  · rw [scaledTable_get hp ht (by omega), scaledTable_get hp ht (by omega)]
    exact widthsBelow_mono _ _ _ (by omega)
  · rw [scaledTable_get hp ht (by omega)]
    exact htop

theorem scaled_list_le (xs : List Nat) (n d : Nat) :
    (xs.map fun x => x * n / d).sum * d ≤ xs.sum * n := by
  induction xs with
  | nil => simp
  | cons x xs ih =>
    simp only [List.map_cons, List.sum_cons, Nat.add_mul]
    have := Nat.div_mul_le_self (x * n) d
    omega

theorem scaled_list_ge (xs : List Nat) (n d : Nat) (hd : 1 ≤ d) :
    xs.sum * n ≤ (xs.map fun x => x * n / d).sum * d + xs.length * (d - 1) := by
  induction xs with
  | nil => simp
  | cons x xs ih =>
    simp only [List.map_cons, List.sum_cons, Nat.add_mul, List.length_cons]
    have h1 := Nat.div_add_mod (x * n) d
    have h2 := Nat.mod_lt (x * n) hd
    have h3 : d * (x * n / d) = x * n / d * d := Nat.mul_comm _ _
    omega

theorem range_map_get (t : Table 256) : (List.range 256).map (fun j => (t.get j).toNat) =
    t.cells.map BitVec.toNat := by
  have h := take_map_eq_range t (fun c => c) (Nat.le_refl 256)
  rw [← h]
  rw [List.take_of_length_le (by simp [t.size_eq])]

theorem widthsBelow_256 (p total : Nat) (t : Table 256) :
    widthsBelow p total t 256 = ((t.cells.map BitVec.toNat).map fun x => x * 2 ^ p / (total + 256)).sum := by
  rw [← range_map_get, List.map_map]
  rfl

/-- Property (d) of R116: no `MODEL_SUM` while `T + 256` is at least the sum of the counts. -/
theorem widths_le_one {p total : Nat} {t : Table 256} (h : t.sum ≤ total + 256) :
    widthsBelow p total t 256 ≤ one p := by
  rw [widthsBelow_256]
  have h1 := scaled_list_le (t.cells.map BitVec.toNat) (2 ^ p) (total + 256)
  have h2 : (t.cells.map BitVec.toNat).sum * 2 ^ p ≤ (total + 256) * 2 ^ p := Nat.mul_le_mul_right _ h
  have h3 := Nat.le_trans h1 h2
  rw [Nat.mul_comm (total + 256)] at h3
  exact Nat.le_of_mul_le_mul_right h3 (by omega)

/-- Property (e) of R116: with `T + 256` equal to the sum of the counts the reserved mass is at most
255. -/
theorem reserved_mass {p total : Nat} {t : Table 256} (h : total + 256 = t.sum) :
    one p - widthsBelow p total t 256 ≤ 255 := by
  rw [widthsBelow_256]
  have h1 := scaled_list_ge (t.cells.map BitVec.toNat) (2 ^ p) (total + 256) (by omega)
  have h2 : (t.cells.map BitVec.toNat).sum = total + 256 := by rw [h]; rfl
  rw [h2, List.length_map, t.size_eq] at h1
  generalize ((t.cells.map BitVec.toNat).map fun x => x * 2 ^ p / (total + 256)).sum = w at h1 ⊢
  unfold one
  by_contra hcon
  have h3 : (w + 256) * (total + 256) ≤ 2 ^ p * (total + 256) := Nat.mul_le_mul_right _ (by omega)
  rw [Nat.add_mul, Nat.mul_comm (2 ^ p)] at h3
  have h4 : 256 * (total + 256 - 1) < 256 * (total + 256) := by omega
  omega

@[simp] theorem clearCounts_p (s : State) : (clearCounts s).p = s.p := rfl

theorem sum_ones : (Table.fill 256 (1 : Word)).sum = 256 := by rw [Table.sum_fill]; rfl

/-- `RUNIFORM` cannot fault (R114). -/
theorem uniformModel_eq (s : State) :
    uniformModel s = .ok { clearCounts s with
      cumulative := scaledTable s.p 0 (Table.fill 256 1), modelValid := true } := by
  unfold uniformModel
  rcases rescaleModel_cases 0 (clearCounts s) with ⟨h, -⟩ | ⟨-, h⟩
  · have := widths_le_one (p := s.p) (total := 0) (t := Table.fill 256 1) (by rw [sum_ones])
    have h' : one s.p < widthsBelow s.p 0 (Table.fill 256 1) 256 := h
    omega
  · exact h

/-- The uniform table in closed form (R114). -/
theorem widthsBelow_uniform (p : Nat) {i : Nat} (h : i ≤ 256) :
    widthsBelow p 0 (Table.fill 256 1) i = i * (2 ^ p / 256) := by
  induction i with
  | zero => simp [widthsBelow]
  | succ i ih =>
    rw [widthsBelow_succ, ih (by omega), Table.get_fill _ (by omega)]
    simp [Nat.add_mul]

theorem uniform_table_get {p i : Nat} (hp : p ≤ 31) (h : i ≤ 256) :
    ((scaledTable p 0 (Table.fill 256 1)).get i).toNat = i * (2 ^ p / 256) := by
  rw [scaledTable_get hp (by rw [scaledTop_eq]; exact widths_le_one (by rw [sum_ones])) h,
    widthsBelow_uniform p h]

end Sys2Proof.Machine
end

