-- ==== Sys2Proof/Laws/Adaptive.lean ====
section
/-! SUPPORT. The laws of the adaptive rescaler (46_adaptive.md R180, R181) and of the model at the start of a
session and after a symbol. -/

namespace Sys2Proof.Machine

theorem sessionModel_config {w : Word} {s : State} (ha : s.adaptive = true) (h : s.updateRange = 0) :
    sessionModel w s = .error ⟨.config, 0⟩ := by
  rw [sessionModel, if_pos ha, adaptStart, if_pos h]

theorem sessionModel_adaptive {w : Word} {s : State} (ha : s.adaptive = true) (h : s.updateRange ≠ 0) :
    sessionModel w s = .ok { s with
      counts := Table.fill 256 1, total := 0, cumulative := scaledTable s.p 0 (Table.fill 256 1),
      modelValid := true, runCount := 0 } := by
  rw [sessionModel, if_pos ha, adaptStart, if_neg h, uniformModel_eq]
  rfl

theorem sessionModel_static {w : Word} {s : State} (ha : s.adaptive = false) (h : s.modelValid = true) :
    sessionModel w s = .ok s := by
  simp [sessionModel, ha, h]

theorem sessionModel_invalid {w : Word} {s : State} (ha : s.adaptive = false) (h : s.modelValid = false) :
    sessionModel w s = .error ⟨.sequence, w.toNat⟩ := by
  simp [sessionModel, ha, h]

/-- Everything the start of a session can do (R150, R165, R180). -/
theorem sessionModel_cases (w : Word) (s : State) :
    (s.adaptive = true ∧ s.updateRange = 0 ∧ sessionModel w s = .error ⟨.config, 0⟩) ∨
    (s.adaptive = true ∧ s.updateRange ≠ 0 ∧ sessionModel w s = .ok { s with
      counts := Table.fill 256 1, total := 0, cumulative := scaledTable s.p 0 (Table.fill 256 1),
      modelValid := true, runCount := 0 }) ∨
    (s.adaptive = false ∧ s.modelValid = true ∧ sessionModel w s = .ok s) ∨
    (s.adaptive = false ∧ s.modelValid = false ∧ sessionModel w s = .error ⟨.sequence, w.toNat⟩) := by
  cases ha : s.adaptive with
  | true =>
    by_cases h : s.updateRange = 0
    · exact .inl ⟨rfl, h, sessionModel_config ha h⟩
    · refine .inr (.inl ⟨rfl, h, ?_⟩)
      rw [sessionModel_adaptive ha h, ha]
  | false =>
    cases h : s.modelValid with
    | true => exact .inr (.inr (.inl ⟨rfl, rfl, sessionModel_static ha h⟩))
    | false => exact .inr (.inr (.inr ⟨rfl, rfl, sessionModel_invalid ha h⟩))

theorem modelAfterSymbol_of {sym : Nat} {s m : State}
    (h : s.adaptive = false ∧ m = s ∨ s.adaptive = true ∧ adaptUpdate sym s = .ok m) :
    modelAfterSymbol sym s = .ok m := by
  rcases h with ⟨h1, rfl⟩ | ⟨h1, h2⟩ <;> simp [modelAfterSymbol, *]

theorem modelAfterSymbol_ok {sym : Nat} {s m : State} (h : modelAfterSymbol sym s = .ok m) :
    s.adaptive = false ∧ m = s ∨ s.adaptive = true ∧ adaptUpdate sym s = .ok m := by
  cases ha : s.adaptive with
  | true => exact .inr ⟨rfl, by simpa [modelAfterSymbol, ha] using h⟩
  | false =>
    rw [modelAfterSymbol, ha, if_neg (by decide)] at h
    cases h
    exact .inl ⟨rfl, rfl⟩

/-- Everything `AdaptUpdate(s)` can do (R181). -/
theorem adaptUpdate_cases (sym : Nat) (s : State) :
    (((s.counts.get sym).toNat = Config.wordMax ∨ s.total.toNat = Config.wordMax) ∧
      adaptUpdate sym s = .error ⟨.countOverflow, sym⟩) ∨
    ((s.counts.get sym).toNat ≠ Config.wordMax ∧ s.total.toNat ≠ Config.wordMax ∧
      ((s.runCount.toNat + 1 ≠ s.updateRange.toNat ∧ adaptUpdate sym s = .ok { s with
          counts := s.counts.set sym (s.counts.get sym + 1), total := s.total + 1,
          runCount := s.runCount + 1 }) ∨
        (s.runCount.toNat + 1 = s.updateRange.toNat ∧ adaptUpdate sym s = periodEnd { s with
          counts := s.counts.set sym (s.counts.get sym + 1), total := s.total + 1 }))) := by
  have hb : bumpCount sym s = { s with
      counts := s.counts.set sym (s.counts.get sym + 1), total := s.total + 1 } := by
    simp [bumpCount, BitVec.ofNat_add]
  unfold adaptUpdate
  by_cases h1 : (s.counts.get sym).toNat = Config.wordMax
  · exact .inl ⟨.inl h1, if_pos h1⟩
  · rw [if_neg h1]
    by_cases h2 : s.total.toNat = Config.wordMax
    · exact .inl ⟨.inr h2, if_pos h2⟩
    · rw [if_neg h2]
      refine .inr ⟨h1, h2, ?_⟩
      by_cases h3 : s.runCount.toNat + 1 = s.updateRange.toNat
      · exact .inr ⟨h3, by rw [if_pos h3, hb]⟩
      · refine .inl ⟨h3, ?_⟩
        rw [if_neg h3, hb]
        simp [BitVec.ofNat_add]

/-- A number below the largest word, plus one, as a register. -/
theorem toNat_add_one {w : Word} (h : w.toNat ≠ Config.wordMax) : (w + 1).toNat = w.toNat + 1 := by
  have := w.isLt
  unfold Config.wordMax at h
  rw [BitVec.toNat_add]
  show (w.toNat + 1) % 2 ^ 32 = _
  omega

/-- Everything the end of a period can do (R181). -/
theorem periodEnd_cases (s : State) :
    (one s.p < widthsBelow s.p s.total.toNat s.counts 256 ∧ periodEnd s =
      .error ⟨.modelSum, min (widthsBelow s.p s.total.toNat s.counts 256) Config.wordMax⟩) ∨
    (widthsBelow s.p s.total.toNat s.counts 256 ≤ one s.p ∧
      ((s.rangeClear = true ∧ periodEnd s = .ok { s with
          counts := Table.fill 256 1, total := 0, runCount := 0,
          cumulative := scaledTable s.p s.total.toNat s.counts, modelValid := true }) ∨
        (s.rangeClear = false ∧ periodEnd s = .ok { s with
          runCount := 0, cumulative := scaledTable s.p s.total.toNat s.counts, modelValid := true }))) := by
  unfold periodEnd
  rcases rescaleModel_cases s.total.toNat s with ⟨h, he⟩ | ⟨h, he⟩
  · exact .inl ⟨h, by rw [he]⟩
  · refine .inr ⟨h, ?_⟩
    rw [he]
    cases hr : s.rangeClear with
    | true => exact .inl ⟨rfl, by simp [clearCounts]⟩
    | false => exact .inr ⟨rfl, by simp⟩

theorem periodEnd_ok {s m : State} (h : periodEnd s = .ok m) :
    (s.rangeClear = true ∧ m = { s with
      counts := Table.fill 256 1, total := 0, runCount := 0,
      cumulative := scaledTable s.p s.total.toNat s.counts, modelValid := true }) ∨
    (s.rangeClear = false ∧ m = { s with
      runCount := 0, cumulative := scaledTable s.p s.total.toNat s.counts, modelValid := true }) := by
  rcases periodEnd_cases s with ⟨-, he⟩ | ⟨-, ⟨hr, he⟩ | ⟨hr, he⟩⟩
  · rw [he] at h
    cases h
  · rw [he] at h
    cases h
    exact .inl ⟨hr, rfl⟩
  · rw [he] at h
    cases h
    exact .inr ⟨hr, rfl⟩

/-- The model after a symbol is a function of the model and the schedule before it (46_adaptive.md R182). -/
theorem sameModel_modelAfterSymbol {sym : Nat} {e d m n : State} (h : SameModel e d)
    (he : modelAfterSymbol sym e = .ok m) (hd : modelAfterSymbol sym d = .ok n) : SameModel m n := by
  obtain ⟨h1, h2, h3, h4, h5, h6, h7, h8, h9, h10⟩ := h
  rcases modelAfterSymbol_ok he with ⟨ea, rfl⟩ | ⟨ea, eu⟩ <;>
    rcases modelAfterSymbol_ok hd with ⟨da, rfl⟩ | ⟨da, du⟩
  · exact ⟨h1, h2, h3, h4, h5, h6, h7, h8, h9, h10⟩
  · rw [h7, da] at ea; cases ea
  · rw [h7, da] at ea; cases ea
  · rcases adaptUpdate_cases sym e with ⟨-, x⟩ | ⟨-, -, ⟨r, x⟩ | ⟨r, x⟩⟩ <;>
      rcases adaptUpdate_cases sym d with ⟨-, y⟩ | ⟨-, -, ⟨q, y⟩ | ⟨q, y⟩⟩ <;>
      rw [x] at eu <;> rw [y] at du
    · cases eu
    · cases eu
    · cases eu
    · cases du
    · cases eu
      cases du
      exact ⟨h1, h2, by rw [h3], h4, by rw [h5], h6, h7, h8, h9, by rw [h10]⟩
    · rw [h10, h8] at r
      exact absurd q r
    · cases du
    · rw [h10, h8] at r
      exact absurd r q
    · rcases periodEnd_ok eu with ⟨r1, rfl⟩ | ⟨r1, rfl⟩ <;> rcases periodEnd_ok du with ⟨r2, rfl⟩ | ⟨r2, rfl⟩
      · exact ⟨h1, h2, rfl, by simp only [State.p, h1, h3, h5], rfl, rfl, h7, h8, h9, rfl⟩
      · rw [show e.rangeClear = true from r1, show d.rangeClear = false from r2] at h9
        cases h9
      · rw [show e.rangeClear = false from r1, show d.rangeClear = true from r2] at h9
        cases h9
      · exact ⟨h1, h2, by rw [h3], by simp only [State.p, h1, h3, h5], by rw [h5], rfl, h7, h8, h9, rfl⟩

end Sys2Proof.Machine
end

