-- ==== Sys2Proof/Laws/Frame.lean ====
section
/-! SUPPORT. What the courses of the commands can do to BS and to the staged registers, said once per course;
the frames and the invariants are read off from here. -/

namespace Sys2Proof.Machine

/-- BS is canonical if it was, and only bytes that hold an index below `cap` may differ. -/
def KeepsOutside (cap : Nat) (bs bs' : Memory) : Prop :=
  (bs.wf = true → bs'.wf = true) ∧ ∀ a, cap ≤ 8 * a → bs'.read a = bs.read a

theorem KeepsOutside.refl (cap : Nat) (bs : Memory) : KeepsOutside cap bs bs := ⟨id, fun _ _ => rfl⟩

theorem KeepsOutside.trans {cap : Nat} {a b c : Memory} (h : KeepsOutside cap a b)
    (h' : KeepsOutside cap b c) : KeepsOutside cap a c :=
  ⟨fun w => h'.1 (h.1 w), fun x hx => (h'.2 x hx).trans (h.2 x hx)⟩

/-- The bytes of BS at the end of a course, at a value or at a raise. -/
def Run.bs {α : Type} : Run α → Memory
  | .done _ bs => bs
  | .raised _ bs => bs

@[simp] theorem Run.bs_done {α : Type} (x : α) (bs : Memory) : (Run.done x bs).bs = bs := rfl

@[simp] theorem Run.bs_raised {α : Type} (r : Raise) (bs : Memory) :
    (Run.raised (α := α) r bs).bs = bs := rfl

@[simp] theorem Run.bs_lift {α : Type} (e : Except Raise α) (bs : Memory) : (Run.lift e bs).bs = bs := by
  cases e <;> rfl

theorem KeepsOutside.bind {α β : Type} {cap : Nat} {bs : Memory} {m : Run α} {f : α → Memory → Run β}
    (hm : KeepsOutside cap bs m.bs) (hf : ∀ x bs1, KeepsOutside cap bs1 (f x bs1).bs) :
    KeepsOutside cap bs (m.bind f).bs := by
  cases m with
  | done x bs1 => exact hm.trans (hf x bs1)
  | raised r bs1 => exact hm

theorem keeps_getBit (cap k : Nat) (bs : Memory) : KeepsOutside cap bs (getBit cap k bs).bs := by
  unfold getBit
  split <;> exact KeepsOutside.refl cap bs

theorem keeps_setBit {cap : Nat} (hc : cap ≤ 2 ^ 32) (k v : Nat) (bs : Memory) :
    KeepsOutside cap bs (setBit cap k v bs).bs := by
  unfold setBit
  split
  · exact KeepsOutside.refl cap bs
  · refine ⟨fun hw => Memory.wf_write _ hw ?_, fun a ha => Memory.read_write_other _ _ ?_⟩
    · show k / 8 < 2 ^ 29
      omega
    · unfold byteAddress
      omega

theorem keeps_carryWalk {cap : Nat} (hc : cap ≤ 2 ^ 32) (cur i : Nat) (bs : Memory) :
    KeepsOutside cap bs (carryWalk cap cur i bs).bs := by
  induction i generalizing bs with
  | zero => exact KeepsOutside.refl cap bs
  | succ i ih =>
    refine (keeps_getBit cap i bs).bind fun b bs1 => ?_
    split
    · exact (keeps_setBit hc i 0 bs1).bind fun _ bs2 => ih bs2
    · exact keeps_setBit hc i 1 bs1

theorem keeps_carryIf {cap : Nat} (hc : cap ≤ 2 ^ 32) (c : Prop) [Decidable c] (cur : Nat) (bs : Memory) :
    KeepsOutside cap bs (carryIf c cap cur bs).bs := by
  unfold carryIf
  split
  · exact keeps_carryWalk hc cur cur bs
  · exact KeepsOutside.refl cap bs

theorem keeps_renormEncLoop {cap : Nat} (hc : cap ≤ 2 ^ 32) (p room nb nl cur : Nat) (bs : Memory) :
    KeepsOutside cap bs (renormEncLoop p cap room nb nl cur bs).bs := by
  induction room generalizing nb nl cur bs with
  | zero =>
    rw [renormEncLoop]
    split <;> exact KeepsOutside.refl cap bs
  | succ room ih =>
    rw [renormEncLoop]
    split
    · exact (keeps_setBit hc cur _ bs).bind fun _ bs1 => ih _ _ _ bs1
    · exact KeepsOutside.refl cap bs

theorem keeps_renormEnc {cap : Nat} (hc : cap ≤ 2 ^ 32) (p nb nl cur : Nat) (bs : Memory) :
    KeepsOutside cap bs (renormEnc p cap nb nl cur bs).bs := keeps_renormEncLoop hc p _ nb nl cur bs

theorem renormDecLoop_bs (cap p room v l cur : Nat) (bs : Memory) :
    (renormDecLoop p cap room v l cur bs).bs = bs := by
  induction room generalizing v l cur with
  | zero =>
    rw [renormDecLoop]
    split <;> rfl
  | succ room ih =>
    rw [renormDecLoop]
    split
    · unfold getBit
      split
      · rfl
      · exact ih _ _ _
    · rfl

theorem renormDec_bs (cap p v l cur : Nat) (bs : Memory) : (renormDec p cap v l cur bs).bs = bs :=
  renormDecLoop_bs cap p _ v l cur bs

theorem fillValue_bs (cap n i v : Nat) (bs : Memory) : (fillValue cap n i v bs).bs = bs := by
  induction n generalizing i v with
  | zero => rfl
  | succ n ih =>
    rw [fillValue]
    unfold getBit
    split
    · rfl
    · exact ih _ _

/-- The fill of `DEC_INIT` when the bits are in bounds (R165, 20_memory.md R64). -/
theorem fillValue_fits {cap n i v : Nat} {bs : Memory} (h : i + n ≤ cap) :
    fillValue cap n i v bs = .done (v * 2 ^ n + bitsFrom bs i n) bs := by
  induction n generalizing i v with
  | zero => simp [fillValue, bitsFrom]
  | succ n ih =>
    rw [fillValue, getBit_in_bounds bs (by omega), Run.bind_done, ih (by omega), bitsFrom_head]
    congr 1
    rw [Nat.pow_succ]
    ring

/-- The fill of `DEC_INIT` when the bits are not all in bounds. -/
theorem fillValue_short {cap n i v : Nat} {bs : Memory} (hi : i ≤ cap) (h : cap < i + n) :
    fillValue cap n i v bs = .raised ⟨.bsBounds, cap % 2 ^ 32⟩ bs := by
  induction n generalizing i v with
  | zero => omega
  | succ n ih =>
    rw [fillValue]
    by_cases he : i = cap
    · rw [getBit_out_of_bounds bs (by omega), Run.bind_raised, he]
    · rw [getBit_in_bounds bs (by omega), Run.bind_done]
      exact ih (by omega) (by omega)

/-- The fill of `DEC_INIT` from a BS with room for `p` bits (R165). -/
theorem fillValue_all {s : State} (h : s.p ≤ 8 * s.bsSize.toNat) :
    fillValue s.capacity s.p 0 0 s.bs = .done (bitsFrom s.bs 0 s.p) s.bs := by
  rw [fillValue_fits (by unfold State.capacity; omega)]
  simp

/-- The fill of `DEC_INIT` from a smaller BS (R165). -/
theorem fillValue_none {s : State} (h : 8 * s.bsSize.toNat < s.p) :
    fillValue s.capacity s.p 0 0 s.bs = .raised ⟨.bsBounds, 8 * s.bsSize.toNat⟩ s.bs := by
  have := p_le_31 s
  rw [fillValue_short (by omega) (by unfold State.capacity; omega), State.capacity,
    Nat.mod_eq_of_lt (by omega)]

/-- The staged state differs from the old one in registers of the model only (41_model.md, 46_adaptive.md). -/
def OnlyModelChanged (s m : State) : Prop :=
  m = { s with counts := m.counts, cumulative := m.cumulative, total := m.total,
               modelValid := m.modelValid, runCount := m.runCount }

theorem OnlyModelChanged.refl (s : State) : OnlyModelChanged s s := rfl

theorem onlyModel_rescaleModel {total : Nat} {s m : State} (h : rescaleModel total s = .ok m) :
    OnlyModelChanged s m := by
  rcases rescaleModel_cases total s with ⟨-, he⟩ | ⟨-, he⟩
  · rw [he] at h; cases h
  · rw [he] at h; cases h; rfl

theorem onlyModel_adaptStart {s m : State} (h : adaptStart s = .ok m) : OnlyModelChanged s m := by
  unfold adaptStart at h
  split at h
  · cases h
  · rw [uniformModel_eq] at h
    cases h
    rfl

theorem onlyModel_periodEnd {s m : State} (h : periodEnd s = .ok m) : OnlyModelChanged s m := by
  unfold periodEnd at h
  rcases rescaleModel_cases s.total.toNat s with ⟨-, he⟩ | ⟨-, he⟩
  · rw [he] at h; cases h
  · rw [he] at h
    cases h
    split <;> rfl

theorem onlyModel_adaptUpdate {sym : Nat} {s m : State} (h : adaptUpdate sym s = .ok m) :
    OnlyModelChanged s m := by
  unfold adaptUpdate at h
  split at h
  · cases h
  · split at h
    · cases h
    · split at h
      · have h1 := onlyModel_periodEnd h
        unfold OnlyModelChanged at h1 ⊢
        rw [h1]
        rfl
      · cases h
        rfl

theorem onlyModel_sessionModel {w : Word} {s m : State} (h : sessionModel w s = .ok m) :
    OnlyModelChanged s m := by
  unfold sessionModel at h
  split at h
  · exact onlyModel_adaptStart h
  · split at h
    · cases h; rfl
    · cases h

theorem onlyModel_modelAfterSymbol {sym : Nat} {s m : State} (h : modelAfterSymbol sym s = .ok m) :
    OnlyModelChanged s m := by
  unfold modelAfterSymbol at h
  split at h
  · exact onlyModel_adaptUpdate h
  · cases h; rfl

theorem capacity_le (s : State) : s.capacity ≤ 2 ^ 32 - 8 := by
  have : s.bsSize.toNat < 2 ^ 29 := s.bsSize.isLt
  unfold State.capacity
  omega

/-- `Run.bind` answers a value only if both courses do. -/
theorem Run.bind_eq_done {α β : Type} {m : Run α} {f : α → Memory → Run β} {y : β} {bs : Memory}
    (h : m.bind f = .done y bs) : ∃ x bs1, m = .done x bs1 ∧ f x bs1 = .done y bs := by
  cases m with
  | done x bs1 => exact ⟨x, bs1, rfl, h⟩
  | raised r bs1 => cases h

theorem Run.lift_eq_done {α : Type} {e : Except Raise α} {x : α} {bs bs' : Memory}
    (h : Run.lift e bs = .done x bs') : e = .ok x ∧ bs' = bs := by
  cases e with
  | ok y => cases h; exact ⟨rfl, rfl⟩
  | error r => cases h

/-- The registers that a successful `ENCODE` leaves (44_encoder.md R151). -/
theorem encodeRun_done {sym : Nat} {s t : State} {bs : Memory} (h : encodeRun sym s = .done t bs) :
    lowBound sym s < highBound sym s ∧ ∃ m nb nl cur bs1,
      modelAfterSymbol sym s = .ok m ∧ t = m.withInterval nb nl cur ∧
      carryIf (narrowedBase sym s < s.base.toNat) s.capacity s.bitCursor.toNat s.bs = .done () bs1 ∧
      renormEnc s.p s.capacity (narrowedBase sym s) (highBound sym s - lowBound sym s)
        s.bitCursor.toNat bs1 = .done (nb, nl, cur) bs := by
  unfold encodeRun at h
  split at h
  · cases h
  · rename_i hlt
    obtain ⟨⟨⟩, bs1, h1, h⟩ := Run.bind_eq_done h
    obtain ⟨⟨nb, nl, cur⟩, bs2, h2, h⟩ := Run.bind_eq_done h
    obtain ⟨m, bs3, h3, h4⟩ := Run.bind_eq_done h
    obtain ⟨h5, rfl⟩ := Run.lift_eq_done h3
    cases h4
    exact ⟨by omega, m, nb, nl, cur, bs1, h5, rfl, h1, h2⟩

/-- The registers that a successful `FLUSH` leaves (R152). -/
theorem flushRun_done {s t : State} {bs : Memory} (h : flushRun s = .done t bs) :
    ∃ nb nl cur bs1, t = { s.withInterval nb nl cur with result := BitVec.ofNat 32 cur, phase := .idle } ∧
      carryIf (candidateBase s < s.base.toNat) s.capacity s.bitCursor.toNat s.bs = .done () bs1 ∧
      renormEnc s.p s.capacity (candidateBase s) (quarter s.p - 1) s.bitCursor.toNat bs1 =
        .done (nb, nl, cur) bs := by
  unfold flushRun at h
  obtain ⟨⟨⟩, bs1, h1, h⟩ := Run.bind_eq_done h
  obtain ⟨⟨nb, nl, cur⟩, bs2, h2, h⟩ := Run.bind_eq_done h
  cases h
  exact ⟨nb, nl, cur, bs1, rfl, h1, h2⟩

/-- The registers that a successful `DEC_INIT` leaves (45_decoder.md R165). -/
theorem decInitRun_done {s t : State} {bs : Memory} (h : decInitRun s = .done t bs) :
    ∃ m v, sessionModel (encode .decInit) s = .ok m ∧ fillValue s.capacity s.p 0 0 s.bs = .done v bs ∧
      t = { m with
        value := BitVec.ofNat 32 v
        length := BitVec.ofNat 32 (one s.p - 1)
        bitCursor := BitVec.ofNat 32 (s.p - 1)
        phase := .dec } := by
  unfold decInitRun at h
  obtain ⟨m, bs1, h1, h2⟩ := Run.bind_eq_done h
  obtain ⟨h3, rfl⟩ := Run.lift_eq_done h1
  obtain ⟨v, bs2, h4, h5⟩ := Run.bind_eq_done h2
  cases h5
  exact ⟨m, v, h3, h4, rfl⟩

/-- The registers that a successful `DECODE` leaves (R167). -/
theorem decodeRun_done {s t : State} {bs : Memory} (h : decodeRun s = .done t bs) :
    ∃ f v l cur m, search s = .ok f ∧
      renormDec s.p s.capacity (s.value.toNat - f.x) (f.y - f.x) s.bitCursor.toNat s.bs =
        .done (v, l, cur) bs ∧
      modelAfterSymbol f.sym s = .ok m ∧ t = m.withDecoded v l cur f.sym := by
  unfold decodeRun at h
  obtain ⟨f, bs1, h1, h2⟩ := Run.bind_eq_done h
  obtain ⟨h3, rfl⟩ := Run.lift_eq_done h1
  obtain ⟨⟨v, l, cur⟩, bs2, h4, h5⟩ := Run.bind_eq_done h2
  obtain ⟨m, bs3, h6, h7⟩ := Run.bind_eq_done h5
  obtain ⟨h8, rfl⟩ := Run.lift_eq_done h6
  cases h7
  exact ⟨f, v, l, cur, m, h3, h4, h8, rfl⟩

theorem keeps_encodeRun (sym : Nat) (s : State) : KeepsOutside s.capacity s.bs (encodeRun sym s).bs := by
  have hc : s.capacity ≤ 2 ^ 32 := Nat.le_trans (capacity_le s) (by omega)
  unfold encodeRun
  split
  · exact KeepsOutside.refl _ _
  · refine (keeps_carryIf hc _ _ _).bind fun _ bs1 => (keeps_renormEnc hc _ _ _ _ _).bind fun out bs2 => ?_
    refine KeepsOutside.bind ?_ fun _ bs3 => KeepsOutside.refl _ _
    rw [Run.bs_lift]
    exact KeepsOutside.refl _ _

theorem keeps_flushRun (s : State) : KeepsOutside s.capacity s.bs (flushRun s).bs := by
  have hc : s.capacity ≤ 2 ^ 32 := Nat.le_trans (capacity_le s) (by omega)
  exact (keeps_carryIf hc _ _ _).bind fun _ bs1 => (keeps_renormEnc hc _ _ _ _ _).bind fun out bs2 =>
    KeepsOutside.refl _ _

theorem keeps_setbitRun (v : Bool) (s : State) : KeepsOutside s.capacity s.bs (setbitRun v s).bs := by
  have hc : s.capacity ≤ 2 ^ 32 := Nat.le_trans (capacity_le s) (by omega)
  exact (keeps_setBit hc _ _ _).bind fun _ bs1 => KeepsOutside.refl _ _

theorem getbitRun_bs (s : State) : (getbitRun s).bs = s.bs := by
  unfold getbitRun getBit
  split <;> rfl

theorem decInitRun_bs (s : State) : (decInitRun s).bs = s.bs := by
  unfold decInitRun
  cases sessionModel (encode .decInit) s with
  | error r => rfl
  | ok m =>
    rw [Run.lift_ok, Run.bind_done]
    have h := fillValue_bs s.capacity s.p 0 0 s.bs
    cases hf : fillValue s.capacity s.p 0 0 s.bs with
    | done v bs => rw [hf] at h; exact h
    | raised r bs => rw [hf] at h; exact h

theorem decodeRun_bs (s : State) : (decodeRun s).bs = s.bs := by
  unfold decodeRun
  cases search s with
  | error r => rfl
  | ok f =>
    rw [Run.lift_ok, Run.bind_done]
    have h := renormDec_bs s.capacity s.p (s.value.toNat - f.x) (f.y - f.x) s.bitCursor.toNat s.bs
    cases hf : renormDec s.p s.capacity (s.value.toNat - f.x) (f.y - f.x) s.bitCursor.toNat s.bs with
    | raised r bs => rw [hf] at h; exact h
    | done out bs =>
      rw [hf] at h
      rw [Run.bind_done]
      cases modelAfterSymbol f.sym s with
      | ok m => exact h
      | error r => exact h

end Sys2Proof.Machine
end

