-- ==== Sys2Proof/Laws/Exec.lean ====
section
/-! SUPPORT. Every command is one rule behind one gate (30_encoding.md R85): `exec` is `issue` of the rule's
body, and what that gate can answer. -/

namespace Sys2Proof.Machine

/-- The rule of a command, behind the gate (30_encoding.md R84, last column). -/
def bodyOf : Instr → State → Outcome
  | .construct q, s => concludePure s (constructAt (byteOperand q) s)
  | .mreset, s => .next (clearCounts s)
  | .madd sym, s => concludePure s (addOccurrence (byteOperand sym) s)
  | .rescale, s => concludePure s (rescaleModel s.totalOperand s)
  | .runiform, s => concludePure s (uniformModel s)
  | .getbit, s => conclude s (getbitRun s)
  | .setbit v, s => conclude s (setbitRun v s)
  | .encInit, s => concludePure s (encInitStaged s)
  | .encode sym, s => conclude s (encodeRun (byteOperand sym) s)
  | .flush, s => conclude s (flushRun s)
  | .decInit, s => conclude s (decInitRun s)
  | .decode, s => conclude s (decodeRun s)
  | .endSession, s => .next { s with phase := .idle }

theorem exec_eq_issue (i : Instr) (s : State) : exec i s = issue i s (bodyOf i) := by cases i <;> rfl

theorem legalPhase_iff (i : Instr) (ph : Phase) : legalPhase i ph = true ↔ ph ∈ phasesOf i := by
  cases i <;> cases ph <;> simp [legalPhase, phasesOf]

theorem runsUnderFault_iff (i : Instr) : runsUnderFault i = true ↔ ∃ q, i = .construct q := by
  cases i <;> simp [runsUnderFault]

/-- A command in a legal phase without a fault is its rule. -/
theorem exec_ready {i : Instr} {s : State} (hf : s.fault = false) (hp : s.phase ∈ phasesOf i) :
    exec i s = bodyOf i s := by
  rw [exec_eq_issue, issue_ready _ hf ((legalPhase_iff i _).2 hp)]

/-- `CONSTRUCT` is its rule in every state. -/
theorem exec_construct (q : Byte) (s : State) :
    exec (.construct q) s = concludePure s (constructAt q.toNat s) := by
  simp [exec, execConstruct, issue, runsUnderFault, legalPhase, byteOperand]

/-- A raise without an earlier fault, its `info` a word. -/
theorem raise_faulted {s : State} (hf : s.fault = false) (c : Cause) (n : Nat) (w : Word)
    (h : BitVec.ofNat 32 n = w) : s.raise ⟨c, n⟩ = s.faulted c.code w := by
  rw [raise_first _ hf, h]
  rfl

/-- A number that a 32-bit word holds. -/
theorem ofNat_toNat_word (w : Word) : BitVec.ofNat 32 w.toNat = w := BitVec.eq_of_toNat_eq (by simp)

/-- A byte as the info word of a fault. -/
theorem ofNat_toNat_byte (b : Byte) : BitVec.ofNat 32 b.toNat = b.setWidth 32 := by
  apply BitVec.eq_of_toNat_eq
  simp

/-- Everything a command can do before its own rule is performed. -/
theorem exec_cases (i : Instr) (s : State) :
    (s.fault = true ∧ (∀ q, i ≠ .construct q) ∧ exec i s = .next s) ∨
    (s.fault = false ∧ s.phase ∉ phasesOf i ∧ exec i s = .next (s.faulted 2 (encode i))) ∨
    ((s.fault = false ∨ ∃ q, i = .construct q) ∧ s.phase ∈ phasesOf i ∧ exec i s = bodyOf i s) := by
  by_cases hr : ∃ q, i = .construct q
  · obtain ⟨q, rfl⟩ := hr
    refine .inr (.inr ⟨.inr ⟨q, rfl⟩, ?_, exec_construct q s⟩)
    cases s.phase <;> simp [phasesOf]
  · have hi : runsUnderFault i = false := by
      rw [← Bool.not_eq_true, runsUnderFault_iff]
      exact hr
    have hne : ∀ q, i ≠ .construct q := fun q hq => hr ⟨q, hq⟩
    rcases issue_cases i s (bodyOf i) hi with ⟨hf, h⟩ | ⟨hf, hp, h⟩ | ⟨hf, hp, h⟩
    · exact .inl ⟨hf, hne, by rw [exec_eq_issue, h]⟩
    · refine .inr (.inl ⟨hf, ?_, ?_⟩)
      · rw [← legalPhase_iff, hp]
        decide
      · rw [exec_eq_issue, h, raise_faulted hf .sequence _ (encode i) (ofNat_toNat_word _)]
        rfl
    · exact .inr (.inr ⟨.inl hf, (legalPhase_iff i _).1 hp, by rw [exec_eq_issue, h]⟩)

end Sys2Proof.Machine
end

