-- ==== Sys2Proof/Laws/Commands.lean ====
section
/-! SUPPORT. Everything a command can do, said once: what each writes when it completes, and what it leaves
when it raises a fault. -/

namespace Sys2Proof.Machine

/-- A course that does not raise `ACCESS`: only register writes do (60_exceptions.md R201). -/
def Run.NoAccess {α : Type} (m : Run α) : Prop := ∀ r bs, m = .raised r bs → r.cause ≠ .access

theorem Run.NoAccess.done {α : Type} (x : α) (bs : Memory) : (Run.done x bs).NoAccess := by
  intro r bs' h
  cases h

theorem Run.NoAccess.bind {α β : Type} {m : Run α} {f : α → Memory → Run β} (hm : m.NoAccess)
    (hf : ∀ x bs, (f x bs).NoAccess) : (m.bind f).NoAccess := by
  cases m with
  | done x bs => exact hf x bs
  | raised r bs =>
    intro r' bs' h
    cases h
    exact hm r bs rfl

theorem noAccess_getBit (cap k : Nat) (bs : Memory) : (getBit cap k bs).NoAccess := by
  intro r bs' h
  unfold getBit at h
  split at h <;> cases h
  exact fun x => by cases x

theorem noAccess_setBit (cap k v : Nat) (bs : Memory) : (setBit cap k v bs).NoAccess := by
  intro r bs' h
  unfold setBit at h
  split at h <;> cases h
  exact fun x => by cases x

theorem noAccess_carryWalk (cap cur i : Nat) (bs : Memory) : (carryWalk cap cur i bs).NoAccess := by
  induction i generalizing bs with
  | zero =>
    intro r bs' h
    cases h
    exact fun x => by cases x
  | succ i ih =>
    refine (noAccess_getBit cap i bs).bind fun b bs => ?_
    split
    · exact (noAccess_setBit cap i 0 bs).bind fun _ bs => ih bs
    · exact noAccess_setBit cap i 1 bs

theorem noAccess_carryIf (c : Prop) [Decidable c] (cap cur : Nat) (bs : Memory) :
    (carryIf c cap cur bs).NoAccess := by
  unfold carryIf
  split
  · exact noAccess_carryWalk cap cur cur bs
  · exact Run.NoAccess.done _ _

theorem noAccess_renormEncLoop (p cap room nb nl cur : Nat) (bs : Memory) :
    (renormEncLoop p cap room nb nl cur bs).NoAccess := by
  induction room generalizing nb nl cur bs with
  | zero =>
    intro r bs' h
    rw [renormEncLoop] at h
    split at h <;> cases h
    exact fun x => by cases x
  | succ room ih =>
    rw [renormEncLoop]
    split
    · exact (noAccess_setBit cap cur _ bs).bind fun _ bs => ih _ _ _ bs
    · exact Run.NoAccess.done _ _

theorem noAccess_renormDecLoop (p cap room v l cur : Nat) (bs : Memory) :
    (renormDecLoop p cap room v l cur bs).NoAccess := by
  induction room generalizing v l cur bs with
  | zero =>
    intro r bs' h
    rw [renormDecLoop] at h
    split at h <;> cases h
    exact fun x => by cases x
  | succ room ih =>
    rw [renormDecLoop]
    split
    · exact (noAccess_getBit cap (cur + 1) bs).bind fun b bs => ih _ _ _ bs
    · exact Run.NoAccess.done _ _

theorem noAccess_fillValue (cap n i v : Nat) (bs : Memory) : (fillValue cap n i v bs).NoAccess := by
  induction n generalizing i v bs with
  | zero => exact Run.NoAccess.done _ _
  | succ n ih => exact (noAccess_getBit cap i bs).bind fun b bs => ih _ _ bs

theorem noAccess_lift {α : Type} {e : Except Raise α} (h : ∀ r, e = .error r → r.cause ≠ .access)
    (bs : Memory) : (Run.lift e bs).NoAccess := by
  cases e with
  | ok x => exact Run.NoAccess.done _ _
  | error r =>
    intro r' bs' h'
    cases h'
    exact h r rfl

theorem sessionModel_cause {w : Word} {s : State} {r : Raise} (h : sessionModel w s = .error r) :
    r.cause ≠ .access := by
  rcases sessionModel_cases w s with ⟨-, -, he⟩ | ⟨-, -, he⟩ | ⟨-, -, he⟩ | ⟨-, -, he⟩ <;> rw [he] at h <;>
    cases h <;> exact fun x => by cases x

/-- The causes of the adaptive update (46_adaptive.md R181). -/
theorem modelAfterSymbol_cause {sym : Nat} {s : State} {r : Raise}
    (h : modelAfterSymbol sym s = .error r) : r.cause = .countOverflow ∨ r.cause = .modelSum := by
  unfold modelAfterSymbol at h
  split at h
  · rcases adaptUpdate_cases sym s with ⟨-, he⟩ | ⟨-, -, ⟨-, he⟩ | ⟨-, he⟩⟩ <;> rw [he] at h
    · cases h
      exact .inl rfl
    · cases h
    · rcases periodEnd_cases _ with ⟨-, hb⟩ | ⟨-, ⟨-, hb⟩ | ⟨-, hb⟩⟩ <;> rw [hb] at h <;> cases h
      exact .inr rfl
  · cases h

theorem modelAfterSymbol_noAccess {sym : Nat} {s : State} {r : Raise}
    (h : modelAfterSymbol sym s = .error r) : r.cause ≠ .access := by
  rcases modelAfterSymbol_cause h with he | he <;> rw [he] <;> exact fun x => by cases x

theorem noAccess_encodeRun (sym : Nat) (s : State) : (encodeRun sym s).NoAccess := by
  unfold encodeRun
  split
  · intro r bs h
    cases h
    exact fun x => by cases x
  · exact (noAccess_carryIf _ _ _ _).bind fun _ bs => (noAccess_renormEncLoop _ _ _ _ _ _ bs).bind
      fun out bs => (noAccess_lift (fun r h => modelAfterSymbol_noAccess h) bs).bind fun _ _ =>
        Run.NoAccess.done _ _

theorem noAccess_flushRun (s : State) : (flushRun s).NoAccess :=
  (noAccess_carryIf _ _ _ _).bind fun _ bs => (noAccess_renormEncLoop _ _ _ _ _ _ bs).bind
    fun _ _ => Run.NoAccess.done _ _

theorem noAccess_decInitRun (s : State) : (decInitRun s).NoAccess :=
  (noAccess_lift (fun _ h => sessionModel_cause h) _).bind fun _ bs =>
    (noAccess_fillValue _ _ _ _ bs).bind fun _ _ => Run.NoAccess.done _ _

theorem noAccess_decodeRun (s : State) : (decodeRun s).NoAccess := by
  refine (noAccess_lift (fun r h => ?_) _).bind fun f bs =>
    (noAccess_renormDecLoop _ _ _ _ _ _ bs).bind fun out bs =>
      (noAccess_lift (fun r h => modelAfterSymbol_noAccess h) bs).bind fun _ _ => Run.NoAccess.done _ _
  unfold search at h
  split at h <;> cases h
  exact fun x => by cases x

/-- What a command has written when it completes: `t` is `s` but for the registers named. -/
def Completed : Instr → State → State → Prop
  | .construct q, s, t => t = constructState q.toNat s
  | .mreset, s, t => t = clearCounts s
  | .madd _, s, t => t = { s with counts := t.counts, total := t.total }
  | .rescale, s, t => t = { s with cumulative := t.cumulative, modelValid := true }
  | .runiform, s, t => t = { s with
      counts := t.counts, total := t.total, cumulative := t.cumulative, modelValid := true }
  | .getbit, s, t => t = { s with result := t.result }
  | .setbit _, s, t => t = { s with bs := t.bs }
  | .encInit, s, t => t = { s with
      counts := t.counts, cumulative := t.cumulative, total := t.total, modelValid := t.modelValid,
      runCount := t.runCount, base := t.base, length := t.length, bitCursor := t.bitCursor, phase := .enc }
  | .encode _, s, t => t = { s with
      counts := t.counts, cumulative := t.cumulative, total := t.total, modelValid := t.modelValid,
      runCount := t.runCount, base := t.base, length := t.length, bitCursor := t.bitCursor, bs := t.bs }
  | .flush, s, t => t = { s with
      base := t.base, length := t.length, bitCursor := t.bitCursor, result := t.result, phase := .idle,
      bs := t.bs }
  | .decInit, s, t => t = { s with
      counts := t.counts, cumulative := t.cumulative, total := t.total, modelValid := t.modelValid,
      runCount := t.runCount, value := t.value, length := t.length, bitCursor := t.bitCursor, phase := .dec }
  | .decode, s, t => t = { s with
      counts := t.counts, cumulative := t.cumulative, total := t.total, modelValid := t.modelValid,
      runCount := t.runCount, value := t.value, length := t.length, bitCursor := t.bitCursor,
      result := t.result }
  | .endSession, s, t => t = { s with phase := .idle }

/-- The two commands that may have written to BS before they raise a fault (20_memory.md R68). -/
def WritesBeforeFault (i : Instr) : Prop := (∃ sym, i = .encode sym) ∨ i = .flush

/-- A rule that raised: nothing but the fault record, and BS as written so far. -/
def Raised (i : Instr) (s t : State) : Prop :=
  ∃ r bs, KeepsOutside s.capacity s.bs bs ∧ (¬ WritesBeforeFault i → bs = s.bs) ∧
    t = State.raise { s with bs := bs } r ∧ r.cause ≠ .access

theorem raised_of_conclude {i : Instr} {s t : State} {m : Run State} (h : conclude s m = .next t)
    (hk : KeepsOutside s.capacity s.bs m.bs) (hn : m.NoAccess)
    (hw : ∀ r bs, m = .raised r bs → ¬ WritesBeforeFault i → bs = s.bs) :
    (∃ u, m = .done u t.bs ∧ t = { u with bs := t.bs } ∧ KeepsOutside s.capacity s.bs t.bs) ∨
      Raised i s t := by
  cases m with
  | done u bs =>
    cases h
    exact .inl ⟨u, rfl, rfl, hk⟩
  | raised r bs =>
    cases h
    exact .inr ⟨r, bs, hk, hw r bs rfl, rfl, hn r bs rfl⟩

theorem raised_of_pure {i : Instr} {s t : State} {e : Except Raise State} (h : concludePure s e = .next t)
    (hn : ∀ r, e = .error r → r.cause ≠ .access) : e = .ok t ∨ Raised i s t := by
  cases e with
  | ok u =>
    cases h
    exact .inl rfl
  | error r =>
    cases h
    exact .inr ⟨r, s.bs, KeepsOutside.refl _ _, fun _ => rfl, rfl, hn r rfl⟩

/-- Everything the rule of a command can do. -/
theorem bodyOf_cases (i : Instr) (s t : State) (h : bodyOf i s = .next t) :
    (Completed i s t ∧ KeepsOutside s.capacity s.bs t.bs) ∨ Raised i s t := by
  have hrefl := KeepsOutside.refl s.capacity s.bs
  cases i with
  | construct q =>
    rcases raised_of_pure h (fun r h => by
      unfold constructAt at h
      split at h <;> cases h
      exact fun x => by cases x) with h1 | h1
    · unfold constructAt at h1
      split at h1 <;> cases h1
      exact .inl ⟨rfl, hrefl⟩
    · exact .inr h1
  | mreset =>
    cases h
    exact .inl ⟨rfl, hrefl⟩
  | madd sym =>
    rcases raised_of_pure h (fun r h => by
      unfold addOccurrence at h
      split at h
      · cases h
        exact fun x => by cases x
      · split at h <;> cases h
        exact fun x => by cases x) with h1 | h1
    · unfold addOccurrence at h1
      split at h1
      · cases h1
      · split at h1 <;> cases h1
        exact .inl ⟨rfl, hrefl⟩
    · exact .inr h1
  | rescale =>
    rcases raised_of_pure h (fun r h => by
      rcases rescaleModel_cases s.totalOperand s with ⟨-, he⟩ | ⟨-, he⟩ <;> rw [he] at h <;> cases h
      exact fun x => by cases x) with h1 | h1
    · rcases rescaleModel_cases s.totalOperand s with ⟨-, he⟩ | ⟨-, he⟩ <;> rw [he] at h1 <;> cases h1
      exact .inl ⟨rfl, hrefl⟩
    · exact .inr h1
  | runiform =>
    rw [bodyOf, uniformModel_eq] at h
    cases h
    exact .inl ⟨rfl, hrefl⟩
  | getbit =>
    rcases raised_of_conclude h (by rw [getbitRun_bs]; exact hrefl)
      ((noAccess_getBit _ _ _).bind fun _ _ => Run.NoAccess.done _ _)
      (fun r bs hr _ => by have := getbitRun_bs s; rw [hr] at this; exact this) with ⟨u, h1, h2, h3⟩ | h1
    · have hb := getbitRun_bs s
      rw [h1] at hb
      have hb' : t.bs = s.bs := hb
      unfold getbitRun at h1
      obtain ⟨b, bs1, -, h4⟩ := Run.bind_eq_done h1
      cases h4
      refine .inl ⟨?_, h3⟩
      rw [hb'] at h2
      rw [h2]
      rfl
    · exact .inr h1
  | setbit v =>
    rcases raised_of_conclude (i := .setbit v) h (keeps_setbitRun v s)
      ((noAccess_setBit _ _ _ _).bind fun _ _ => Run.NoAccess.done _ _) (fun r bs hr _ => by
        unfold setbitRun setBit at hr
        split at hr <;> cases hr
        rfl) with ⟨u, h1, h2, h3⟩ | h1
    · unfold setbitRun at h1
      obtain ⟨b, bs1, -, h4⟩ := Run.bind_eq_done h1
      cases h4
      exact .inl ⟨h2, h3⟩
    · exact .inr h1
  | encInit =>
    rcases raised_of_pure h (fun r h => by
      unfold encInitStaged at h
      cases hm : sessionModel (encode .encInit) s with
      | ok m => rw [hm] at h; cases h
      | error r' => rw [hm] at h; cases h; exact sessionModel_cause hm) with h1 | h1
    · unfold encInitStaged at h1
      cases hm : sessionModel (encode .encInit) s with
      | error r' => rw [hm] at h1; cases h1
      | ok m =>
        rw [hm] at h1
        cases h1
        have ho := onlyModel_sessionModel hm
        unfold OnlyModelChanged at ho
        refine .inl ⟨?_, ?_⟩
        · rw [ho]
          rfl
        · rw [ho]
          exact hrefl
    · exact .inr h1
  | encode sym =>
    rcases raised_of_conclude h (keeps_encodeRun _ s) (noAccess_encodeRun _ s)
      (fun r bs _ hw => absurd (.inl ⟨sym, rfl⟩) hw) with ⟨u, h1, h2, h3⟩ | h1
    · obtain ⟨-, m, nb, nl, cur, bs1, hm, rfl, -, -⟩ := encodeRun_done h1
      have ho := onlyModel_modelAfterSymbol hm
      unfold OnlyModelChanged at ho
      refine .inl ⟨?_, h3⟩
      rw [h2, ho]
      rfl
    · exact .inr h1
  | flush =>
    rcases raised_of_conclude h (keeps_flushRun s) (noAccess_flushRun s)
      (fun r bs _ hw => absurd (.inr rfl) hw) with ⟨u, h1, h2, h3⟩ | h1
    · obtain ⟨nb, nl, cur, bs1, rfl, -, -⟩ := flushRun_done h1
      refine .inl ⟨?_, h3⟩
      rw [h2]
      rfl
    · exact .inr h1
  | decInit =>
    rcases raised_of_conclude h (by rw [decInitRun_bs]; exact hrefl) (noAccess_decInitRun s)
      (fun r bs hr _ => by have := decInitRun_bs s; rw [hr] at this; exact this) with ⟨u, h1, h2, h3⟩ | h1
    · obtain ⟨m, v, hm, -, rfl⟩ := decInitRun_done h1
      have ho := onlyModel_sessionModel hm
      unfold OnlyModelChanged at ho
      have hb := decInitRun_bs s
      rw [h1] at hb
      have hb' : t.bs = s.bs := hb
      refine .inl ⟨?_, h3⟩
      rw [hb'] at h2
      rw [h2, ho]
      rfl
    · exact .inr h1
  | decode =>
    rcases raised_of_conclude h (by rw [decodeRun_bs]; exact hrefl) (noAccess_decodeRun s)
      (fun r bs hr _ => by have := decodeRun_bs s; rw [hr] at this; exact this) with ⟨u, h1, h2, h3⟩ | h1
    · obtain ⟨f, v, l, cur, m, -, -, hm, rfl⟩ := decodeRun_done h1
      have ho := onlyModel_modelAfterSymbol hm
      unfold OnlyModelChanged at ho
      have hb := decodeRun_bs s
      rw [h1] at hb
      have hb' : t.bs = s.bs := hb
      refine .inl ⟨?_, h3⟩
      rw [hb'] at h2
      rw [h2, ho]
      rfl
    · exact .inr h1
  | endSession =>
    cases h
    exact .inl ⟨rfl, hrefl⟩

/-- The model of a state: what the model commands and the adaptive micro-operations write. -/
def KeepsModel (s t : State) : Prop :=
  t.counts = s.counts ∧ t.total = s.total ∧ t.cumulative = s.cumulative ∧ t.modelValid = s.modelValid ∧
    t.runCount = s.runCount

theorem keepsModel_raise {s : State} {bs : Memory} (r : Raise) :
    KeepsModel s (State.raise { s with bs := bs } r) := by
  unfold State.raise
  split <;> exact ⟨rfl, rfl, rfl, rfl, rfl⟩

/-- In static mode the model at the start of a session is the one in force (44_encoder.md R150). -/
theorem sessionModel_static_eq {w : Word} {s m : State} (ha : s.adaptive = false)
    (h : sessionModel w s = .ok m) : m = s := by
  rcases sessionModel_cases w s with ⟨h1, -, -⟩ | ⟨h1, -, -⟩ | ⟨-, -, he⟩ | ⟨-, -, he⟩
  · rw [ha] at h1
    cases h1
  · rw [ha] at h1
    cases h1
  · rw [he] at h
    cases h
    rfl
  · rw [he] at h
    cases h

/-- In static mode no session command writes the model (10_state.md R31 to R33). -/
theorem bodyOf_keepsModel {i : Instr} {s t : State} (ha : s.adaptive = false)
    (hi : i = .encInit ∨ i = .decInit ∨ i = .decode ∨ ∃ sym, i = .encode sym)
    (h : bodyOf i s = .next t) : KeepsModel s t := by
  have hm : ∀ {sym m}, modelAfterSymbol sym s = .ok m → m = s := by
    intro sym m hm
    rw [modelAfterSymbol, ha] at hm
    cases hm
    rfl
  rcases hi with rfl | rfl | rfl | ⟨sym, rfl⟩
  · simp only [bodyOf, encInitStaged] at h
    cases hs : sessionModel (encode .encInit) s with
    | error r =>
      rw [hs] at h
      cases h
      exact keepsModel_raise (bs := s.bs) r
    | ok m =>
      rw [hs, sessionModel_static_eq ha hs] at h
      cases h
      exact ⟨rfl, rfl, rfl, rfl, rfl⟩
  · cases hr : decInitRun s with
    | raised r bs =>
      rw [bodyOf, hr] at h
      cases h
      exact keepsModel_raise r
    | done u bs =>
      obtain ⟨m, v, hs, -, rfl⟩ := decInitRun_done hr
      rw [bodyOf, hr, sessionModel_static_eq ha hs] at h
      cases h
      exact ⟨rfl, rfl, rfl, rfl, rfl⟩
  · cases hr : decodeRun s with
    | raised r bs =>
      rw [bodyOf, hr] at h
      cases h
      exact keepsModel_raise r
    | done u bs =>
      obtain ⟨f, v, l, cur, m, -, -, hs, rfl⟩ := decodeRun_done hr
      rw [bodyOf, hr, hm hs] at h
      cases h
      exact ⟨rfl, rfl, rfl, rfl, rfl⟩
  · cases hr : encodeRun (byteOperand sym) s with
    | raised r bs =>
      rw [bodyOf, hr] at h
      cases h
      exact keepsModel_raise r
    | done u bs =>
      obtain ⟨-, m, nb, nl, cur, bs1, hs, rfl, -, -⟩ := encodeRun_done hr
      rw [bodyOf, hr, hm hs] at h
      cases h
      exact ⟨rfl, rfl, rfl, rfl, rfl⟩

/-- Everything a command can do: nothing under a fault (but for `CONSTRUCT`), `SEQUENCE` in an illegal
phase, a raise of its rule, or completion. -/
theorem exec_next_cases (i : Instr) (s t : State) (h : exec i s = .next t) :
    (s.fault = true ∧ (∀ q, i ≠ .construct q) ∧ t = s) ∨
    (s.fault = false ∧ s.phase ∉ phasesOf i ∧ t = s.faulted 2 (encode i)) ∨
    ((s.fault = false ∨ ∃ q, i = .construct q) ∧ s.phase ∈ phasesOf i ∧ Raised i s t) ∨
    ((s.fault = false ∨ ∃ q, i = .construct q) ∧ s.phase ∈ phasesOf i ∧ Completed i s t ∧
      KeepsOutside s.capacity s.bs t.bs) := by
  rcases exec_cases i s with ⟨h1, h2, hx⟩ | ⟨h1, h2, hx⟩ | ⟨h1, h2, hx⟩ <;> rw [hx] at h
  · cases h
    exact .inl ⟨h1, h2, rfl⟩
  · cases h
    exact .inr (.inl ⟨h1, h2, rfl⟩)
  · rcases bodyOf_cases i s t h with h3 | h3
    · exact .inr (.inr (.inr ⟨h1, h2, h3⟩))
    · exact .inr (.inr (.inl ⟨h1, h2, h3⟩))

end Sys2Proof.Machine
end

