-- ==== Sys2Proof/Laws/Decode.lean ====
section
/-! SUPPORT. The laws of the encoding: the fields of a word, and the words that each row of the opcode map
spells. -/

namespace Sys2Proof

/-- A word is its fields, put together. -/
theorem word_of_fields (w : Word) :
    w.toNat = (opField w).toNat * 2 ^ 24 + (rsvField w).toNat * 2 ^ 8 + (imm8Field w).toNat := by
  have h : w.toNat < 2 ^ 32 := w.isLt
  simp only [opField, rsvField, imm8Field, BitVec.extractLsb'_toNat, Nat.shiftRight_eq_div_pow]
  omega

/-- `w & 0xFFFFFF00` keeps the fields `op` and `rsv`. -/
theorem and_mask_b (w : Word) : (w &&& 0xFFFFFF00).toNat = w.toNat / 2 ^ 8 * 2 ^ 8 := by
  have h : w &&& (0xFFFFFF00 : Word) = (w >>> 8) <<< 8 := by
    ext i hi
    simp only [BitVec.getElem_and, BitVec.getElem_shiftLeft]
    interval_cases i <;> simp
  rw [h, BitVec.toNat_shiftLeft, BitVec.toNat_ushiftRight, Nat.shiftLeft_eq, Nat.shiftRight_eq_div_pow]
  have := w.isLt
  omega

/-- `w & 0xFFFFFFFE` drops bit 0. -/
theorem and_mask_v (w : Word) : (w &&& 0xFFFFFFFE).toNat = w.toNat / 2 * 2 := by
  have h : w &&& (0xFFFFFFFE : Word) = (w >>> 1) <<< 1 := by
    ext i hi
    simp only [BitVec.getElem_and, BitVec.getElem_shiftLeft]
    interval_cases i <;> simp
  rw [h, BitVec.toNat_shiftLeft, BitVec.toNat_ushiftRight, Nat.shiftLeft_eq, Nat.shiftRight_eq_div_pow]
  have := w.isLt
  omega

theorem and_mask_n (w : Word) : w &&& 0xFFFFFFFF = w := by
  have : (0xFFFFFFFF : Word) = BitVec.allOnes 32 := by decide
  rw [this, BitVec.and_allOnes]

/-- A format-B row spells the 256 words above its `match` (R84). -/
theorem spells_b (m w : Word) (f : Byte → Instr) :
    OpcodeRow.spells ⟨m, 0xFFFFFF00, f⟩ w = true ↔ w.toNat / 2 ^ 8 * 2 ^ 8 = m.toNat := by
  rw [OpcodeRow.spells, beq_iff_eq, ← BitVec.toNat_inj, and_mask_b]

/-- A format-V row spells the two words above its `match` (R84). -/
theorem spells_v (m w : Word) (f : Byte → Instr) :
    OpcodeRow.spells ⟨m, 0xFFFFFFFE, f⟩ w = true ↔ w.toNat / 2 * 2 = m.toNat := by
  rw [OpcodeRow.spells, beq_iff_eq, ← BitVec.toNat_inj, and_mask_v]

/-- A format-N row spells its `match` (R84). -/
theorem spells_n (m w : Word) (f : Byte → Instr) :
    OpcodeRow.spells ⟨m, 0xFFFFFFFF, f⟩ w = true ↔ w.toNat = m.toNat := by
  rw [OpcodeRow.spells, beq_iff_eq, ← BitVec.toNat_inj, and_mask_n]

/-- The word of a command with an operand byte. -/
theorem toNat_or_byte (m : Word) (b : Byte) (h : m.toNat % 2 ^ 8 = 0) :
    (m ||| b.setWidth 32).toNat = m.toNat + b.toNat := by
  have hb : b.toNat < 2 ^ 8 := b.isLt
  rw [BitVec.toNat_or, BitVec.toNat_setWidth_of_le (by omega)]
  have hm : m.toNat = 2 ^ 8 * (m.toNat / 2 ^ 8) := by omega
  rw [hm, ← Nat.two_pow_add_eq_or_of_lt hb]

/-- Decoding is a matter of which row spells the word (R83). -/
theorem decode_eq_ok {w : Word} {i : Instr} (h : decode w = .ok i) :
    ∃ r ∈ opcodeMap, r.spells w = true ∧ i = r.build (imm8Field w) := by
  unfold decode at h
  split at h
  · rename_i r hr
    have := Except.ok.inj h
    exact ⟨r, List.mem_of_find?_eq_some hr, by simpa using List.find?_some hr, this.symm⟩
  · cases h

theorem decode_isError_iff (w : Word) :
    (∃ r, decode w = .error r) ↔ ∀ r ∈ opcodeMap, r.spells w = false := by
  unfold decode
  split
  · rename_i r hr
    constructor
    · rintro ⟨_, h⟩
      cases h
    · intro h
      have h1 := h r (List.mem_of_find?_eq_some hr)
      have h2 : r.spells w = true := by simpa using List.find?_some hr
      simp_all
  · rename_i hn
    constructor
    · intro _ r hr
      have := List.find?_eq_none.1 hn r hr
      simpa using this
    · intro _
      exact ⟨_, rfl⟩

/-- Every command as a term is well formed (R82: every operand value is legal). -/
theorem Instr.wf_all (i : Instr) : i.wf = true := by
  cases i with
  | setbit v => cases v <;> decide
  | _ => rfl

end Sys2Proof
end

