-- ==== Sys2Proof/Laws/Search.lean ====
section
/-! SUPPORT. The laws of `Search` (45_decoder.md R166, R168). -/

namespace Sys2Proof.Machine

/-- Whatever the table holds, the halving ends at adjacent bounds around the code value. -/
theorem searchLoop_spec (s : State) (v fuel low high : Nat) (hlt : low < high)
    (hw : high ≤ low + 2 ^ fuel) (hx : scaledBound s low ≤ v) (hy : v < scaledBound s high) :
    ∃ sym, low ≤ sym ∧ sym < high ∧ scaledBound s sym ≤ v ∧ v < scaledBound s (sym + 1) ∧
      searchLoop s v fuel low high (scaledBound s low) (scaledBound s high) =
        ⟨sym, scaledBound s sym, scaledBound s (sym + 1)⟩ := by
  induction fuel generalizing low high with
  | zero =>
    have he : high = low + 1 := by omega
    subst he
    exact ⟨low, Nat.le_refl _, hlt, hx, hy, rfl⟩
  | succ fuel ih =>
    rw [Nat.pow_succ] at hw
    rw [searchLoop]
    by_cases hd : 1 < high - low
    · rw [if_pos hd]
      by_cases hv : v < scaledBound s ((low + high) / 2)
      · rw [if_pos hv]
        obtain ⟨sym, h1, h2, h3⟩ := ih low ((low + high) / 2) (by omega) (by omega) hx hv
        exact ⟨sym, h1, by omega, h3⟩
      · rw [if_neg hv]
        obtain ⟨sym, h1, h2, h3⟩ := ih ((low + high) / 2) high (by omega) (by omega) (by omega) hy
        exact ⟨sym, by omega, h2, h3⟩
    · rw [if_neg hd]
      have he : high = low + 1 := by omega
      subst he
      exact ⟨low, Nat.le_refl _, hlt, hx, hy, rfl⟩

theorem scaledBound_mono {s : State} (h : TableValid s.p s.cumulative) {i j : Nat} (hij : i ≤ j)
    (hj : j ≤ 256) : scaledBound s i ≤ scaledBound s j := by
  induction j with
  | zero => simp_all
  | succ j ih =>
    rcases Nat.lt_or_ge i (j + 1) with hlt | hge
    · exact Nat.le_trans (ih (by omega) (by omega)) (scale_mono _ _ (h.2.1 j (by omega)))
    · rw [show i = j + 1 by omega]

theorem scaledBound_zero {s : State} (h : TableValid s.p s.cumulative) : scaledBound s 0 = 0 := by
  unfold scaledBound
  rw [h.1, scale_zero]

/-- A code value lies in one scaled range at most (R168). -/
theorem scaled_range_unique {s : State} (h : TableValid s.p s.cumulative) {v a b : Nat} (ha : a < 256)
    (hb : b < 256) (ha1 : scaledBound s a ≤ v) (ha2 : v < scaledBound s (a + 1))
    (hb1 : scaledBound s b ≤ v) (hb2 : v < scaledBound s (b + 1)) : a = b := by
  rcases Nat.lt_trichotomy a b with hlt | he | hgt
  · have := scaledBound_mono h (show a + 1 ≤ b by omega) (by omega)
    omega
  · exact he
  · have := scaledBound_mono h (show b + 1 ≤ a by omega) (by omega)
    omega

/-- Everything `Search` can answer over a valid table (R166, R168). -/
theorem search_cases {s : State} (h : TableValid s.p s.cumulative) :
    (scaledBound s 256 ≤ s.value.toNat ∧ search s = .error ⟨.codeRange, s.value.toNat⟩) ∨
    (∃ sym, sym < 256 ∧ scaledBound s sym ≤ s.value.toNat ∧ s.value.toNat < scaledBound s (sym + 1) ∧
      search s = .ok ⟨sym, scaledBound s sym, scaledBound s (sym + 1)⟩) := by
  unfold search
  by_cases hc : scaledBound s 256 ≤ s.value.toNat
  · exact .inl ⟨hc, if_pos hc⟩
  · rw [if_neg hc]
    obtain ⟨sym, -, h2, h3, h4, h5⟩ := searchLoop_spec s s.value.toNat 8 0 256 (by omega) (by omega)
      (by rw [scaledBound_zero h]; omega) (by omega)
    exact .inr ⟨sym, h2, h3, h4, by rw [h5]⟩

/-- `Search` finds the symbol whose scaled range holds the code value. -/
theorem search_of_range {s : State} (h : TableValid s.p s.cumulative) {sym : Nat} (hs : sym < 256)
    (h1 : scaledBound s sym ≤ s.value.toNat) (h2 : s.value.toNat < scaledBound s (sym + 1)) :
    search s = .ok ⟨sym, scaledBound s sym, scaledBound s (sym + 1)⟩ := by
  rcases search_cases h with ⟨hc, -⟩ | ⟨sym', hs', h1', h2', he⟩
  · have := scaledBound_mono h (show sym + 1 ≤ 256 by omega) (Nat.le_refl _)
    omega
  · rw [he, scaled_range_unique h hs' hs h1' h2' h1 h2]

end Sys2Proof.Machine
end

