-- ==== Sys2Proof/Laws/Invariant.lean ====
section
/-! SUPPORT. What the shared operations do to the invariants of 10_state.md R50: taking a fault, the reset,
and the updates of the model at the start of a session and after a symbol. -/

namespace Sys2Proof.Machine

theorem TableValid.le_one {p : Nat} {c : Table 257} (h : TableValid p c) {k : Nat} (hk : k ≤ 256) :
    (c.get k).toNat ≤ one p := by
  induction hd : 256 - k generalizing k with
  | zero =>
    rw [show k = 256 by omega]
    exact h.2.2
  | succ n ih => exact Nat.le_trans (h.2.1 k (by omega)) (ih (k := k + 1) (by omega) (by omega))

/-- Taking a fault keeps the invariants, whatever canonical BS the abandoned command left (R191). -/
theorem inv_raise {s : State} (r : Raise) {bs : Memory} (h : Inv s) (hw : bs.wf = true) :
    Inv (State.raise { s with bs := bs } r) := by
  unfold State.raise
  split
  · rename_i hf
    have hf' : s.fault = true := hf
    exact ⟨hw, fun x => by simp [hf'] at x, h.recordCause, h.precision, h.counts, h.table,
      fun x => by simp [hf'] at x, fun x => by simp [hf'] at x, fun x => by simp [hf'] at x,
      fun x => by simp [hf'] at x⟩
  · refine ⟨hw, fun x => (by cases x), fun _ => ?_, h.precision, h.counts, h.table, fun x => (by cases x),
      fun x => (by cases x), fun x => (by cases x), fun x => (by cases x)⟩
    cases r with
    | mk c i => cases c <;> simp [Cause.code]

/-- The state after any reset around a canonical BS meets the invariants (R47, R50). -/
theorem inv_afterReset (d : Nat) {bs : Memory} (hw : bs.wf = true) (host : List Transaction) (w : Word) :
    Inv (State.afterReset d bs host w) :=
  ⟨hw, fun _ => ⟨rfl, rfl⟩, fun x => (by cases x), by show 3 ≤ 16 ∧ 16 ≤ 31; omega, fun x => absurd rfl x,
    fun x => (by cases x), fun _ x => (by cases x), fun _ x => (by cases x),
    fun _ x => (by rcases x with x | x <;> cases x), fun _ x => (by rcases x with x | x <;> cases x)⟩

/-- The part of the invariants that the model's registers carry in a session (R50 V2, V3, V8, V9). -/
structure ModelInv (s : State) : Prop where
  counts : ∀ i, i < 256 → 1 ≤ (s.counts.get i).toNat
  table : s.modelValid = true → TableValid s.p s.cumulative
  valid : s.modelValid = true
  sum : s.adaptive = true → s.total.toNat + 256 = s.counts.sum
  run : s.adaptive = true → 1 ≤ s.updateRange.toNat ∧ s.runCount.toNat < s.updateRange.toNat

theorem modelInv_of_inv {s : State} (h : Inv s) (hf : s.fault = false)
    (hp : s.phase = .enc ∨ s.phase = .dec) : ModelInv s :=
  ⟨h.counts (by rcases hp with hp | hp <;> simp [hp]), h.table, h.model hf hp,
    fun ha => (h.adaptive hf hp ha).2.2, fun ha => ⟨(h.adaptive hf hp ha).1, (h.adaptive hf hp ha).2.1⟩⟩

/-- The start of a session establishes it (R150, R165, R180). -/
theorem modelInv_sessionModel {w : Word} {s m : State} (h : Inv s) (hp : s.phase = .idle)
    (hm : sessionModel w s = .ok m) : ModelInv m := by
  rcases sessionModel_cases w s with ⟨-, -, he⟩ | ⟨ha, hu, he⟩ | ⟨ha, hv, he⟩ | ⟨-, -, he⟩ <;>
    rw [he] at hm <;> cases hm
  · have hpos : s.updateRange.toNat ≠ 0 := fun x => hu (BitVec.eq_of_toNat_eq x)
    refine ⟨fun i hi => by rw [Table.get_fill _ hi]; decide,
      fun _ => tableValid_scaledTable (p_le_31 s) (widths_le_one (by rw [sum_ones])), rfl,
      fun _ => by rw [sum_ones]; rfl, fun _ => ⟨?_, ?_⟩⟩
    · show 1 ≤ s.updateRange.toNat
      omega
    · show 0 < s.updateRange.toNat
      omega
  · exact ⟨h.counts (by simp [hp]), h.table, hv, fun x => by simp [ha] at x, fun x => by simp [ha] at x⟩

/-- The model after a symbol keeps it (R181, R183, R184). -/
theorem modelInv_modelAfterSymbol {sym : Nat} (hs : sym < 256) {s m : State} (h : ModelInv s)
    (hm : modelAfterSymbol sym s = .ok m) : ModelInv m := by
  rcases modelAfterSymbol_ok hm with ⟨-, rfl⟩ | ⟨ha, hu⟩
  · exact h
  · obtain ⟨hc, ht, hv, hsum, hrun⟩ := h
    have hsum := hsum ha
    have hrun := hrun ha
    have hur := s.updateRange.isLt
    rcases adaptUpdate_cases sym s with ⟨-, he⟩ | ⟨h1, h2, h⟩
    · rw [he] at hu
      cases hu
    · have hsum' : (s.counts.set sym (s.counts.get sym + 1)).sum = s.total.toNat + 1 + 256 := by
        have := Table.sum_set s.counts (s.counts.get sym + 1) hs
        rw [toNat_add_one h1] at this
        omega
      have hc' : ∀ i, i < 256 → 1 ≤ ((s.counts.set sym (s.counts.get sym + 1)).get i).toNat := by
        intro i hi
        by_cases hi' : i = sym
        · subst hi'
          rw [Table.get_set_same _ _ hi, toNat_add_one h1]
          omega
        · rw [Table.get_set_other _ _ hi']
          exact hc i hi
      have hwid : widthsBelow s.p (s.total + 1).toNat (s.counts.set sym (s.counts.get sym + 1)) 256 ≤
          one s.p := by
        rw [toNat_add_one h2]
        exact widths_le_one (by omega)
      have hr0 : 0 < s.updateRange.toNat := hrun.1
      rcases h with ⟨hr, he⟩ | ⟨hr, he⟩ <;> rw [he] at hu
      · cases hu
        refine ⟨hc', ht, hv, fun _ => by rw [toNat_add_one h2]; exact hsum'.symm, fun _ => ⟨hrun.1, ?_⟩⟩
        show (s.runCount + 1).toNat < s.updateRange.toNat
        rw [toNat_add_one (by unfold Config.wordMax; omega)]
        omega
      · rcases periodEnd_ok hu with ⟨-, rfl⟩ | ⟨-, rfl⟩
        · exact ⟨fun i hi => by rw [Table.get_fill _ hi]; decide,
            fun _ => tableValid_scaledTable (p_le_31 s) hwid, rfl, fun _ => by rw [sum_ones]; rfl,
            fun _ => ⟨hrun.1, hr0⟩⟩
        · exact ⟨hc', fun _ => tableValid_scaledTable (p_le_31 s) hwid, rfl,
            fun _ => by rw [toNat_add_one h2]; exact hsum'.symm, fun _ => ⟨hrun.1, hr0⟩⟩

end Sys2Proof.Machine
end

