-- ==== Sys2Proof/Laws/PerInstr.lean ====
section
/-! SUPPORT. Laws said of every instruction, one lemma per constructor: the fields of a command's word
(30_encoding.md R81, R82, R84). -/

namespace Sys2Proof.Laws.EncodedFields

/-- The word of a command has a zero reserved field, the operand byte in `imm8`, and an opcode of the
command's format. -/
def Statement (i : Instr) : Prop :=
  rsvField (encode i) = 0 ∧ imm8Field (encode i) = i.operand ∧
    formatOfOpcode (opField (encode i)) = some i.format

/-- The fields of `match | operand` for an operand byte. -/
theorem byte_fields (b : Byte) (m : Word) (h : m = 0x01000000 ∨ m = 0x03000000 ∨ m = 0x09000000) :
    rsvField (m ||| b.setWidth 32) = 0 ∧ imm8Field (m ||| b.setWidth 32) = b ∧
      formatOfOpcode (opField (m ||| b.setWidth 32)) = some .b := by
  rcases h with rfl | rfl | rfl <;> revert b <;> decide +kernel

theorem construct (q : Byte) : Statement (.construct q) := byte_fields q _ (by decide)

theorem mreset : Statement .mreset := by
  unfold Statement
  decide

theorem madd (sym : Byte) : Statement (.madd sym) := byte_fields sym _ (by decide)

theorem rescale : Statement .rescale := by
  unfold Statement
  decide

theorem runiform : Statement .runiform := by
  unfold Statement
  decide

theorem getbit : Statement .getbit := by
  unfold Statement
  decide

theorem setbit (v : Bool) : Statement (.setbit v) := by
  unfold Statement
  cases v <;> decide

theorem encInit : Statement .encInit := by
  unfold Statement
  decide

theorem encode (sym : Byte) : Statement (.encode sym) := byte_fields sym _ (by decide)

theorem flush : Statement .flush := by
  unfold Statement
  decide

theorem decInit : Statement .decInit := by
  unfold Statement
  decide

theorem decode : Statement .decode := by
  unfold Statement
  decide

theorem endSession : Statement .endSession := by
  unfold Statement
  decide

end Sys2Proof.Laws.EncodedFields
end

