-- ==== Sys2Proof/Laws/State.lean ====
section
/-! SUPPORT. What each named update of the state leaves in each field, one lemma per field. -/

namespace Sys2Proof.Machine

/-! `State.faulted` -/

@[simp] theorem State.faulted_precision (s : State) (c : BitVec 4) (w : Word) :
    (s.faulted c w).precision = s.precision := rfl

@[simp] theorem State.faulted_base (s : State) (c : BitVec 4) (w : Word) :
    (s.faulted c w).base = s.base := rfl

@[simp] theorem State.faulted_length (s : State) (c : BitVec 4) (w : Word) :
    (s.faulted c w).length = s.length := rfl

@[simp] theorem State.faulted_value (s : State) (c : BitVec 4) (w : Word) :
    (s.faulted c w).value = s.value := rfl

@[simp] theorem State.faulted_bitCursor (s : State) (c : BitVec 4) (w : Word) :
    (s.faulted c w).bitCursor = s.bitCursor := rfl

@[simp] theorem State.faulted_counts (s : State) (c : BitVec 4) (w : Word) :
    (s.faulted c w).counts = s.counts := rfl

@[simp] theorem State.faulted_cumulative (s : State) (c : BitVec 4) (w : Word) :
    (s.faulted c w).cumulative = s.cumulative := rfl

@[simp] theorem State.faulted_total (s : State) (c : BitVec 4) (w : Word) :
    (s.faulted c w).total = s.total := rfl

@[simp] theorem State.faulted_weight (s : State) (c : BitVec 4) (w : Word) :
    (s.faulted c w).weight = s.weight := rfl

@[simp] theorem State.faulted_updateRange (s : State) (c : BitVec 4) (w : Word) :
    (s.faulted c w).updateRange = s.updateRange := rfl

@[simp] theorem State.faulted_adaptive (s : State) (c : BitVec 4) (w : Word) :
    (s.faulted c w).adaptive = s.adaptive := rfl

@[simp] theorem State.faulted_rangeClear (s : State) (c : BitVec 4) (w : Word) :
    (s.faulted c w).rangeClear = s.rangeClear := rfl

@[simp] theorem State.faulted_runCount (s : State) (c : BitVec 4) (w : Word) :
    (s.faulted c w).runCount = s.runCount := rfl

@[simp] theorem State.faulted_bsSize (s : State) (c : BitVec 4) (w : Word) :
    (s.faulted c w).bsSize = s.bsSize := rfl

@[simp] theorem State.faulted_phase (s : State) (c : BitVec 4) (w : Word) :
    (s.faulted c w).phase = s.phase := rfl

@[simp] theorem State.faulted_modelValid (s : State) (c : BitVec 4) (w : Word) :
    (s.faulted c w).modelValid = s.modelValid := rfl

@[simp] theorem State.faulted_fault (s : State) (c : BitVec 4) (w : Word) :
    (s.faulted c w).fault = true := rfl

@[simp] theorem State.faulted_faultCause (s : State) (c : BitVec 4) (w : Word) :
    (s.faulted c w).faultCause = c := rfl

@[simp] theorem State.faulted_faultInfo (s : State) (c : BitVec 4) (w : Word) :
    (s.faulted c w).faultInfo = w := rfl

@[simp] theorem State.faulted_arg (s : State) (c : BitVec 4) (w : Word) : (s.faulted c w).arg = s.arg := rfl

@[simp] theorem State.faulted_result (s : State) (c : BitVec 4) (w : Word) :
    (s.faulted c w).result = s.result := rfl

@[simp] theorem State.faulted_bs (s : State) (c : BitVec 4) (w : Word) : (s.faulted c w).bs = s.bs := rfl

@[simp] theorem State.faulted_host (s : State) (c : BitVec 4) (w : Word) :
    (s.faulted c w).host = s.host := rfl

@[simp] theorem State.faulted_hostData (s : State) (c : BitVec 4) (w : Word) :
    (s.faulted c w).hostData = s.hostData := rfl

@[simp] theorem State.faulted_draws (s : State) (c : BitVec 4) (w : Word) :
    (s.faulted c w).draws = s.draws := rfl

/-! `State.clearFault` -/

@[simp] theorem State.clearFault_precision (s : State) : (s.clearFault).precision = s.precision := rfl

@[simp] theorem State.clearFault_base (s : State) : (s.clearFault).base = s.base := rfl

@[simp] theorem State.clearFault_length (s : State) : (s.clearFault).length = s.length := rfl

@[simp] theorem State.clearFault_value (s : State) : (s.clearFault).value = s.value := rfl

@[simp] theorem State.clearFault_bitCursor (s : State) : (s.clearFault).bitCursor = s.bitCursor := rfl

@[simp] theorem State.clearFault_counts (s : State) : (s.clearFault).counts = s.counts := rfl

@[simp] theorem State.clearFault_cumulative (s : State) : (s.clearFault).cumulative = s.cumulative := rfl

@[simp] theorem State.clearFault_total (s : State) : (s.clearFault).total = s.total := rfl

@[simp] theorem State.clearFault_weight (s : State) : (s.clearFault).weight = s.weight := rfl

@[simp] theorem State.clearFault_updateRange (s : State) : (s.clearFault).updateRange = s.updateRange := rfl

@[simp] theorem State.clearFault_adaptive (s : State) : (s.clearFault).adaptive = s.adaptive := rfl

@[simp] theorem State.clearFault_rangeClear (s : State) : (s.clearFault).rangeClear = s.rangeClear := rfl

@[simp] theorem State.clearFault_runCount (s : State) : (s.clearFault).runCount = s.runCount := rfl

@[simp] theorem State.clearFault_bsSize (s : State) : (s.clearFault).bsSize = s.bsSize := rfl

@[simp] theorem State.clearFault_phase (s : State) : (s.clearFault).phase = s.phase := rfl

@[simp] theorem State.clearFault_modelValid (s : State) : (s.clearFault).modelValid = s.modelValid := rfl

@[simp] theorem State.clearFault_fault (s : State) : (s.clearFault).fault = false := rfl

@[simp] theorem State.clearFault_faultCause (s : State) : (s.clearFault).faultCause = 0 := rfl

@[simp] theorem State.clearFault_faultInfo (s : State) : (s.clearFault).faultInfo = 0 := rfl

@[simp] theorem State.clearFault_arg (s : State) : (s.clearFault).arg = s.arg := rfl

@[simp] theorem State.clearFault_result (s : State) : (s.clearFault).result = s.result := rfl

@[simp] theorem State.clearFault_bs (s : State) : (s.clearFault).bs = s.bs := rfl

@[simp] theorem State.clearFault_host (s : State) : (s.clearFault).host = s.host := rfl

@[simp] theorem State.clearFault_hostData (s : State) : (s.clearFault).hostData = s.hostData := rfl

@[simp] theorem State.clearFault_draws (s : State) : (s.clearFault).draws = s.draws := rfl

/-! `clearCounts` -/

@[simp] theorem clearCounts_precision (s : State) : (clearCounts s).precision = s.precision := rfl

@[simp] theorem clearCounts_base (s : State) : (clearCounts s).base = s.base := rfl

@[simp] theorem clearCounts_length (s : State) : (clearCounts s).length = s.length := rfl

@[simp] theorem clearCounts_value (s : State) : (clearCounts s).value = s.value := rfl

@[simp] theorem clearCounts_bitCursor (s : State) : (clearCounts s).bitCursor = s.bitCursor := rfl

@[simp] theorem clearCounts_counts (s : State) : (clearCounts s).counts = Table.fill 256 1 := rfl

@[simp] theorem clearCounts_cumulative (s : State) : (clearCounts s).cumulative = s.cumulative := rfl

@[simp] theorem clearCounts_total (s : State) : (clearCounts s).total = 0 := rfl

@[simp] theorem clearCounts_weight (s : State) : (clearCounts s).weight = s.weight := rfl

@[simp] theorem clearCounts_updateRange (s : State) : (clearCounts s).updateRange = s.updateRange := rfl

@[simp] theorem clearCounts_adaptive (s : State) : (clearCounts s).adaptive = s.adaptive := rfl

@[simp] theorem clearCounts_rangeClear (s : State) : (clearCounts s).rangeClear = s.rangeClear := rfl

@[simp] theorem clearCounts_runCount (s : State) : (clearCounts s).runCount = s.runCount := rfl

@[simp] theorem clearCounts_bsSize (s : State) : (clearCounts s).bsSize = s.bsSize := rfl

@[simp] theorem clearCounts_phase (s : State) : (clearCounts s).phase = s.phase := rfl

@[simp] theorem clearCounts_modelValid (s : State) : (clearCounts s).modelValid = s.modelValid := rfl

@[simp] theorem clearCounts_fault (s : State) : (clearCounts s).fault = s.fault := rfl

@[simp] theorem clearCounts_faultCause (s : State) : (clearCounts s).faultCause = s.faultCause := rfl

@[simp] theorem clearCounts_faultInfo (s : State) : (clearCounts s).faultInfo = s.faultInfo := rfl

@[simp] theorem clearCounts_arg (s : State) : (clearCounts s).arg = s.arg := rfl

@[simp] theorem clearCounts_result (s : State) : (clearCounts s).result = s.result := rfl

@[simp] theorem clearCounts_bs (s : State) : (clearCounts s).bs = s.bs := rfl

@[simp] theorem clearCounts_host (s : State) : (clearCounts s).host = s.host := rfl

@[simp] theorem clearCounts_hostData (s : State) : (clearCounts s).hostData = s.hostData := rfl

@[simp] theorem clearCounts_draws (s : State) : (clearCounts s).draws = s.draws := rfl

/-! `State.withInterval` -/

@[simp] theorem State.withInterval_precision (s : State) (nb nl cur : Nat) :
    (s.withInterval nb nl cur).precision = s.precision := rfl

@[simp] theorem State.withInterval_base (s : State) (nb nl cur : Nat) :
    (s.withInterval nb nl cur).base = BitVec.ofNat 32 nb := rfl

@[simp] theorem State.withInterval_length (s : State) (nb nl cur : Nat) :
    (s.withInterval nb nl cur).length = BitVec.ofNat 32 nl := rfl

@[simp] theorem State.withInterval_value (s : State) (nb nl cur : Nat) :
    (s.withInterval nb nl cur).value = s.value := rfl

@[simp] theorem State.withInterval_bitCursor (s : State) (nb nl cur : Nat) :
    (s.withInterval nb nl cur).bitCursor = BitVec.ofNat 32 cur := rfl

@[simp] theorem State.withInterval_counts (s : State) (nb nl cur : Nat) :
    (s.withInterval nb nl cur).counts = s.counts := rfl

@[simp] theorem State.withInterval_cumulative (s : State) (nb nl cur : Nat) :
    (s.withInterval nb nl cur).cumulative = s.cumulative := rfl

@[simp] theorem State.withInterval_total (s : State) (nb nl cur : Nat) :
    (s.withInterval nb nl cur).total = s.total := rfl

@[simp] theorem State.withInterval_weight (s : State) (nb nl cur : Nat) :
    (s.withInterval nb nl cur).weight = s.weight := rfl

@[simp] theorem State.withInterval_updateRange (s : State) (nb nl cur : Nat) :
    (s.withInterval nb nl cur).updateRange = s.updateRange := rfl

@[simp] theorem State.withInterval_adaptive (s : State) (nb nl cur : Nat) :
    (s.withInterval nb nl cur).adaptive = s.adaptive := rfl

@[simp] theorem State.withInterval_rangeClear (s : State) (nb nl cur : Nat) :
    (s.withInterval nb nl cur).rangeClear = s.rangeClear := rfl

@[simp] theorem State.withInterval_runCount (s : State) (nb nl cur : Nat) :
    (s.withInterval nb nl cur).runCount = s.runCount := rfl

@[simp] theorem State.withInterval_bsSize (s : State) (nb nl cur : Nat) :
    (s.withInterval nb nl cur).bsSize = s.bsSize := rfl

@[simp] theorem State.withInterval_phase (s : State) (nb nl cur : Nat) :
    (s.withInterval nb nl cur).phase = s.phase := rfl

@[simp] theorem State.withInterval_modelValid (s : State) (nb nl cur : Nat) :
    (s.withInterval nb nl cur).modelValid = s.modelValid := rfl

@[simp] theorem State.withInterval_fault (s : State) (nb nl cur : Nat) :
    (s.withInterval nb nl cur).fault = s.fault := rfl

@[simp] theorem State.withInterval_faultCause (s : State) (nb nl cur : Nat) :
    (s.withInterval nb nl cur).faultCause = s.faultCause := rfl

@[simp] theorem State.withInterval_faultInfo (s : State) (nb nl cur : Nat) :
    (s.withInterval nb nl cur).faultInfo = s.faultInfo := rfl

@[simp] theorem State.withInterval_arg (s : State) (nb nl cur : Nat) :
    (s.withInterval nb nl cur).arg = s.arg := rfl

@[simp] theorem State.withInterval_result (s : State) (nb nl cur : Nat) :
    (s.withInterval nb nl cur).result = s.result := rfl

@[simp] theorem State.withInterval_bs (s : State) (nb nl cur : Nat) :
    (s.withInterval nb nl cur).bs = s.bs := rfl

@[simp] theorem State.withInterval_host (s : State) (nb nl cur : Nat) :
    (s.withInterval nb nl cur).host = s.host := rfl

@[simp] theorem State.withInterval_hostData (s : State) (nb nl cur : Nat) :
    (s.withInterval nb nl cur).hostData = s.hostData := rfl

@[simp] theorem State.withInterval_draws (s : State) (nb nl cur : Nat) :
    (s.withInterval nb nl cur).draws = s.draws := rfl

/-! `State.withDecoded` -/

@[simp] theorem State.withDecoded_precision (s : State) (v l cur sym : Nat) :
    (s.withDecoded v l cur sym).precision = s.precision := rfl

@[simp] theorem State.withDecoded_base (s : State) (v l cur sym : Nat) :
    (s.withDecoded v l cur sym).base = s.base := rfl

@[simp] theorem State.withDecoded_length (s : State) (v l cur sym : Nat) :
    (s.withDecoded v l cur sym).length = BitVec.ofNat 32 l := rfl

@[simp] theorem State.withDecoded_value (s : State) (v l cur sym : Nat) :
    (s.withDecoded v l cur sym).value = BitVec.ofNat 32 v := rfl

@[simp] theorem State.withDecoded_bitCursor (s : State) (v l cur sym : Nat) :
    (s.withDecoded v l cur sym).bitCursor = BitVec.ofNat 32 cur := rfl

@[simp] theorem State.withDecoded_counts (s : State) (v l cur sym : Nat) :
    (s.withDecoded v l cur sym).counts = s.counts := rfl

@[simp] theorem State.withDecoded_cumulative (s : State) (v l cur sym : Nat) :
    (s.withDecoded v l cur sym).cumulative = s.cumulative := rfl

@[simp] theorem State.withDecoded_total (s : State) (v l cur sym : Nat) :
    (s.withDecoded v l cur sym).total = s.total := rfl

@[simp] theorem State.withDecoded_weight (s : State) (v l cur sym : Nat) :
    (s.withDecoded v l cur sym).weight = s.weight := rfl

@[simp] theorem State.withDecoded_updateRange (s : State) (v l cur sym : Nat) :
    (s.withDecoded v l cur sym).updateRange = s.updateRange := rfl

@[simp] theorem State.withDecoded_adaptive (s : State) (v l cur sym : Nat) :
    (s.withDecoded v l cur sym).adaptive = s.adaptive := rfl

@[simp] theorem State.withDecoded_rangeClear (s : State) (v l cur sym : Nat) :
    (s.withDecoded v l cur sym).rangeClear = s.rangeClear := rfl

@[simp] theorem State.withDecoded_runCount (s : State) (v l cur sym : Nat) :
    (s.withDecoded v l cur sym).runCount = s.runCount := rfl

@[simp] theorem State.withDecoded_bsSize (s : State) (v l cur sym : Nat) :
    (s.withDecoded v l cur sym).bsSize = s.bsSize := rfl

@[simp] theorem State.withDecoded_phase (s : State) (v l cur sym : Nat) :
    (s.withDecoded v l cur sym).phase = s.phase := rfl

@[simp] theorem State.withDecoded_modelValid (s : State) (v l cur sym : Nat) :
    (s.withDecoded v l cur sym).modelValid = s.modelValid := rfl

@[simp] theorem State.withDecoded_fault (s : State) (v l cur sym : Nat) :
    (s.withDecoded v l cur sym).fault = s.fault := rfl

@[simp] theorem State.withDecoded_faultCause (s : State) (v l cur sym : Nat) :
    (s.withDecoded v l cur sym).faultCause = s.faultCause := rfl

@[simp] theorem State.withDecoded_faultInfo (s : State) (v l cur sym : Nat) :
    (s.withDecoded v l cur sym).faultInfo = s.faultInfo := rfl

@[simp] theorem State.withDecoded_arg (s : State) (v l cur sym : Nat) :
    (s.withDecoded v l cur sym).arg = s.arg := rfl

@[simp] theorem State.withDecoded_result (s : State) (v l cur sym : Nat) :
    (s.withDecoded v l cur sym).result = BitVec.ofNat 32 sym := rfl

@[simp] theorem State.withDecoded_bs (s : State) (v l cur sym : Nat) :
    (s.withDecoded v l cur sym).bs = s.bs := rfl

@[simp] theorem State.withDecoded_host (s : State) (v l cur sym : Nat) :
    (s.withDecoded v l cur sym).host = s.host := rfl

@[simp] theorem State.withDecoded_hostData (s : State) (v l cur sym : Nat) :
    (s.withDecoded v l cur sym).hostData = s.hostData := rfl

@[simp] theorem State.withDecoded_draws (s : State) (v l cur sym : Nat) :
    (s.withDecoded v l cur sym).draws = s.draws := rfl

/-! `bumpCount` -/

@[simp] theorem bumpCount_precision (k : Nat) (s : State) : (bumpCount k s).precision = s.precision := rfl

@[simp] theorem bumpCount_base (k : Nat) (s : State) : (bumpCount k s).base = s.base := rfl

@[simp] theorem bumpCount_length (k : Nat) (s : State) : (bumpCount k s).length = s.length := rfl

@[simp] theorem bumpCount_value (k : Nat) (s : State) : (bumpCount k s).value = s.value := rfl

@[simp] theorem bumpCount_bitCursor (k : Nat) (s : State) : (bumpCount k s).bitCursor = s.bitCursor := rfl

@[simp] theorem bumpCount_counts (k : Nat) (s : State) :
    (bumpCount k s).counts = s.counts.set k (BitVec.ofNat 32 ((s.counts.get k).toNat + 1)) := rfl

@[simp] theorem bumpCount_cumulative (k : Nat) (s : State) :
    (bumpCount k s).cumulative = s.cumulative := rfl

@[simp] theorem bumpCount_total (k : Nat) (s : State) :
    (bumpCount k s).total = BitVec.ofNat 32 (s.total.toNat + 1) := rfl

@[simp] theorem bumpCount_weight (k : Nat) (s : State) : (bumpCount k s).weight = s.weight := rfl

@[simp] theorem bumpCount_updateRange (k : Nat) (s : State) :
    (bumpCount k s).updateRange = s.updateRange := rfl

@[simp] theorem bumpCount_adaptive (k : Nat) (s : State) : (bumpCount k s).adaptive = s.adaptive := rfl

@[simp] theorem bumpCount_rangeClear (k : Nat) (s : State) :
    (bumpCount k s).rangeClear = s.rangeClear := rfl

@[simp] theorem bumpCount_runCount (k : Nat) (s : State) : (bumpCount k s).runCount = s.runCount := rfl

@[simp] theorem bumpCount_bsSize (k : Nat) (s : State) : (bumpCount k s).bsSize = s.bsSize := rfl

@[simp] theorem bumpCount_phase (k : Nat) (s : State) : (bumpCount k s).phase = s.phase := rfl

@[simp] theorem bumpCount_modelValid (k : Nat) (s : State) :
    (bumpCount k s).modelValid = s.modelValid := rfl

@[simp] theorem bumpCount_fault (k : Nat) (s : State) : (bumpCount k s).fault = s.fault := rfl

@[simp] theorem bumpCount_faultCause (k : Nat) (s : State) :
    (bumpCount k s).faultCause = s.faultCause := rfl

@[simp] theorem bumpCount_faultInfo (k : Nat) (s : State) : (bumpCount k s).faultInfo = s.faultInfo := rfl

@[simp] theorem bumpCount_arg (k : Nat) (s : State) : (bumpCount k s).arg = s.arg := rfl

@[simp] theorem bumpCount_result (k : Nat) (s : State) : (bumpCount k s).result = s.result := rfl

@[simp] theorem bumpCount_bs (k : Nat) (s : State) : (bumpCount k s).bs = s.bs := rfl

@[simp] theorem bumpCount_host (k : Nat) (s : State) : (bumpCount k s).host = s.host := rfl

@[simp] theorem bumpCount_hostData (k : Nat) (s : State) : (bumpCount k s).hostData = s.hostData := rfl

@[simp] theorem bumpCount_draws (k : Nat) (s : State) : (bumpCount k s).draws = s.draws := rfl

/-! `constructState` -/

@[simp] theorem constructState_precision (q : Nat) (s : State) :
    (constructState q s).precision = BitVec.ofNat 5 q := rfl

@[simp] theorem constructState_base (q : Nat) (s : State) : (constructState q s).base = 0 := rfl

@[simp] theorem constructState_length (q : Nat) (s : State) : (constructState q s).length = 0 := rfl

@[simp] theorem constructState_value (q : Nat) (s : State) : (constructState q s).value = 0 := rfl

@[simp] theorem constructState_bitCursor (q : Nat) (s : State) : (constructState q s).bitCursor = 0 := rfl

@[simp] theorem constructState_counts (q : Nat) (s : State) :
    (constructState q s).counts = Table.fill 256 1 := rfl

@[simp] theorem constructState_cumulative (q : Nat) (s : State) :
    (constructState q s).cumulative = s.cumulative := rfl

@[simp] theorem constructState_total (q : Nat) (s : State) : (constructState q s).total = 0 := rfl

@[simp] theorem constructState_weight (q : Nat) (s : State) : (constructState q s).weight = s.weight := rfl

@[simp] theorem constructState_updateRange (q : Nat) (s : State) :
    (constructState q s).updateRange = s.updateRange := rfl

@[simp] theorem constructState_adaptive (q : Nat) (s : State) :
    (constructState q s).adaptive = s.adaptive := rfl

@[simp] theorem constructState_rangeClear (q : Nat) (s : State) :
    (constructState q s).rangeClear = s.rangeClear := rfl

@[simp] theorem constructState_runCount (q : Nat) (s : State) : (constructState q s).runCount = 0 := rfl

@[simp] theorem constructState_bsSize (q : Nat) (s : State) : (constructState q s).bsSize = s.bsSize := rfl

@[simp] theorem constructState_phase (q : Nat) (s : State) : (constructState q s).phase = .idle := rfl

@[simp] theorem constructState_modelValid (q : Nat) (s : State) :
    (constructState q s).modelValid = false := rfl

@[simp] theorem constructState_fault (q : Nat) (s : State) : (constructState q s).fault = false := rfl

@[simp] theorem constructState_faultCause (q : Nat) (s : State) : (constructState q s).faultCause = 0 := rfl

@[simp] theorem constructState_faultInfo (q : Nat) (s : State) : (constructState q s).faultInfo = 0 := rfl

@[simp] theorem constructState_arg (q : Nat) (s : State) : (constructState q s).arg = s.arg := rfl

@[simp] theorem constructState_result (q : Nat) (s : State) : (constructState q s).result = 0 := rfl

@[simp] theorem constructState_bs (q : Nat) (s : State) : (constructState q s).bs = s.bs := rfl

@[simp] theorem constructState_host (q : Nat) (s : State) : (constructState q s).host = s.host := rfl

@[simp] theorem constructState_hostData (q : Nat) (s : State) :
    (constructState q s).hostData = s.hostData := rfl

@[simp] theorem constructState_draws (q : Nat) (s : State) : (constructState q s).draws = s.draws := rfl

/-! `State.withFetchWord` -/

@[simp] theorem State.withFetchWord_precision (s : State) (nbits w : Nat) :
    (s.withFetchWord nbits w).precision = s.precision := rfl

@[simp] theorem State.withFetchWord_base (s : State) (nbits w : Nat) :
    (s.withFetchWord nbits w).base = s.base := rfl

@[simp] theorem State.withFetchWord_length (s : State) (nbits w : Nat) :
    (s.withFetchWord nbits w).length = s.length := rfl

@[simp] theorem State.withFetchWord_value (s : State) (nbits w : Nat) :
    (s.withFetchWord nbits w).value = s.value := rfl

@[simp] theorem State.withFetchWord_bitCursor (s : State) (nbits w : Nat) :
    (s.withFetchWord nbits w).bitCursor = s.bitCursor := rfl

@[simp] theorem State.withFetchWord_counts (s : State) (nbits w : Nat) :
    (s.withFetchWord nbits w).counts = s.counts := rfl

@[simp] theorem State.withFetchWord_cumulative (s : State) (nbits w : Nat) :
    (s.withFetchWord nbits w).cumulative = s.cumulative := rfl

@[simp] theorem State.withFetchWord_total (s : State) (nbits w : Nat) :
    (s.withFetchWord nbits w).total = s.total := rfl

@[simp] theorem State.withFetchWord_weight (s : State) (nbits w : Nat) :
    (s.withFetchWord nbits w).weight = s.weight := rfl

@[simp] theorem State.withFetchWord_updateRange (s : State) (nbits w : Nat) :
    (s.withFetchWord nbits w).updateRange = s.updateRange := rfl

@[simp] theorem State.withFetchWord_adaptive (s : State) (nbits w : Nat) :
    (s.withFetchWord nbits w).adaptive = s.adaptive := rfl

@[simp] theorem State.withFetchWord_rangeClear (s : State) (nbits w : Nat) :
    (s.withFetchWord nbits w).rangeClear = s.rangeClear := rfl

@[simp] theorem State.withFetchWord_runCount (s : State) (nbits w : Nat) :
    (s.withFetchWord nbits w).runCount = s.runCount := rfl

@[simp] theorem State.withFetchWord_bsSize (s : State) (nbits w : Nat) :
    (s.withFetchWord nbits w).bsSize = s.bsSize := rfl

@[simp] theorem State.withFetchWord_phase (s : State) (nbits w : Nat) :
    (s.withFetchWord nbits w).phase = s.phase := rfl

@[simp] theorem State.withFetchWord_modelValid (s : State) (nbits w : Nat) :
    (s.withFetchWord nbits w).modelValid = s.modelValid := rfl

@[simp] theorem State.withFetchWord_fault (s : State) (nbits w : Nat) :
    (s.withFetchWord nbits w).fault = s.fault := rfl

@[simp] theorem State.withFetchWord_faultCause (s : State) (nbits w : Nat) :
    (s.withFetchWord nbits w).faultCause = s.faultCause := rfl

@[simp] theorem State.withFetchWord_faultInfo (s : State) (nbits w : Nat) :
    (s.withFetchWord nbits w).faultInfo = s.faultInfo := rfl

@[simp] theorem State.withFetchWord_arg (s : State) (nbits w : Nat) :
    (s.withFetchWord nbits w).arg = s.arg := rfl

@[simp] theorem State.withFetchWord_result (s : State) (nbits w : Nat) :
    (s.withFetchWord nbits w).result = s.result := rfl

@[simp] theorem State.withFetchWord_bs (s : State) (nbits w : Nat) :
    (s.withFetchWord nbits w).bs = s.bs := rfl

@[simp] theorem State.withFetchWord_host (s : State) (nbits w : Nat) :
    (s.withFetchWord nbits w).host = .write 0 (tableWord nbits w) :: s.host := rfl

@[simp] theorem State.withFetchWord_hostData (s : State) (nbits w : Nat) :
    (s.withFetchWord nbits w).hostData = s.hostData := rfl

@[simp] theorem State.withFetchWord_draws (s : State) (nbits w : Nat) :
    (s.withFetchWord nbits w).draws = s.draws := rfl

/-! `State.raise`: every field but the fault record -/

@[simp] theorem State.raise_precision (s : State) (r : Raise) : (s.raise r).precision = s.precision := by
  cases h : s.fault <;> simp [State.raise, h]

@[simp] theorem State.raise_base (s : State) (r : Raise) : (s.raise r).base = s.base := by
  cases h : s.fault <;> simp [State.raise, h]

@[simp] theorem State.raise_length (s : State) (r : Raise) : (s.raise r).length = s.length := by
  cases h : s.fault <;> simp [State.raise, h]

@[simp] theorem State.raise_value (s : State) (r : Raise) : (s.raise r).value = s.value := by
  cases h : s.fault <;> simp [State.raise, h]

@[simp] theorem State.raise_bitCursor (s : State) (r : Raise) : (s.raise r).bitCursor = s.bitCursor := by
  cases h : s.fault <;> simp [State.raise, h]

@[simp] theorem State.raise_counts (s : State) (r : Raise) : (s.raise r).counts = s.counts := by
  cases h : s.fault <;> simp [State.raise, h]

@[simp] theorem State.raise_cumulative (s : State) (r : Raise) : (s.raise r).cumulative = s.cumulative := by
  cases h : s.fault <;> simp [State.raise, h]

@[simp] theorem State.raise_total (s : State) (r : Raise) : (s.raise r).total = s.total := by
  cases h : s.fault <;> simp [State.raise, h]

@[simp] theorem State.raise_weight (s : State) (r : Raise) : (s.raise r).weight = s.weight := by
  cases h : s.fault <;> simp [State.raise, h]

@[simp] theorem State.raise_updateRange (s : State) (r : Raise) : (s.raise r).updateRange = s.updateRange := by
  cases h : s.fault <;> simp [State.raise, h]

@[simp] theorem State.raise_adaptive (s : State) (r : Raise) : (s.raise r).adaptive = s.adaptive := by
  cases h : s.fault <;> simp [State.raise, h]

@[simp] theorem State.raise_rangeClear (s : State) (r : Raise) : (s.raise r).rangeClear = s.rangeClear := by
  cases h : s.fault <;> simp [State.raise, h]

@[simp] theorem State.raise_runCount (s : State) (r : Raise) : (s.raise r).runCount = s.runCount := by
  cases h : s.fault <;> simp [State.raise, h]

@[simp] theorem State.raise_bsSize (s : State) (r : Raise) : (s.raise r).bsSize = s.bsSize := by
  cases h : s.fault <;> simp [State.raise, h]

@[simp] theorem State.raise_phase (s : State) (r : Raise) : (s.raise r).phase = s.phase := by
  cases h : s.fault <;> simp [State.raise, h]

@[simp] theorem State.raise_modelValid (s : State) (r : Raise) : (s.raise r).modelValid = s.modelValid := by
  cases h : s.fault <;> simp [State.raise, h]

@[simp] theorem State.raise_arg (s : State) (r : Raise) : (s.raise r).arg = s.arg := by
  cases h : s.fault <;> simp [State.raise, h]

@[simp] theorem State.raise_result (s : State) (r : Raise) : (s.raise r).result = s.result := by
  cases h : s.fault <;> simp [State.raise, h]

@[simp] theorem State.raise_bs (s : State) (r : Raise) : (s.raise r).bs = s.bs := by
  cases h : s.fault <;> simp [State.raise, h]

@[simp] theorem State.raise_host (s : State) (r : Raise) : (s.raise r).host = s.host := by
  cases h : s.fault <;> simp [State.raise, h]

@[simp] theorem State.raise_hostData (s : State) (r : Raise) : (s.raise r).hostData = s.hostData := by
  cases h : s.fault <;> simp [State.raise, h]

@[simp] theorem State.raise_draws (s : State) (r : Raise) : (s.raise r).draws = s.draws := by
  cases h : s.fault <;> simp [State.raise, h]

@[simp] theorem State.raise_fault (s : State) (r : Raise) : (s.raise r).fault = true := by
  cases h : s.fault <;> simp [State.raise, h]

/-! The state after reset -/

@[simp] theorem State.afterReset_bs (d : Nat) (bs : Memory) (host : List Transaction) (w : Word) :
    (State.afterReset d bs host w).bs = bs := rfl

@[simp] theorem State.afterReset_host (d : Nat) (bs : Memory) (host : List Transaction) (w : Word) :
    (State.afterReset d bs host w).host = host := rfl

@[simp] theorem State.afterReset_phase (d : Nat) (bs : Memory) (host : List Transaction) (w : Word) :
    (State.afterReset d bs host w).phase = .reset := rfl

@[simp] theorem State.afterReset_fault (d : Nat) (bs : Memory) (host : List Transaction) (w : Word) :
    (State.afterReset d bs host w).fault = false := rfl

/-- The memory after reset is canonical. -/
theorem State.reset_wf : State.reset.bs.wf = true := rfl

end Sys2Proof.Machine
end

