-- ==== Sys2Proof/Laws/Stream.lean ====
section
/-! SUPPORT. The emitted bits as a number (43_interval_engine.md R135, R147): appending, emitting, and when a
carry is absorbed. -/

namespace Sys2Proof.Machine

theorem bitsFrom_append (bs : Memory) (lo n t : Nat) :
    bitsFrom bs lo (n + t) = bitsFrom bs lo n * 2 ^ t + bitsFrom bs (lo + n) t := by
  induction t with
  | zero => simp [bitsFrom]
  | succ t ih =>
    rw [← Nat.add_assoc, bitsFrom, ih, bitsFrom, Nat.pow_succ, Nat.add_assoc]
    ring

/-- The bits that `RenormEnc` emits, as a number: what `nb * 2^t` carries out of `p` bits (R142). -/
theorem bitsFrom_emitted {p nb t cur : Nat} {bs bs' : Memory} (hnb : nb < one p) (ht : t ≤ p - 1)
    (h : Emitted p nb t bs bs' cur) : bitsFrom bs' cur t = nb * 2 ^ t / one p := by
  have key : ∀ u, u ≤ t → bitsFrom bs' cur u = nb / 2 ^ (p - u) := by
    intro u
    induction u with
    | zero =>
      intro _
      rw [bitsFrom, Nat.sub_zero]
      exact (Nat.div_eq_of_lt hnb).symm
    | succ u ih =>
      intro hu
      rw [bitsFrom, ih (by omega), h.1 u (by omega), show p - u = (p - 1 - u) + 1 by omega, Nat.pow_succ,
        ← Nat.div_div_eq_div_mul, show p - (u + 1) = p - 1 - u by omega]
      omega
  have hone : one p = 2 ^ (p - t) * 2 ^ t := by
    unfold one
    rw [← Nat.pow_add]
    congr 1
    omega
  rw [key t (Nat.le_refl _), hone, Nat.mul_div_mul_right _ _ (Nat.two_pow_pos t)]

/-- Below a cursor there is a 0 bit that absorbs a carry, or there are ones alone (R140). -/
theorem absorbs_or_ones (bs : Memory) (cur : Nat) :
    (∃ z, AbsorbsCarry bs z cur) ∨ ∀ j, j < cur → bitAt bs j = 1 := by
  induction cur with
  | zero => exact .inr fun j hj => by omega
  | succ n ih =>
    have := bitAt_le_one bs n
    rcases (by omega : bitAt bs n = 0 ∨ bitAt bs n = 1) with h | h
    · exact .inl ⟨n, by omega, h, fun j a b => by omega⟩
    · rcases ih with ⟨z, h1, h2, h3⟩ | h1
      · refine .inl ⟨z, by omega, h2, fun j a b => ?_⟩
        rcases Nat.lt_or_ge j n with hj | hj
        · exact h3 j a hj
        · rw [show j = n by omega]
          exact h
      · refine .inr fun j hj => ?_
        rcases Nat.lt_or_ge j n with hj' | hj'
        · exact h1 j hj'
        · rw [show j = n by omega]
          exact h

theorem bitsFrom_ones (bs : Memory) (cur : Nat) (h : ∀ j, j < cur → bitAt bs j = 1) :
    bitsFrom bs 0 cur + 1 = 2 ^ cur := by
  induction cur with
  | zero => rfl
  | succ n ih =>
    have := ih fun j hj => h j (by omega)
    rw [bitsFrom, Nat.zero_add, h n (by omega), Nat.pow_succ]
    omega

theorem absorbs_of_lt {bs : Memory} {cur : Nat} (h : bitsFrom bs 0 cur + 1 < 2 ^ cur) :
    ∃ z, AbsorbsCarry bs z cur := by
  rcases absorbs_or_ones bs cur with h1 | h1
  · exact h1
  · have := bitsFrom_ones bs cur h1
    omega

/-- `RenormEnc` raises nothing but `BS_BOUNDS` (R141). -/
theorem renormEncLoop_cause {p cap room nb nl cur : Nat} {bs bs' : Memory} {r : Raise}
    (h : renormEncLoop p cap room nb nl cur bs = .raised r bs') : r.cause = .bsBounds := by
  induction room generalizing nb nl cur bs with
  | zero =>
    rw [renormEncLoop] at h
    split at h <;> cases h
    rfl
  | succ room ih =>
    rw [renormEncLoop] at h
    split at h
    · unfold setBit at h
      split at h
      · cases h
        rfl
      · exact ih h
    · cases h

/-- The carry of an addition that stays below the interval's upper end is absorbed, and the emitted bits
with the new base are the old ones plus the addend (R147). -/
theorem carryIf_absorbed {cap cur b m inc len : Nat} {bs : Memory} (hw : bs.wf = true) (hc : cap ≤ 2 ^ 32)
    (hcur : cur ≤ cap) (hb : b < m) (hinc : inc < len) (hlen : len ≤ m)
    (hs : bitsFrom bs 0 cur * m + b + len ≤ 2 ^ cur * m) :
    ∃ bs1, carryIf ((b + inc) % m < b) cap cur bs = .done () bs1 ∧ bs1.wf = true ∧
      bitsFrom bs1 0 cur * m + (b + inc) % m = bitsFrom bs 0 cur * m + b + inc := by
  unfold carryIf
  by_cases hwr : (b + inc) % m < b
  · rw [if_pos hwr]
    have hge : m ≤ b + inc := by
      by_contra hx
      rw [Nat.mod_eq_of_lt (by omega)] at hwr
      omega
    have hmod : (b + inc) % m = b + inc - m := by rw [Nat.mod_eq_sub_mod hge, Nat.mod_eq_of_lt (by omega)]
    have hlt : bitsFrom bs 0 cur + 1 < 2 ^ cur := by
      by_contra hx
      have : 2 ^ cur * m ≤ (bitsFrom bs 0 cur + 1) * m := Nat.mul_le_mul_right _ (by omega)
      rw [Nat.add_mul] at this
      omega
    obtain ⟨z, hz⟩ := absorbs_of_lt hlt
    obtain ⟨bs1, a1, a2, a3⟩ := carryWalk_absorbed (cur := cur) hw hc hcur hz
    refine ⟨bs1, a1, a2, ?_⟩
    rw [bitsFrom_carried hz a3, hmod, Nat.add_mul]
    omega
  · rw [if_neg hwr]
    refine ⟨bs, rfl, hw, ?_⟩
    have : (b + inc) % m = b + inc := by
      apply Nat.mod_eq_of_lt
      by_contra hx
      have hmod : (b + inc) % m = b + inc - m := by
        rw [Nat.mod_eq_sub_mod (by omega), Nat.mod_eq_of_lt (by omega)]
      omega
    rw [this]
    omega

end Sys2Proof.Machine
end

