-- ==== Sys2Proof/Tests/Slice0.lean ====
section
/-! SUPPORT. Tests of the model: decoding, ill-formed fields, one-step vectors, and a witness for the premises
of every obligation. Expected values come from 95_test_vectors.md (the section is named at each group) or
by hand from the rule named there. -/

namespace Sys2Proof.Machine.Tests

open Sys2Proof Sys2Proof.Machine

set_option Elab.async false

/-! ### Decoding: words written out from 30_encoding.md R84, 95_test_vectors.md 2.1 -/

theorem test_decode_construct : decode 0x01000010 = .ok (.construct 16) := by decide

theorem test_decode_mreset : decode 0x02000000 = .ok .mreset := by decide

theorem test_decode_madd : decode 0x03000061 = .ok (.madd 0x61) := by decide

theorem test_decode_rescale : decode 0x04000000 = .ok .rescale := by decide

theorem test_decode_runiform : decode 0x05000000 = .ok .runiform := by decide

theorem test_decode_getbit : decode 0x06000000 = .ok .getbit := by decide

theorem test_decode_setbit :
    decode 0x07000000 = .ok (.setbit false) ∧ decode 0x07000001 = .ok (.setbit true) := by decide

theorem test_decode_encInit : decode 0x08000000 = .ok .encInit := by decide

theorem test_decode_encode : decode 0x090000FF = .ok (.encode 0xFF) := by decide

theorem test_decode_flush : decode 0x0A000000 = .ok .flush := by decide

theorem test_decode_decInit : decode 0x0B000000 = .ok .decInit := by decide

theorem test_decode_decode : decode 0x0C000000 = .ok .decode := by decide

theorem test_decode_end : decode 0x0D000000 = .ok .endSession := by decide

theorem test_decode_illegal :
    decode 0x00000000 = .error .undefinedOpcode ∧ decode 0xFFFFFFFF = .error .undefinedOpcode ∧
    decode 0x0E000000 = .error .undefinedOpcode ∧ decode 0x09000100 = .error .reservedBits ∧
    decode 0x01800010 = .error .reservedBits ∧ decode 0x02000001 = .error .operandBits ∧
    decode 0x0C000061 = .error .operandBits ∧ decode 0x07000002 = .error .operandBits := by decide

theorem test_table_word :
    decodeTableWord 32 0x09000061 = some (.encode 0x61) ∧ decodeTableWord 32 0x02000001 = none := by decide

/-! ### Well-formedness: ill-formed fields for each check (30_encoding.md R81, R86) -/

theorem test_illformed_opcode :
    wellFormedFields 0x00 0 0 = false ∧ wellFormedFields 0x0E 0 0 = false := by decide

theorem test_illformed_reserved : wellFormedFields 0x09 1 0x61 = false := by decide

theorem test_illformed_operand_n : wellFormedFields 0x02 0 1 = false := by decide

theorem test_illformed_operand_v : wellFormedFields 0x07 0 2 = false := by decide

theorem test_wellformed :
    wellFormedFields 0x09 0 0xFF = true ∧ wellFormedFields 0x07 0 1 = true ∧
      (Instr.setbit true).wf = true := by decide

/-! ### Small states -/

/-- What `o` answers, tested by `f`. -/
def answers (o : Outcome) (f : State → Bool) : Bool :=
  match o with
  | .next t => f t
  | .fault _ => false
  | .refused _ => false

/-- The state that `o` answers, or the reset state. -/
def stateOf (o : Outcome) : State :=
  match o with
  | .next t => t
  | .fault _ => State.reset
  | .refused _ => State.reset

theorem next_of_answers {o : Outcome} {f : State → Bool} (h : answers o f = true) :
    o = .next (stateOf o) ∧ f (stateOf o) = true := by
  cases o with
  | next t => exact ⟨rfl, h⟩
  | fault r => cases h
  | refused r => cases h

/-- The table of 95_test_vectors.md P5: 0, 3, 6, 6, ..., 6. -/
def table3 : Table 257 := ((Table.fill 257 6).set 0 0).set 1 3

/-- Phase IDLE, `p = 3`, the model of P5, one byte of BS. -/
def idle3 : State := { State.reset with
  precision := 3, counts := Table.fill 256 1, cumulative := table3, phase := .idle, modelValid := true,
  bsSize := 1 }

/-- An encode session of P5 at `(base, length, bit_cursor)` over `bs`. -/
def enc3 (base length cursor : Word) (bs : Memory) : State :=
  { idle3 with phase := .enc, base := base, length := length, bitCursor := cursor, bs := bs }

/-- A decode session of P5 at `(value, length, bit_cursor)` over `bs`. -/
def dec3 (value length cursor : Word) (bs : Memory) : State :=
  { idle3 with phase := .dec, value := value, length := length, bitCursor := cursor, bs := bs }

/-- The table of 95_test_vectors.md 2.4 row 1: widths 146, and 9508 for `a`, `b`, `c`. -/
def tableAbc : Table 257 := Table.tabulate 257 fun i =>
  if i ≤ 0x61 then BitVec.ofNat 32 (146 * i)
  else if i ≤ 0x64 then BitVec.ofNat 32 (14162 + 9508 * (i - 0x61))
  else BitVec.ofNat 32 (42686 + 146 * (i - 0x64))

/-- The counts of that row. -/
def countsAbc : Table 256 := (((Table.fill 256 1).set 0x61 65).set 0x62 65).set 0x63 65

/-- Phase IDLE, `p = 16`, the model of that row, `n` bytes of BS. -/
def idle16 (n : BitVec 29) : State := { State.reset with
  counts := countsAbc, cumulative := tableAbc, total := 192, phase := .idle, modelValid := true, bsSize := n }

/-- BS = `40 B9`. -/
def bs40B9 : Memory := [(0, 0x40), (1, 0xB9)]

/-! ### One step of each command -/

/-- 2.2: after reset, `CONSTRUCT 16`. -/
theorem test_construct : answers (step (State.reset.withFetchWord 32 0x01000010)) (fun t =>
    t.precision == 16 && t.counts == Table.fill 256 1 && t.statusWord == 1 && t.host == []) = true := by
  decide +kernel

/-- 2.2: after reset, `CONSTRUCT 32`. -/
theorem test_construct_faults : answers (step (State.reset.withFetchWord 32 0x01000020)) (fun t =>
    t.statusWord == 4 && t.faultCause == 3 && t.faultInfo == 32 && t.precision == 16) = true := by
  decide +kernel

/-- 2.2: DEC, `END`. -/
theorem test_end : answers (exec .endSession (dec3 1 4 3 [])) (fun t =>
    t.statusWord == 9 && t.value == 1 && t.length == 4 && t.bitCursor == 3) = true := by decide +kernel

/-- 2.4: `MRESET`. -/
theorem test_mreset : answers (exec .mreset (idle16 8)) (fun t =>
    t.counts == Table.fill 256 1 && t.total == 0 && t.cumulative == tableAbc && t.modelValid) = true := by
  decide +kernel

/-- E3: `MADD 'a'` with the reset weight 16. -/
theorem test_madd : answers (exec (.madd 0x61) { idle3 with weight := 16 }) (fun t =>
    t.counts.get 0x61 == 17 && t.counts.get 0x62 == 1 && t.total == 16) = true := by decide +kernel

/-- 2.4: `weight = 0xFFFFFFFF`, `MADD 0` overflows. -/
theorem test_madd_faults : answers (exec (.madd 0) { idle3 with weight := 0xFFFFFFFF }) (fun t =>
    t.faultCause == 7 && t.faultInfo == 0 && t.counts.get 0 == 1) = true := by decide +kernel

/-- 2.4 row 1: `RESCALE`. -/
theorem test_rescale : answers (exec .rescale { idle16 8 with cumulative := Table.fill 257 0 }) (fun t =>
    t.cumulative == tableAbc && t.modelValid && t.counts == countsAbc) = true := by decide +kernel

/-- 2.4 last row: `WR TOTAL, 0`, then `RESCALE` raises `MODEL_SUM(114688)`. -/
theorem test_rescale_faults : answers (exec .rescale { idle16 8 with total := 0 }) (fun t =>
    t.faultCause == 6 && t.faultInfo == 114688 && t.cumulative == tableAbc) = true := by decide +kernel

/-- E2 row 16. -/
theorem test_runiform : answers (exec .runiform (idle16 8)) (fun t =>
    t.cumulative == Table.tabulate 257 (fun i => BitVec.ofNat 32 (256 * i)) && t.total == 0) = true := by
  decide +kernel

/-- 2.5: `WR ARG, 8`; `GETBIT`. -/
theorem test_getbit : answers (exec .getbit { idle16 2 with bs := bs40B9, arg := 8 }) (fun t =>
    t.result == 1 && t.bs == bs40B9) = true := by decide +kernel

/-- 2.5: `WR ARG, 16`; `GETBIT`. -/
theorem test_getbit_faults : answers (exec .getbit { idle16 2 with bs := bs40B9, arg := 16 }) (fun t =>
    t.result == 0 && t.faultCause == 8 && t.faultInfo == 16) = true := by decide +kernel

/-- 2.5: `WR ARG, 9`; `SETBIT 1`. -/
theorem test_setbit : answers (exec (.setbit true) { idle16 2 with bs := bs40B9, arg := 9 }) (fun t =>
    t.bs == [(0, 0x40), (1, 0xF9)] && !t.fault) = true := by decide +kernel

/-- 2.5: `WR ARG, 15`; `SETBIT 0`. -/
theorem test_setbit_clears : answers (exec (.setbit false) { idle16 2 with bs := bs40B9, arg := 15 })
    (fun t => t.bs == [(0, 0x40), (1, 0xB8)]) = true := by decide +kernel

/-- 2.7: `ENC_INIT`, static. -/
theorem test_encInit : answers (exec .encInit (idle16 8)) (fun t =>
    t.base == 0 && t.length == 65535 && t.bitCursor == 0 && t.statusWord == 0xA) = true := by decide +kernel

/-- 2.9: `ENC_INIT` in adaptive mode with `update_range = 0`. -/
theorem test_encInit_faults : answers (exec .encInit { idle16 8 with adaptive := true }) (fun t =>
    t.faultCause == 4 && t.faultInfo == 0 && t.phase == .idle) = true := by decide +kernel

/-- P1 row 1: `ENCODE 'a'` from (0, 65535, 0). -/
theorem test_encode : answers (exec (.encode 0x61) { idle16 8 with
    phase := .enc, length := 65535, bs := [(0, 0xFF)] }) (fun t =>
      t.base == 56644 && t.length == 38032 && t.bitCursor == 2 && t.bs == [(0, 0x3F)]) = true := by decide +kernel

/-- P1 row 3: `ENCODE 'a'` with a carry, BS `38` becomes `40`. -/
theorem test_encode_carries : answers (exec (.encode 0x61) { idle16 8 with
    phase := .enc, base := 60144, length := 44144, bitCursor := 5, bs := [(0, 0x38)] }) (fun t =>
      t.base == 33176 && t.length == 51232 && t.bitCursor == 8 && t.bs == [(0, 0x40)]) = true := by
  decide +kernel

/-- P1 step 30: `FLUSH`. -/
theorem test_flush : answers (exec .flush { idle16 8 with
    phase := .enc, base := 28024, length := 48952, bitCursor := 33, bs := [(4, 0x80)] }) (fun t =>
      t.base == 46560 && t.length == 65532 && t.bitCursor == 35 && t.result == 35 &&
        t.bs == [(4, 0xC0)] && t.phase == .idle) = true := by decide +kernel

/-- 2.7 last row: `FLUSH` with a carry. -/
theorem test_flush_carries : answers (exec .flush { idle16 8 with
    phase := .enc, base := 56644, length := 38032, bitCursor := 2, bs := [(0, 0)] }) (fun t =>
      t.base == 29968 && t.result == 4 && t.bs == [(0, 0x40)]) = true := by decide +kernel

/-- 2.8 row 1: `DEC_INIT`. -/
theorem test_decInit : answers (exec .decInit { idle16 2 with bs := bs40B9 }) (fun t =>
    t.value == 16569 && t.length == 65535 && t.bitCursor == 15 && t.statusWord == 0xB) = true := by
  decide +kernel

/-- 2.8: `bs_size = 1`, `DEC_INIT`. -/
theorem test_decInit_faults : answers (exec .decInit (idle16 1)) (fun t =>
    t.faultCause == 8 && t.faultInfo == 8 && t.phase == .idle) = true := by decide +kernel

/-- 2.8 row 2: `DECODE`. -/
theorem test_decode_symbol : answers (exec .decode { idle16 7 with
    phase := .dec, value := 16569, length := 65535, bitCursor := 15, bs := [(0, 0x40), (1, 0xB9), (2, 0x1A)] })
    (fun t => t.result == 0x61 && t.value == 9632 && t.length == 38032 && t.bitCursor == 17) = true := by
  decide +kernel

/-- 2.8: the smallest faulting value. -/
theorem test_decode_faults : answers (exec .decode { idle16 7 with
    phase := .dec, value := 65461, length := 65535, bitCursor := 15 }) (fun t =>
      t.faultCause == 10 && t.faultInfo == 65461 && t.result == 0) = true := by decide +kernel

/-! ### The ports and the micro-operations -/

/-- 2.3: `WR MODE, 0xFFFFFFFF`; `RD MODE` reads 3. -/
theorem test_mode_register : answers (step { idle3 with host := [.write 7 0xFFFFFFFF] }) (fun t =>
    t.modeWord == 3 && t.adaptive && t.rangeClear) = true := by decide +kernel

/-- 2.3: `WR PRECISION, 12` raises `ACCESS(0x018)`. -/
theorem test_access : answers (step { idle3 with host := [.write 6 12] }) (fun t =>
    t.faultCause == 11 && t.faultInfo == 0x18 && t.precision == 3) = true := by decide +kernel

/-- 2.3: `RD COUNTS[0x61]` is offset 0x584, `RD CUMUL[256]` offset 0xC00. -/
theorem test_table_reads :
    answers (step { idle16 8 with host := [.read 0x161] }) (fun t => t.hostData == 65) = true ∧
      answers (step { idle16 8 with host := [.read 0x300] }) (fun t => t.hostData == 65462) = true := by
  decide +kernel

/-- 2.6: `Carry(19)` on `A7 FF E0`. -/
theorem test_carry : carry 24 19 [(0, 0xA7), (1, 0xFF), (2, 0xE0)] = .done () [(0, 0xA8), (1, 0), (2, 0)] := by
  decide +kernel

/-- 2.6: `Carry(8)` on `FF`. -/
theorem test_carry_underrun : carry 8 8 [(0, 0xFF)] = .raised ⟨.carryUnderrun, 8⟩ [(0, 0)] := by decide +kernel

/-- 2.6: `RenormEnc` at `p = 8`. -/
theorem test_renormEnc : renormEnc 8 64 170 3 4 [(0, 0), (1, 0)] = .done (128, 192, 10) [(0, 0x0A), (1, 0x80)] := by
  decide +kernel

/-- 2.6: `RenormDec` at `p = 8`. -/
theorem test_renormDec : renormDec 8 64 1 1 7 [(1, 0xFF)] = .done (255, 128, 14) [(1, 0xFF)] := by
  decide +kernel

/-- P3 rescale 1: the fourth symbol `a` ends a period of 4; the table is rebuilt with `den = 260`. -/
theorem test_adaptUpdate : answers (concludePure State.reset (adaptUpdate 0x61 { idle16 16 with
    counts := (((Table.fill 256 1).set 0x61 2).set 0x62 2).set 0x72 2, total := 3, runCount := 3,
    updateRange := 4, adaptive := true, rangeClear := true })) (fun t =>
      t.cumulative.get 0x61 == 24444 && t.cumulative.get 0x62 == 25200 && t.cumulative.get 0x73 == 29988 &&
        t.cumulative.get 256 == 65520 && t.counts == Table.fill 256 1 && t.total == 0 && t.runCount == 0)
    = true := by decide +kernel

/-! ### Witnesses: the premises of each obligation are met -/

theorem table3_valid : TableValid 3 table3 := by
  unfold TableValid
  decide +kernel

/-- EncodeInvertsDecode. -/
theorem witness_encode_inverts : decode 0x0D000000 = .ok .endSession := by decide

/-- IllegalWordsAreThoseOfTheFields: each way of being illegal, and none. -/
theorem witness_illegal : State.reset.fault = false ∧
    opField 0x00FFFFFF = 0 ∧ 0x0E ≤ (opField 0x0E000000).toNat ∧ rsvField 0x01800010 ≠ 0 ∧
    ((opField 0x0D000001).toNat ∈ [0x02, 0x04, 0x05, 0x06, 0x08, 0x0A, 0x0B, 0x0C, 0x0D] ∧
      imm8Field 0x0D000001 ≠ 0) ∧
    ((opField 0x07000002).toNat = 0x07 ∧ 2 ≤ (imm8Field 0x07000002).toNat) ∧
    ¬ (opField 0x07000001 = 0 ∨ 0x0E ≤ (opField 0x07000001).toNat ∨ rsvField 0x07000001 ≠ 0 ∨
        ((opField 0x07000001).toNat ∈ [0x02, 0x04, 0x05, 0x06, 0x08, 0x0A, 0x0B, 0x0C, 0x0D] ∧
          imm8Field 0x07000001 ≠ 0) ∨
        ((opField 0x07000001).toNat = 0x07 ∧ 2 ≤ (imm8Field 0x07000001).toNat)) := by decide

/-- StepRunsTheDecodedCommand. -/
theorem witness_step : (State.reset.withFetchWord 32 0x01000010).host = [.write 0 0x01000010] ∧
    decode 0x01000010 = .ok (.construct 16) := by decide

/-- CommandChecksInOrder, IllegalPhaseRaisesSequence, FaultedMachineIgnoresCommands: each clause. -/
theorem witness_checks :
    ((idle3.faulted 8 0).fault = true ∧ decode 0x02000000 ≠ .ok (.construct 0) ∧
      decode 0x02000000 = .ok .mreset) ∧
    (idle3.fault = false ∧ decode 0x02000001 = .error .operandBits) ∧
    (State.reset.fault = false ∧ State.reset.phase ∉ phasesOf .mreset) ∧
    (idle3.fault = false ∧ idle3.phase ∈ phasesOf .mreset) ∧
    ((idle3.faulted 8 0).phase ∈ phasesOf (.construct 16)) := by decide

/-- RaiseKeepsTheFirstFault. -/
theorem witness_raise : idle3.fault = false ∧ (idle3.faulted 8 0).fault = true := by decide

/-- ConstructMakesACoderState: 3 and 31 are legal, 2 and 32 are not. -/
theorem witness_construct : (3 ≤ (3 : Byte).toNat ∧ (3 : Byte).toNat ≤ 31) ∧
    (3 ≤ (31 : Byte).toNat ∧ (31 : Byte).toNat ≤ 31) ∧ (2 : Byte).toNat < 3 ∧ 31 < (32 : Byte).toNat ∧
    idle3.fault = false ∧ (idle3.faulted 8 0).fault = true := by decide

/-- EndOnlyLeavesTheSession. -/
theorem witness_end : (idle3.fault = false ∧ idle3.phase = .idle) ∧ (enc3 0 7 0 []).phase = .enc ∧
    (dec3 0 7 2 []).phase = .dec ∧ (State.reset.fault = false ∧ State.reset.phase = .reset) := by decide

/-- MresetSetsAllCountsToOne; and RuniformYieldsTheUniformTable at `p = 8` and `p = 7`. -/
theorem witness_idle : idle3.fault = false ∧ idle3.phase = .idle ∧
    8 ≤ ({ idle3 with precision := 8 } : State).p ∧ ({ idle3 with precision := 7 } : State).p ≤ 7 := by decide

/-- MaddAddsTheWeightOrFaults: the largest sums that fit, and either sum one too large. -/
theorem witness_madd : idle3.fault = false ∧ idle3.phase = .idle ∧
    ((idle3.counts.get 0).toNat + (0xFFFFFFFE : Word).toNat ≤ 2 ^ 32 - 1 ∧
      (1 : Word).toNat + (0xFFFFFFFE : Word).toNat ≤ 2 ^ 32 - 1) ∧
    2 ^ 32 - 1 < (idle3.counts.get 0).toNat + (0xFFFFFFFF : Word).toNat ∧
    2 ^ 32 - 1 < (2 : Word).toNat + (0xFFFFFFFE : Word).toNat := by decide +kernel

/-- RescaleCommitsThePrefixSums: a sum equal to `2^p`, and one above it. -/
theorem witness_rescale : idle3.fault = false ∧ idle3.phase = .idle ∧
    widthsBelow 8 0 (Table.fill 256 1) 256 = 2 ^ 8 ∧
    2 ^ 16 < widthsBelow 16 0 countsAbc 256 := by decide +kernel

/-- RescaledTableIsNormalised. -/
theorem witness_normalised : (∃ t, rescaleModel 192 (idle16 8) = .ok t) ∧
    192 + 256 = (idle16 8).counts.sum ∧ (idle16 8).counts.sum ≤ 192 + 256 := by
  refine ⟨?_, by decide +kernel, by decide +kernel⟩
  have h : answers (concludePure State.reset (rescaleModel 192 (idle16 8))) (fun t => !t.fault) = true := by
    decide +kernel
  cases he : rescaleModel 192 (idle16 8) with
  | ok t => exact ⟨t, rfl⟩
  | error r =>
    rw [he] at h
    have h2 := (next_of_answers h).2
    simp [concludePure, stateOf, State.raise, State.reset, State.afterReset] at h2

/-- GetbitReadsTheAddressedBit, SetbitWritesOneBit: the last index in bounds, and the first beyond. -/
theorem witness_bits : idle3.fault = false ∧ idle3.phase = .idle ∧ idle3.bs.wf = true ∧
    (7 : Word).toNat < 8 * idle3.bsSize.toNat ∧ 8 * idle3.bsSize.toNat ≤ (8 : Word).toNat := by decide

/-- BitBufferLaws. -/
theorem witness_buffer : Memory.wf [(0, 0x80)] = true ∧ 1 ≤ 1 ∧ 7 < 8 ∧ 0 < 8 ∧ 0 ≠ 7 := by decide

/-- ScaleProperties: a valid table; `c = 2^p`. -/
theorem witness_scale : TableValid 3 table3 ∧ 3 ≤ 6 ∧ 8 ≤ 2 ^ 3 := ⟨table3_valid, by decide, by decide⟩

/-- CarryAddsOneToTheEmittedBits: a 0 bit at index 1 below 5 (BS `38`), and ones alone up to the end of BS. -/
theorem witness_carry : Memory.wf [(0, 0x38)] = true ∧ 8 ≤ 2 ^ 32 - 8 ∧ 5 ≤ 8 ∧
    AbsorbsCarry [(0, 0x38)] 1 5 ∧ Memory.wf [(0, 0xFF)] = true ∧
    ∀ j, j < 8 → bitAt [(0, 0xFF)] j = 1 := by
  refine ⟨by decide, by decide, by decide, ⟨by decide, by decide, fun j h1 h2 => ?_⟩, by decide, by decide⟩
  rcases (by omega : j = 2 ∨ j = 3 ∨ j = 4) with rfl | rfl | rfl <;> decide

/-- RenormEncClosedForm: its range of lengths, at `p = 1` too, with and without room. -/
theorem witness_renormEnc : (1 ≤ 3 ∧ Memory.wf [] = true ∧ 8 ≤ 2 ^ 32 - 8 ∧ 7 < 2 ^ 3 ∧ 1 ≤ 1 ∧ 1 < 2 ^ 3 ∧
      6 ≤ 8) ∧ (1 ≤ 1 ∧ 1 < 2 ^ 1) ∧ RenormSteps 3 1 2 ∧ 6 + 2 ≤ 8 ∧ 8 < 7 + 2 := by
  unfold RenormSteps
  decide

/-- RenormDecShiftsBitsIn: no step, and steps up to the last index in bounds. -/
theorem witness_renormDec : (1 ≤ 3 ∧ 7 < 2 ^ 3 ∧ 1 ≤ 4 ∧ 4 < 2 ^ 3) ∧ RenormSteps 3 4 0 ∧
    RenormSteps 3 1 2 ∧ 5 + 2 < 8 := by
  unfold RenormSteps
  decide

/-- WidthTwoIsAlwaysEncodable. -/
theorem witness_width : 1 ≤ 8 ∧ 2 ^ (8 - 1) ≤ 128 ∧ 1 + 2 ≤ 3 ∧ 1 ≤ 3 := by decide

/-- EncInitStartsAStaticSession, DecInitFillsTheCodeValue: with a model, without, with `p` bits and fewer. -/
theorem witness_static : idle3.fault = false ∧ idle3.phase = .idle ∧ idle3.adaptive = false ∧
    idle3.modelValid = true ∧ ({ idle3 with modelValid := false } : State).modelValid = false ∧
    ({ idle3 with precision := 8 } : State).p ≤ 8 * idle3.bsSize.toNat ∧
    8 * idle3.bsSize.toNat < ({ idle3 with precision := 9 } : State).p := by decide

/-- AdaptiveSessionStartsUniform: `update_range` 0 and 1, `p` 7, 8, 9 against one byte of BS. -/
theorem witness_adaptive : ({ idle3 with adaptive := true } : State).adaptive = true ∧
    idle3.updateRange = 0 ∧ (1 : Word) ≠ 0 ∧ 8 ≤ ({ idle3 with precision := 8 } : State).p ∧
    ({ idle3 with precision := 7 } : State).p ≤ 7 ∧
    ({ idle3 with precision := 8 } : State).p ≤ 8 * idle3.bsSize.toNat ∧
    8 * idle3.bsSize.toNat < ({ idle3 with precision := 9 } : State).p := by decide

/-- The bounds of symbol 0 in `enc3 base 7 _ _`: 0 and 2, so `nl = 2` and one step (P5 step 6). -/
theorem steps_two : RenormSteps 3 2 1 := by
  unfold RenormSteps
  decide

/-- EncodeNarrowsAndEmits in static mode (P5 step 6), with the last bit of BS free. -/
theorem witness_encode : (enc3 0 7 7 []).fault = false ∧ (enc3 0 7 7 []).phase = .enc ∧
    (enc3 0 7 7 []).bs.wf = true ∧ 7 * (table3.get 0).toNat / 2 ^ 3 = 0 ∧
    7 * (table3.get 1).toNat / 2 ^ 3 = 2 ∧ 0 < 2 ∧ 2 - 0 < 2 ^ 3 ∧ 1 ≤ (enc3 0 7 7 []).p ∧ 0 + 0 < 2 ^ 3 ∧
    RenormSteps 3 (2 - 0) 1 ∧ 7 + 1 ≤ 8 * (enc3 0 7 7 []).bsSize.toNat ∧
    (enc3 0 7 7 []).adaptive = false := by
  refine ⟨by decide, by decide, by decide, by decide +kernel, by decide +kernel, by decide, by decide,
    by decide, by decide, steps_two, by decide, by decide⟩

/-- The adaptive clause of EncodeNarrowsAndEmits, EncodeCarriesOnWrap and DecodeReturnsTheSymbol. -/
theorem witness_adaptive_update : ∃ m, adaptUpdate 0 { enc3 0 7 7 [] with
    adaptive := true, updateRange := 2 } = .ok m := by
  rcases adaptUpdate_cases 0 { enc3 0 7 7 [] with adaptive := true, updateRange := 2 } with
    ⟨h, -⟩ | ⟨-, -, ⟨-, h⟩ | ⟨h, -⟩⟩
  · exact absurd h (by decide +kernel)
  · exact ⟨_, h⟩
  · exact absurd h (by decide)

/-- EncodeCarriesOnWrap: base 7, length 7, symbol 1 has bounds 2 and 5, `7 + 2` wraps to 1, and the one
emitted bit is 0. -/
theorem witness_wrap : (enc3 7 7 1 [(0, 0)]).fault = false ∧ (enc3 7 7 1 [(0, 0)]).phase = .enc ∧
    (enc3 7 7 1 [(0, 0)]).bs.wf = true ∧ 7 * (table3.get 1).toNat / 2 ^ 3 = 2 ∧
    7 * (table3.get 2).toNat / 2 ^ 3 = 5 ∧ 2 < 5 ∧ 5 - 2 < 2 ^ 3 ∧ (7 + 2) % 2 ^ 3 = 1 ∧ 1 < 7 ∧
    AbsorbsCarry [(0, 0)] 0 1 ∧ RenormSteps 3 (5 - 2) 1 ∧ 1 + 1 ≤ 8 * (enc3 7 7 1 [(0, 0)]).bsSize.toNat := by
  refine ⟨by decide, by decide, by decide, by decide +kernel, by decide +kernel, by decide, by decide,
    by decide, by decide, ⟨by decide, by decide, fun j h1 h2 => by omega⟩, ?_, by decide⟩
  unfold RenormSteps
  decide

/-- DegenerateSymbolFaultsCleanly: symbol 2 has no width (P5). -/
theorem witness_degenerate : (enc3 0 7 0 []).fault = false ∧ (enc3 0 7 0 []).phase = .enc ∧
    7 * (table3.get 3).toNat / 2 ^ 3 ≤ 7 * (table3.get 2).toNat / 2 ^ 3 := by decide +kernel

/-- FlushEmitsExactlyTwoBits: no wrap and a wrap, with room for exactly two bits. -/
theorem witness_flush : (enc3 0 4 6 [(0, 0)]).fault = false ∧ (enc3 0 4 6 [(0, 0)]).phase = .enc ∧
    (enc3 0 4 6 [(0, 0)]).bs.wf = true ∧ 3 ≤ (enc3 0 4 6 [(0, 0)]).p ∧ (0 + 2 ^ (3 - 2)) % 2 ^ 3 = 2 ∧
    6 + 2 ≤ 8 * (enc3 0 4 6 [(0, 0)]).bsSize.toNat ∧ 0 ≤ 2 ∧ (7 + 2 ^ (3 - 2)) % 2 ^ 3 = 1 ∧ 1 < 7 ∧
    AbsorbsCarry [(0, 0)] 5 6 := by
  refine ⟨by decide, by decide, by decide, by decide, by decide, by decide, by decide, by decide, by decide,
    by decide, by decide, fun j h1 h2 => by omega⟩

/-- CarryUnderrunFaults: the host has filled BS with ones (95_test_vectors.md 2.10); `ENCODE 1` and `FLUSH`
wrap from base 7. -/
theorem witness_underrun : (enc3 7 7 8 [(0, 0xFF)]).fault = false ∧ (enc3 7 7 8 [(0, 0xFF)]).phase = .enc ∧
    (enc3 7 7 8 [(0, 0xFF)]).bs.wf = true ∧ 8 ≤ 8 * (enc3 7 7 8 [(0, 0xFF)]).bsSize.toNat ∧
    (∀ j, j < 8 → bitAt [(0, 0xFF)] j = 1) ∧
    lowBound 1 (enc3 7 7 8 [(0, 0xFF)]) < highBound 1 (enc3 7 7 8 [(0, 0xFF)]) ∧
    (7 + lowBound 1 (enc3 7 7 8 [(0, 0xFF)])) % 2 ^ 3 < 7 ∧ (7 + 2 ^ (3 - 2)) % 2 ^ 3 < 7 := by
  decide +kernel

theorem steps_two_of_one : RenormSteps 3 1 2 := by
  refine ⟨by decide, fun u hu => ?_⟩
  rcases (by omega : u = 0 ∨ u = 1) with rfl | rfl <;> decide

theorem steps_one_of_three : RenormSteps 3 3 1 := by
  refine ⟨by decide, fun u hu => ?_⟩
  rw [show u = 0 by omega]
  decide

/-- A zero byte absorbs a carry at the bit just below the cursor. -/
theorem absorbs_zero_byte : AbsorbsCarry [(0, 0)] 7 8 ∧ AbsorbsCarry [(0, 0)] 6 7 ∧
    AbsorbsCarry [(0, 0)] 0 1 :=
  ⟨⟨by decide, by decide +kernel, fun j h1 h2 => by omega⟩,
    ⟨by decide, by decide +kernel, fun j h1 h2 => by omega⟩,
    ⟨by decide, by decide +kernel, fun j h1 h2 => by omega⟩⟩

/-- CapacityExhaustionFaults: two bits are to be emitted and one fits; after a carry, BS is full. -/
theorem witness_capacity : (enc3 0 4 7 []).fault = false ∧ (enc3 0 4 7 []).phase = .enc ∧
    (enc3 0 4 7 []).bs.wf = true ∧ 4 * (table3.get 0).toNat / 2 ^ 3 = 0 ∧
    4 * (table3.get 1).toNat / 2 ^ 3 = 1 ∧ RenormSteps 3 (1 - 0) 2 ∧ (0 + 0) % 2 ^ 3 = 0 ∧
    7 ≤ 8 * (enc3 0 4 7 []).bsSize.toNat ∧ 8 * (enc3 0 4 7 []).bsSize.toNat < 7 + 2 ∧
    7 * (table3.get 1).toNat / 2 ^ 3 = 2 ∧ 7 * (table3.get 2).toNat / 2 ^ 3 = 5 ∧
    RenormSteps 3 (5 - 2) 1 ∧ (7 + 2) % 2 ^ 3 = 1 ∧ 1 < 7 ∧ (enc3 7 7 8 [(0, 0)]).bs.wf = true ∧
    AbsorbsCarry [(0, 0)] 7 8 ∧ 8 * (enc3 7 7 8 [(0, 0)]).bsSize.toNat < 8 + 1 := by
  refine ⟨by decide, by decide, by decide, by decide +kernel, by decide +kernel, steps_two_of_one,
    by decide, by decide, by decide, by decide +kernel, by decide +kernel, steps_one_of_three, by decide,
    by decide, by decide, absorbs_zero_byte.1, by decide⟩

/-- FlushWithoutRoomFaults: one bit fits, without and after a carry. -/
theorem witness_flush_room : (enc3 0 7 7 []).fault = false ∧ (enc3 0 7 7 []).phase = .enc ∧
    (enc3 0 7 7 []).bs.wf = true ∧ 3 ≤ (enc3 0 7 7 []).p ∧ (0 + 2 ^ (3 - 2)) % 2 ^ 3 = 2 ∧
    7 ≤ 8 * (enc3 0 7 7 []).bsSize.toNat ∧ 8 * (enc3 0 7 7 []).bsSize.toNat < 7 + 2 ∧
    (7 + 2 ^ (3 - 2)) % 2 ^ 3 = 1 ∧ 1 < 7 ∧ (enc3 7 7 7 [(0, 0)]).bs.wf = true ∧
    AbsorbsCarry [(0, 0)] 6 7 := by
  refine ⟨by decide, by decide, by decide, by decide, by decide, by decide, by decide, by decide, by decide,
    by decide, absorbs_zero_byte.2.1⟩

/-- SearchFindsTheOneSymbol: the largest value in range (4) and the smallest out of range (5). -/
theorem witness_search : TableValid (dec3 4 7 2 []).p (dec3 4 7 2 []).cumulative ∧
    (dec3 4 7 2 []).value.toNat < scaledBound (dec3 4 7 2 []) 256 ∧
    scaledBound (dec3 5 7 2 []) 256 ≤ (dec3 5 7 2 []).value.toNat :=
  ⟨table3_valid, by decide +kernel, by decide +kernel⟩

/-- DecodeReturnsTheSymbol: symbol 0 (P5 step 12), its one bit the last of BS. -/
theorem witness_decode : (dec3 0 7 6 []).fault = false ∧ (dec3 0 7 6 []).phase = .dec ∧
    TableValid (dec3 0 7 6 []).p (dec3 0 7 6 []).cumulative ∧ 1 ≤ (dec3 0 7 6 []).p ∧
    (dec3 0 7 6 []).length.toNat < 2 ^ 3 ∧ 0 < 256 ∧ 7 * (table3.get 0).toNat / 2 ^ 3 = 0 ∧
    7 * (table3.get 1).toNat / 2 ^ 3 = 2 ∧ 0 ≤ 0 ∧ 0 < 2 ∧ RenormSteps 3 (2 - 0) 1 ∧
    6 + 1 < 8 * (dec3 0 7 6 []).bsSize.toNat ∧ (dec3 0 7 6 []).adaptive = false := by
  refine ⟨by decide, by decide, table3_valid, by decide, by decide, by decide, by decide +kernel,
    by decide +kernel, by decide, by decide, steps_two, by decide, by decide⟩

/-- DecodeFaultsCleanly: the smallest value out of range, and a bit needed at the end of BS. -/
theorem witness_decode_faults : (dec3 5 7 7 []).fault = false ∧ (dec3 5 7 7 []).phase = .dec ∧
    7 * (table3.get 256).toNat / 2 ^ 3 ≤ 5 ∧ TableValid 3 table3 ∧ 7 * (table3.get 0).toNat / 2 ^ 3 = 0 ∧
    7 * (table3.get 1).toNat / 2 ^ 3 = 2 ∧ RenormSteps 3 (2 - 0) 1 ∧ 1 ≤ 1 ∧
    7 < 8 * (dec3 0 7 7 []).bsSize.toNat ∧ 8 * (dec3 0 7 7 []).bsSize.toNat ≤ 7 + 1 := by
  refine ⟨by decide, by decide, by decide +kernel, table3_valid, by decide +kernel, by decide +kernel,
    steps_two, by decide, by decide, by decide⟩

/-- CountOverflowOfACodedSymbolFaults: symbol 0 of P5 with `total` full, symbol 1 after a carry with its
count full, and the decoder. -/
theorem witness_overflow :
    7 * (table3.get 0).toNat / 2 ^ 3 = 0 ∧ 7 * (table3.get 1).toNat / 2 ^ 3 = 2 ∧
    7 * (table3.get 2).toNat / 2 ^ 3 = 5 ∧ RenormSteps 3 (2 - 0) 1 ∧ RenormSteps 3 (5 - 2) 1 ∧
    ({ enc3 0 7 7 [] with adaptive := true, total := 0xFFFFFFFF } : State).total.toNat = 2 ^ 32 - 1 ∧
    7 + 1 ≤ 8 * (enc3 0 7 7 []).bsSize.toNat ∧ (7 + 2) % 2 ^ 3 = 1 ∧ AbsorbsCarry [(0, 0)] 0 1 ∧
    (({ enc3 7 7 1 [(0, 0)] with adaptive := true, counts := Table.fill 256 0xFFFFFFFF } :
      State).counts.get 1).toNat = 2 ^ 32 - 1 ∧
    ({ dec3 0 7 6 [] with adaptive := true, total := 0xFFFFFFFF } : State).phase = .dec ∧
    6 + 1 < 8 * (dec3 0 7 6 []).bsSize.toNat := by
  refine ⟨by decide +kernel, by decide +kernel, by decide +kernel, steps_two, steps_one_of_three, by decide,
    by decide, by decide, absorbs_zero_byte.2.2, by decide +kernel, by decide, by decide⟩

/-- AdaptUpdateFollowsItsRule: each overflow, inside a period, at its end under both policies, and a sum
above `2^p`. -/
theorem witness_adaptUpdate :
    (((Table.fill 256 1).set 0 0xFFFFFFFF : Table 256).get 0).toNat = 2 ^ 32 - 1 ∧
    (0xFFFFFFFF : Word).toNat = 2 ^ 32 - 1 ∧ (idle3.counts.get 0).toNat ≠ 2 ^ 32 - 1 ∧
    idle3.total.toNat ≠ 2 ^ 32 - 1 ∧ (0 : Word).toNat + 1 ≠ (2 : Word).toNat ∧
    (1 : Word).toNat + 1 = (2 : Word).toNat ∧
    widthsBelow 3 (0 + 1) ((Table.fill 256 1).set 0 2) 256 ≤ 2 ^ 3 ∧ idle3.rangeClear = false ∧
    ({ idle3 with rangeClear := true } : State).rangeClear = true ∧
    2 ^ 3 < widthsBelow 3 (0 + 1) ((Table.fill 256 1).set 0 0xFFFFFFFF) 256 := by decide +kernel

/-- AdaptUpdateKeepsTheTotal: at the end of a period of one symbol. -/
theorem witness_keeps : idle3.total.toNat + 256 = idle3.counts.sum ∧
    ({ idle3 with updateRange := 1 } : State).runCount.toNat <
      ({ idle3 with updateRange := 1 } : State).updateRange.toNat := by decide +kernel

theorem witness_keeps_ok : ∃ m, adaptUpdate 0 { idle3 with updateRange := 2 } = .ok m := by
  rcases adaptUpdate_cases 0 { idle3 with updateRange := 2 } with ⟨h, -⟩ | ⟨-, -, ⟨-, h⟩ | ⟨h, -⟩⟩
  · exact absurd h (by decide +kernel)
  · exact ⟨_, h⟩
  · exact absurd h (by decide)

/-- DecoderMirrorsTheEncoder: P5 steps 6 and 12 (BS `1A`). -/
theorem witness_mirror : SameModel (enc3 0 7 0 []) (dec3 0 7 2 [(0, 0x1A)]) ∧
    TableValid (enc3 0 7 0 []).p (enc3 0 7 0 []).cumulative ∧
    lowBound 0 (enc3 0 7 0 []) ≤ 0 ∧ 0 < highBound 0 (enc3 0 7 0 []) ∧
    (∃ e', exec (.encode 0) (enc3 0 7 0 []) = .next e' ∧ e'.fault = false) ∧
    ∃ d', exec .decode (dec3 0 7 2 [(0, 0x1A)]) = .next d' ∧ d'.fault = false := by
  refine ⟨⟨rfl, rfl, rfl, rfl, rfl, rfl, rfl, rfl, rfl, rfl⟩, table3_valid, by decide +kernel,
    by decide +kernel, ⟨stateOf (exec (.encode 0) (enc3 0 7 0 [])), ?_⟩,
    ⟨stateOf (exec .decode (dec3 0 7 2 [(0, 0x1A)])), ?_⟩⟩
  · have h : answers (exec (.encode 0) (enc3 0 7 0 [])) (fun t => !t.fault) = true := by decide +kernel
    exact ⟨(next_of_answers h).1, by simpa using (next_of_answers h).2⟩
  · have h : answers (exec .decode (dec3 0 7 2 [(0, 0x1A)])) (fun t => !t.fault) = true := by decide +kernel
    exact ⟨(next_of_answers h).1, by simpa using (next_of_answers h).2⟩

/-- The invariants hold of an IDLE state with a model, and of P5's encode and decode sessions. -/
theorem idle3_inv : Inv idle3 where
  memory := rfl
  recordClear := by decide
  recordCause := by decide
  precision := by decide
  counts := fun _ i hi => by
    have h : idle3.counts.get i = 1 := Table.get_fill 1 hi
    rw [h]
    decide
  table := fun _ => table3_valid
  enc := by decide
  dec := by decide
  model := by decide
  adaptive := by decide

theorem enc3_inv : Inv (enc3 0 7 0 []) where
  memory := rfl
  recordClear := by decide
  recordCause := by decide
  precision := by decide
  counts := fun _ i hi => by
    have h : idle3.counts.get i = 1 := Table.get_fill 1 hi
    show 1 ≤ (idle3.counts.get i).toNat
    rw [h]
    decide
  table := fun _ => table3_valid
  enc := by decide
  dec := by decide
  model := by decide
  adaptive := by decide

/-- CarryIsAlwaysAbsorbed: `ENC_INIT` from IDLE; a session that meets the invariant. -/
theorem witness_absorbed : Inv idle3 ∧ (∃ t, exec .encInit idle3 = .next t ∧ t.fault = false) ∧
    Inv (enc3 0 7 0 []) ∧ StreamInv (enc3 0 7 0 []) ∧ (enc3 0 7 0 []).fault = false ∧
    (∃ t, exec (.encode 0) (enc3 0 7 0 []) = .next t ∧ t.fault = false) ∧
    ∃ t, exec .flush (enc3 0 7 0 []) = .next t := by
  refine ⟨idle3_inv, ⟨stateOf (exec .encInit idle3), ?_⟩, enc3_inv, by unfold StreamInv; decide, rfl,
    ⟨stateOf (exec (.encode 0) (enc3 0 7 0 [])), ?_⟩, stateOf (exec .flush (enc3 0 7 0 [])), ?_⟩
  · have h : answers (exec .encInit idle3) (fun t => !t.fault) = true := by decide +kernel
    exact ⟨(next_of_answers h).1, by simpa using (next_of_answers h).2⟩
  · have h : answers (exec (.encode 0) (enc3 0 7 0 [])) (fun t => !t.fault) = true := by decide +kernel
    exact ⟨(next_of_answers h).1, by simpa using (next_of_answers h).2⟩
  · have h : answers (exec .flush (enc3 0 7 0 [])) (fun t => !t.fault) = true := by decide +kernel
    exact (next_of_answers h).1

/-- RegisterWritesFollowTheMap: each clause; `a = 2` and `a = 1023` are not writable. -/
theorem witness_writes :
    ({ idle3 with host := [.write 1 5] } : State).host = [.write 1 5] ∧
    ((7 : BitVec 10).toNat ∈ [7, 8, 9, 10, 11] ∧ (11 : BitVec 10).toNat ∈ [7, 8, 9, 10, 11] ∧
      (enc3 0 7 0 []).phase = .enc ∧ (enc3 0 7 0 []).fault = false) ∧
    ¬ ((idle3.phase = .enc ∨ idle3.phase = .dec) ∧ idle3.fault = false) ∧
    ¬ (((enc3 0 7 0 []).phase = .enc ∨ (enc3 0 7 0 []).phase = .dec) ∧
      ((enc3 0 7 0 []).faulted 8 0).fault = false) ∧
    ((2 : BitVec 10) ≠ 0 ∧ (2 : BitVec 10) ≠ 1 ∧ (2 : BitVec 10).toNat ∉ [7, 8, 9, 10, 11]) ∧
    (1023 : BitVec 10).toNat ∉ [7, 8, 9, 10, 11] ∧ (12 : BitVec 10).toNat ∉ [7, 8, 9, 10, 11] := by decide

/-- RegisterReadsAnswerTheMap: the ends of each range of addresses. -/
theorem witness_reads : ({ idle3 with host := [.read 16] } : State).host = [.read 16] ∧
    (256 : BitVec 10).toNat = 256 + 0 ∧ (511 : BitVec 10).toNat = 256 + 255 ∧
    (512 : BitVec 10).toNat = 512 + 0 ∧ (768 : BitVec 10).toNat = 512 + 256 ∧
    17 ≤ (17 : BitVec 10).toNat ∧ (255 : BitVec 10).toNat < 256 ∧ 769 ≤ (769 : BitVec 10).toNat ∧
    769 ≤ (1023 : BitVec 10).toNat := by decide

/-- ResetGivesTheResetValues. -/
theorem witness_rst : ({ idle3 with host := [.rst] } : State).host = [.rst] := rfl

/-- HostOwnsBsOutsideSessions: outside a session, at the first byte beyond a session's buffer, and at its last
byte. -/
theorem witness_host : ¬ ((idle3.phase = .enc ∨ idle3.phase = .dec) ∧ idle3.fault = false ∧
      (0 : BitVec 29).toNat < idle3.bsSize.toNat) ∧
    ¬ (((enc3 0 7 0 []).phase = .enc ∨ (enc3 0 7 0 []).phase = .dec) ∧ (enc3 0 7 0 []).fault = false ∧
      (1 : BitVec 29).toNat < (enc3 0 7 0 []).bsSize.toNat) ∧
    ({ idle3 with host := [.bsWrite 0 1] } : State).host = [.bsWrite 0 1] ∧
    ({ idle3 with host := [.bsRead 0] } : State).host = [.bsRead 0] ∧
    (enc3 0 7 0 []).phase = .enc ∧ (enc3 0 7 0 []).fault = false ∧
    (0 : BitVec 29).toNat < (enc3 0 7 0 []).bsSize.toNat := by decide

/-- StepKeepsTheInvariants, StepKeepsBsCanonical: with nothing pending, and with a command. -/
theorem witness_invariant : Inv { idle3 with host := [cmd .mreset] } ∧
    ∃ t, step { idle3 with host := [cmd .mreset] } = .next t := by
  refine ⟨?_, stateOf (step { idle3 with host := [cmd .mreset] }), ?_⟩
  · have h := idle3_inv
    exact ⟨h.memory, h.recordClear, h.recordCause, h.precision, h.counts, h.table, h.enc, h.dec, h.model,
      h.adaptive⟩
  · have h : answers (step { idle3 with host := [cmd .mreset] }) (fun t => !t.fault) = true := by
      decide +kernel
    exact (next_of_answers h).1

/-- FaultsArePreciseForRegisters: `ENCODE 2` of P5 faults. -/
theorem witness_precise : (enc3 0 7 0 []).fault = false ∧
    ∃ t, exec (.encode 2) (enc3 0 7 0 []) = .next t ∧ t.fault = true := by
  refine ⟨rfl, stateOf (exec (.encode 2) (enc3 0 7 0 [])), ?_⟩
  have h : answers (exec (.encode 2) (enc3 0 7 0 [])) (fun t => t.fault) = true := by decide +kernel
  exact next_of_answers h

/-- EachCommandRaisesItsListedFaults: a command, an illegal word, a forbidden register write and a read. -/
theorem witness_causes : Inv (enc3 0 7 0 []) ∧ (enc3 0 7 0 []).fault = false ∧
    (∃ t, exec (.encode 2) (enc3 0 7 0 []) = .next t ∧ t.fault = true) ∧
    decode 0x02000001 = .error .operandBits ∧
    (∃ t, commandWrite 0x02000001 (enc3 0 7 0 []) = .next t) ∧
    (∃ t, step { enc3 0 7 0 [] with host := [.write 7 1] } = .next t ∧ t.fault = true) ∧
    ∃ t, step { enc3 0 7 0 [] with host := [.read 7] } = .next t := by
  refine ⟨enc3_inv, rfl, ⟨stateOf (exec (.encode 2) (enc3 0 7 0 [])), ?_⟩, by decide,
    ⟨stateOf (commandWrite 0x02000001 (enc3 0 7 0 [])), ?_⟩,
    ⟨stateOf (step { enc3 0 7 0 [] with host := [.write 7 1] }), ?_⟩,
    stateOf (step { enc3 0 7 0 [] with host := [.read 7] }), ?_⟩
  · have h : answers (exec (.encode 2) (enc3 0 7 0 [])) (fun t => t.fault) = true := by decide +kernel
    exact next_of_answers h
  · have h : answers (commandWrite 0x02000001 (enc3 0 7 0 [])) (fun t => t.fault) = true := by
      decide +kernel
    exact (next_of_answers h).1
  · have h : answers (step { enc3 0 7 0 [] with host := [.write 7 1] }) (fun t => t.fault) = true := by
      decide +kernel
    exact next_of_answers h
  · have h : answers (step { enc3 0 7 0 [] with host := [.read 7] }) (fun t => !t.fault) = true := by
      decide +kernel
    exact (next_of_answers h).1

/-- CommandsWriteBsInBoundsOnly, CommandsWriteOnlyTheirRegisters: `MRESET` in IDLE, the first byte beyond, a
register that is not in its list and the fault record. -/
theorem witness_frames : exec .mreset idle3 = .next (clearCounts idle3) ∧ idle3.bsSize.toNat ≤ 1 ∧
    Register.cumulative ∉ mayWrite idle3.adaptive .mreset ∧ (clearCounts idle3).fault = false :=
  ⟨rfl, by decide, by decide, rfl⟩

/-- UnspecifiedTablesAreNeverRead: in RESET, and in IDLE without a model. -/
theorem witness_unspecified :
    (State.reset.phase = .reset ∧ ∃ t, exec (.construct 16) State.reset = .next t) ∧
    ({ idle3 with modelValid := false } : State).phase = .idle ∧
    ({ idle3 with modelValid := false } : State).modelValid = false ∧
    ∃ t, exec .mreset { idle3 with modelValid := false } = .next t :=
  ⟨⟨rfl, constructState 16 State.reset, rfl⟩, rfl, rfl, clearCounts { idle3 with modelValid := false }, rfl⟩

/-- PhaseChangesOnlyAsListed: `END` in a decode session. -/
theorem witness_phase : ∃ t, exec .endSession (dec3 0 7 2 []) = .next t ∧
    t.phase ≠ (dec3 0 7 2 []).phase := ⟨{ dec3 0 7 2 [] with phase := .idle }, rfl, by decide⟩

/-- FaultIsSticky: a host write to BS under a fault; `CONSTRUCT 2` is no exit. -/
theorem witness_sticky : ({ idle3.faulted 8 0 with host := [.bsWrite 0 1] } : State).fault = true ∧
    (∃ t, step { idle3.faulted 8 0 with host := [.bsWrite 0 1] } = .next t) ∧
    Transaction.bsWrite 0 1 ≠ .rst ∧ ¬ (3 ≤ (2 : Byte).toNat ∧ (2 : Byte).toNat ≤ 31) :=
  ⟨rfl, ⟨{ idle3.faulted 8 0 with host := [], bs := Memory.write [] 0 1 }, rfl⟩, by decide, by decide⟩

/-- StepStopsOnlyForHostBsAccess: the refusal occurs. -/
theorem witness_refusal :
    step { enc3 0 7 0 [] with host := [.bsRead 0] } = .refused .bsOwnedBySession := rfl

end Sys2Proof.Machine.Tests
end

