-- ==== Sys2Proof/Proofs/FaultPrecision.lean ====
section
/-! PROOF. Faults are precise for the registers (00_scope.md R14, 60_exceptions.md R191, R206). -/

namespace Sys2Proof.Machine

/-- Of the eleven codes (R190) only `ACCESS`, which no command raises, is above 10. -/
theorem Cause.code_bounds {c : Cause} (h : c ≠ .access) : 1 ≤ c.code.toNat ∧ c.code.toNat ≤ 10 := by
  cases c with
  | access => exact absurd rfl h
  | _ => simp [Cause.code]

/-- A command that completes on a machine without a fault leaves it without one. -/
theorem Completed.fault_eq_false {i : Instr} {s t : State} (h : Completed i s t) (hf : s.fault = false) :
    t.fault = false := by
  cases i with
  | construct q => exact congrArg State.fault h
  | _ => exact (congrArg State.fault h).trans hf

/-- The fault `SEQUENCE` of an illegal phase (30_encoding.md R85 step 4) is a raise like those of the rules. -/
theorem raised_sequence {s : State} (i : Instr) (hf : s.fault = false) :
    Raised i s (s.faulted 2 (encode i)) :=
  ⟨⟨.sequence, (encode i).toNat⟩, s.bs, KeepsOutside.refl _ _, fun _ => rfl,
    (raise_faulted hf .sequence _ _ (ofNat_toNat_word _)).symm, (by decide : Cause.sequence ≠ .access)⟩

/-- What a first raise leaves: all registers as before but for the fault record, with one of the causes
1 to 10. -/
theorem Raised.precise {i : Instr} {s t : State} (h : Raised i s t) (hf : s.fault = false) :
    t = { s with bs := t.bs, fault := true, faultCause := t.faultCause, faultInfo := t.faultInfo } ∧
      1 ≤ t.faultCause.toNat ∧ t.faultCause.toNat ≤ 10 ∧ (¬ WritesBeforeFault i → t.bs = s.bs) := by
  obtain ⟨r, bs, -, hbs, rfl, hr⟩ := h
  rw [raise_first r (s := { s with bs := bs }) hf]
  obtain ⟨h1, h10⟩ := Cause.code_bounds hr
  exact ⟨rfl, h1, h10, hbs⟩

/-- Settles O53: a command that ends with a fault on a machine that had none has raised it, in an illegal
phase or in its rule, because completion leaves no fault. -/
theorem faultsArePreciseForRegisters : Obligations.FaultsArePreciseForRegisters := by
  intro i s t hf h ht
  have hr : Raised i s t := by
    rcases exec_next_cases i s t h with ⟨hs, -⟩ | ⟨-, -, rfl⟩ | ⟨-, -, hr⟩ | ⟨-, -, hc, -⟩
    · simp [hf] at hs
    · exact raised_sequence i hf
    · exact hr
    · simp [hc.fault_eq_false hf] at ht
  obtain ⟨hregs, h1, h10, hbs⟩ := hr.precise hf
  refine ⟨hregs, h1, h10, fun henc hflush => hbs ?_⟩
  rintro (⟨sym, hi⟩ | hi)
  · exact henc sym hi
  · exact hflush hi

end Sys2Proof.Machine
end

