-- ==== Sys2Proof/Proofs/RegisterPort.lean ====
section
/-! PROOF. The register port (10_state.md R40 to R46): what a command write, a register write and a register
read do. -/

namespace Sys2Proof.Machine

/-! ### One step is one transaction -/

theorem step_of_nil {s : State} (h : s.host = []) : step s = .next s := by
  rw [step, takeTransaction, h]

theorem step_of_cons {s : State} {x : Transaction} {rest : List Transaction} (h : s.host = x :: rest) :
    step s = perform x { s with host := rest } := by
  rw [step, takeTransaction, h]

theorem perform_write_cmd (w : Word) (s : State) : perform (.write 0 w) s = commandWrite w s := rfl

theorem perform_write_register {a : BitVec 10} (ha : a ≠ 0) (v : Word) (s : State) :
    perform (.write a v) s = .next (registerWrite (byteOffset a) v s) := if_neg ha

theorem commandWrite_of_decode {w : Word} {i : Instr} (h : decode w = .ok i) (s : State) :
    commandWrite w s = exec i s := by
  rw [commandWrite, h]

/-- Settles O6: taking the transaction, the address 0 and the decoded word each pick their branch. -/
theorem stepRunsTheDecodedCommand : Obligations.StepRunsTheDecodedCommand := by
  intro s w rest i hhost hdec
  rw [step_of_cons hhost, perform_write_cmd, commandWrite_of_decode hdec]

/-! ### Register writes (R41) -/

theorem activeSession_iff (s : State) :
    s.activeSession = true ↔ (s.phase = .enc ∨ s.phase = .dec) ∧ s.fault = false := by
  simp [State.activeSession]

/-- The RW-idle registers by word address. -/
theorem isConfigOffset_iff (a : BitVec 10) :
    isConfigOffset (byteOffset a) = true ↔ a.toNat ∈ [7, 8, 9, 10, 11] := by
  simp only [isConfigOffset, byteOffset, Bool.or_eq_true, beq_iff_eq, List.mem_cons, List.not_mem_nil, or_false]
  omega

theorem registerWrite_arg (v : Word) (s : State) : registerWrite (byteOffset 1) v s = { s with arg := v } :=
  rfl

theorem byteOffset_ne_arg {a : BitVec 10} (ha : a ≠ 1) : byteOffset a ≠ 0x004 := by
  intro h
  exact ha (BitVec.eq_of_toNat_eq (by unfold byteOffset at h; show a.toNat = 1; omega))

/-- `CMD` and `ARG` are not among the RW-idle registers. -/
theorem ne_cmd_arg_of_config {a : BitVec 10} (ha : a.toNat ∈ [7, 8, 9, 10, 11]) : a ≠ 0 ∧ a ≠ 1 := by
  constructor <;> (rintro rfl; simp at ha)

/-- An RW-idle register is written when no session is active. -/
theorem registerWrite_config {a : BitVec 10} (ha : a.toNat ∈ [7, 8, 9, 10, 11]) {s : State}
    (hs : s.activeSession = false) (v : Word) :
    registerWrite (byteOffset a) v s = writeConfig (byteOffset a) v s := by
  have hne : byteOffset a ≠ 0x004 := byteOffset_ne_arg (ne_cmd_arg_of_config ha).2
  rw [registerWrite, if_neg hne, if_pos ((isConfigOffset_iff a).2 ha), hs, if_neg (by decide)]

/-- An RW-idle register in an active session, and every other register but `ARG`, raises `ACCESS`. -/
theorem registerWrite_forbidden {a : BitVec 10} (ha : a ≠ 1) {s : State}
    (hs : a.toNat ∈ [7, 8, 9, 10, 11] → s.activeSession = true) (v : Word) :
    registerWrite (byteOffset a) v s = s.raise ⟨.access, byteOffset a⟩ := by
  rw [registerWrite, if_neg (byteOffset_ne_arg ha)]
  by_cases hc : a.toNat ∈ [7, 8, 9, 10, 11]
  · rw [if_pos ((isConfigOffset_iff a).2 hc), if_pos (hs hc)]
  · rw [if_neg ((isConfigOffset_iff a).not.2 hc)]

/-- Settles O45: by the class of the address, `ARG`, RW-idle, or neither. -/
theorem registerWritesFollowTheMap : Obligations.RegisterWritesFollowTheMap := by
  intro s a v rest hhost
  have hstep : a ≠ 0 → step s = .next (registerWrite (byteOffset a) v { s with host := rest }) := fun ha => by
    rw [step_of_cons hhost, perform_write_register ha]
  have hraise : a ≠ 0 → a ≠ 1 → s.fault = false →
      (a.toNat ∈ [7, 8, 9, 10, 11] → s.phase = .enc ∨ s.phase = .dec) →
      step s = .next { s.faulted 11 (BitVec.ofNat 32 (4 * a.toNat)) with host := rest } := by
    intro h0 h1 hf hph
    rw [hstep h0, registerWrite_forbidden (s := { s with host := rest }) h1
        fun hc => (activeSession_iff _).2 ⟨hph hc, hf⟩,
      raise_faulted (s := { s with host := rest }) hf .access _ _ rfl]
    rfl
  have hconfig : ¬ ((s.phase = .enc ∨ s.phase = .dec) ∧ s.fault = false) → a.toNat ∈ [7, 8, 9, 10, 11] →
      step s = .next (writeConfig (byteOffset a) v { s with host := rest }) := by
    intro hs hc
    rw [hstep (ne_cmd_arg_of_config hc).1, registerWrite_config hc]
    rw [← Bool.not_eq_true, activeSession_iff]
    exact hs
  refine ⟨?_, ?_, ?_, ?_⟩
  · rintro rfl
    exact hstep (by decide)
  · intro hc hph hf
    obtain ⟨h0, h1⟩ := ne_cmd_arg_of_config hc
    exact hraise h0 h1 hf fun _ => hph
  · intro hs
    refine ⟨?_, ?_, ?_, ?_, ?_⟩ <;> rintro rfl <;> exact hconfig hs (by decide)
  · intro h0 h1 hc
    refine ⟨fun hf => hraise h0 h1 hf fun hx => absurd hx hc, fun hf => ?_⟩
    rw [hstep h0, registerWrite_forbidden h1 fun hx => absurd hx hc,
      raise_again (s := { s with host := rest }) _ hf]

/-! ### Register reads (R40, R42 to R46) -/

/-- The bits of `STATUS` (R44). -/
theorem statusWord_fields (s : State) : s.statusWord.extractLsb' 0 2 = s.phase.code ∧
    s.statusWord.getLsbD 2 = s.fault ∧ s.statusWord.getLsbD 3 = s.modelValid ∧
    s.statusWord.extractLsb' 4 28 = 0 := by
  unfold State.statusWord
  cases s.phase <;> cases s.fault <;> cases s.modelValid <;> decide

/-- The bits of `MODE` (R45). -/
theorem modeWord_fields (s : State) : s.modeWord.getLsbD 0 = s.adaptive ∧
    s.modeWord.getLsbD 1 = s.rangeClear ∧ s.modeWord.extractLsb' 2 30 = 0 := by
  unfold State.modeWord
  cases s.adaptive <;> cases s.rangeClear <;> decide

/-- Above the registers the map holds the two tables. -/
theorem registerContent_above (s : State) {o : Nat} (ho : 0x040 < o) : registerContent s o =
    if 0x400 ≤ o ∧ o ≤ 0x7FC then s.counts.get ((o - 0x400) / 4)
    else if 0x800 ≤ o ∧ o ≤ 0xC00 then s.cumulative.get ((o - 0x800) / 4)
    else 0 := by
  unfold registerContent
  iterate 17 rw [if_neg (by omega)]

theorem registerContent_counts (s : State) {i : Nat} (hi : i < 256) :
    registerContent s (4 * (256 + i)) = s.counts.get i := by
  rw [registerContent_above s (by omega), if_pos (by omega), show (4 * (256 + i) - 0x400) / 4 = i by omega]

theorem registerContent_cumulative (s : State) {i : Nat} (hi : i ≤ 256) :
    registerContent s (4 * (512 + i)) = s.cumulative.get i := by
  rw [registerContent_above s (by omega), if_neg (by omega), if_pos (by omega),
    show (4 * (512 + i) - 0x800) / 4 = i by omega]

/-- Between the registers and the tables, and above them, nothing is mapped. -/
theorem registerContent_unmapped (s : State) {k : Nat} (hk : 17 ≤ k ∧ k < 256 ∨ 769 ≤ k) :
    registerContent s (4 * k) = 0 := by
  rw [registerContent_above s (by omega), if_neg (by omega), if_neg (by omega)]

/-- The word at an address, by its number. -/
theorem registerContent_of_toNat (s : State) {a : BitVec 10} {k : Nat} (h : a.toNat = k) :
    registerContent s (byteOffset a) = registerContent s (4 * k) := by
  rw [byteOffset, h]

/-- Settles O46: the answer is `registerContent` of the address, whose row of the map each clause names. -/
theorem registerReadsAnswerTheMap : Obligations.RegisterReadsAnswerTheMap := by
  intro s a rest hhost
  have hcontent : ∀ {k}, a.toNat = k → registerContent { s with host := rest } (byteOffset a) =
      registerContent { s with host := rest } (4 * k) := registerContent_of_toNat _
  refine ⟨registerContent { s with host := rest } (byteOffset a), step_of_cons hhost, hcontent, hcontent,
    hcontent, fun h => ?_, hcontent, hcontent, hcontent, fun h => ?_, hcontent, hcontent, hcontent, hcontent,
    hcontent, hcontent, hcontent, hcontent, hcontent, fun i hi h => ?_, fun i hi h => ?_, fun h1 h2 => ?_,
    fun h => ?_⟩
  · rw [hcontent h]
    exact statusWord_fields s
  · rw [hcontent h]
    exact modeWord_fields s
  · rw [hcontent h, registerContent_counts _ hi]
  · rw [hcontent h, registerContent_cumulative _ hi]
  · exact (hcontent rfl).trans (registerContent_unmapped _ (.inl ⟨h1, h2⟩))
  · exact (hcontent rfl).trans (registerContent_unmapped _ (.inr h))

end Sys2Proof.Machine
end

