-- ==== Sys2Proof/Proofs/Invariant.lean ====
section
/-! PROOF. The invariants of the state (10_state.md R50): they hold after a reset and every step keeps them. -/

namespace Sys2Proof.Machine

/-! ### What each phase asks for -/

/-- The precision, the size of BS and the fault record are as before: no command that completes on a machine
without a fault changes them, but for `CONSTRUCT`. -/
structure KeepsSetup (s t : State) : Prop where
  precision : t.precision = s.precision
  bsSize : t.bsSize = s.bsSize
  fault : t.fault = s.fault
  faultCause : t.faultCause = s.faultCause
  faultInfo : t.faultInfo = s.faultInfo

theorem KeepsSetup.p {s t : State} (h : KeepsSetup s t) : t.p = s.p := congrArg BitVec.toNat h.precision

theorem KeepsSetup.capacity {s t : State} (h : KeepsSetup s t) : t.capacity = s.capacity :=
  congrArg (fun n : BitVec 29 => 8 * n.toNat) h.bsSize

theorem OnlyModelChanged.keepsSetup {s m : State} (h : OnlyModelChanged s m) : KeepsSetup s m := by
  unfold OnlyModelChanged at h
  rw [h]
  exact ⟨rfl, rfl, rfl, rfl, rfl⟩

theorem OnlyModelChanged.bs {s m : State} (h : OnlyModelChanged s m) : m.bs = s.bs := by
  unfold OnlyModelChanged at h
  rw [h]

theorem OnlyModelChanged.phase {s m : State} (h : OnlyModelChanged s m) : m.phase = s.phase := by
  unfold OnlyModelChanged at h
  rw [h]

/-- Outside an active session the invariants ask for the memory, the fault record and V1 to V3 only. -/
theorem inv_outsideSession {t : State} (ho : t.activeSession = false) (hw : t.bs.wf = true)
    (hclear : t.fault = false → t.faultCause = 0 ∧ t.faultInfo = 0)
    (hcause : t.fault = true → 1 ≤ t.faultCause.toNat ∧ t.faultCause.toNat ≤ 11)
    (hp : 3 ≤ t.p) (hc : t.phase ≠ .reset → ∀ i, i < 256 → 1 ≤ (t.counts.get i).toNat)
    (ht : t.modelValid = true → TableValid t.p t.cumulative) : Inv t := by
  have hno : t.fault = false → ¬ (t.phase = .enc ∨ t.phase = .dec) := by
    intro hf hph
    rcases hph with hph | hph <;> simp [State.activeSession, hf, hph] at ho
  exact {
    memory := hw
    recordClear := hclear
    recordCause := hcause
    precision := ⟨hp, p_le_31 t⟩
    counts := hc
    table := ht
    enc := fun hf hph => absurd (.inl hph) (hno hf)
    dec := fun hf hph => absurd (.inr hph) (hno hf)
    model := fun hf hph => absurd hph (hno hf)
    adaptive := fun hf hph => absurd hph (hno hf) }

/-- A command that ends in phase IDLE has to keep V2 and V3 only. -/
theorem Inv.toIdle {s t : State} (h : Inv s) (hk : KeepsSetup s t) (hph : t.phase = .idle)
    (hw : t.bs.wf = true) (hc : ∀ i, i < 256 → 1 ≤ (t.counts.get i).toNat)
    (ht : t.modelValid = true → TableValid t.p t.cumulative) : Inv t := by
  refine inv_outsideSession (by simp [State.activeSession, hph]) hw ?_ ?_ ?_ (fun _ => hc) ht
  · rw [hk.fault, hk.faultCause, hk.faultInfo]
    exact h.recordClear
  · rw [hk.fault, hk.faultCause]
    exact h.recordCause
  · rw [hk.p]
    exact h.precision.1

/-- A command that ends in a session has to keep the model's part of the invariants and the interval
(R50 V4 to V7). -/
theorem Inv.toSession {s t : State} (h : Inv s) (hf : s.fault = false) (hk : KeepsSetup s t)
    (hw : t.bs.wf = true) (hm : ModelInv t)
    (hl : half s.p ≤ t.length.toNat ∧ t.length.toNat ≤ one s.p - 1)
    (henc : t.phase = .enc → t.base.toNat < one s.p ∧ t.bitCursor.toNat ≤ s.capacity)
    (hdec : t.phase = .dec → t.value.toNat < one s.p ∧ s.p - 1 ≤ t.bitCursor.toNat ∧
      t.bitCursor.toNat < s.capacity) : Inv t := by
  rw [← hk.p] at hl henc hdec
  rw [← hk.capacity] at henc hdec
  have htf : t.fault = false := hk.fault.trans hf
  exact {
    memory := hw
    recordClear := by
      rw [hk.fault, hk.faultCause, hk.faultInfo]
      exact h.recordClear
    recordCause := fun hx => by simp [htf] at hx
    precision := by
      rw [hk.p]
      exact h.precision
    counts := fun _ => hm.counts
    table := hm.table
    enc := fun _ hph => ⟨(henc hph).1, hl.1, hl.2, (henc hph).2⟩
    dec := fun _ hph => ⟨(hdec hph).1, hl.1, hl.2, (hdec hph).2⟩
    model := fun _ _ => hm.valid
    adaptive := fun _ _ ha => ⟨(hm.run ha).1, (hm.run ha).2, hm.sum ha⟩ }

/-- No invariant reads `arg`, `result` or the model's own fields. -/
theorem Inv.withUnread {s : State} (h : Inv s) (host : List Transaction) (arg result hostData : Word) :
    Inv { s with host := host, arg := arg, result := result, hostData := hostData } :=
  ⟨h.memory, h.recordClear, h.recordCause, h.precision, h.counts, h.table, h.enc, h.dec, h.model, h.adaptive⟩

/-- The invariants ask of BS its canonical form alone. -/
theorem Inv.withBs {s : State} (h : Inv s) {bs : Memory} (hw : bs.wf = true) : Inv { s with bs := bs } :=
  ⟨hw, h.recordClear, h.recordCause, h.precision, h.counts, h.table, h.enc, h.dec, h.model, h.adaptive⟩

/-- Outside an active session the RW-idle registers hold any value (10_state.md R41). -/
theorem Inv.withConfig {s : State} (h : Inv s) (ho : s.activeSession = false) (weight updateRange total : Word)
    (adaptive rangeClear : Bool) (bsSize : BitVec 29) :
    Inv { s with weight := weight, updateRange := updateRange, total := total, adaptive := adaptive,
                 rangeClear := rangeClear, bsSize := bsSize } :=
  inv_outsideSession ho h.memory h.recordClear h.recordCause h.precision.1 h.counts h.table

/-! ### Commit and fault -/

theorem inv_of_raised {i : Instr} {s t : State} (hs : Inv s) (h : Raised i s t) : Inv t := by
  obtain ⟨r, bs, hk, -, rfl, -⟩ := h
  exact inv_raise r hs (hk.1 hs.memory)

/-- A command without BS accesses keeps the invariants if its commit does. -/
theorem inv_concludePure {s t : State} {e : Except Raise State} (hs : Inv s)
    (hok : ∀ u, e = .ok u → Inv u) (h : concludePure s e = .next t) : Inv t := by
  cases e with
  | ok u =>
    cases h
    exact hok _ rfl
  | error r =>
    cases h
    exact inv_raise r (bs := s.bs) hs hs.memory

/-- A command with BS accesses keeps the invariants if it keeps BS canonical and its commit keeps them. -/
theorem inv_conclude {s t : State} {m : Run State} (hs : Inv s) (hk : KeepsOutside s.capacity s.bs m.bs)
    (hdone : ∀ u bs, m = .done u bs → bs.wf = true → Inv { u with bs := bs })
    (h : conclude s m = .next t) : Inv t := by
  have hw := hk.1 hs.memory
  cases m with
  | done u bs =>
    cases h
    exact hdone u bs rfl hw
  | raised r bs =>
    cases h
    exact inv_raise r hs hw

/-! ### The commands of phase IDLE, `CONSTRUCT` and `END` -/

theorem one_le_get_ones {i : Nat} (hi : i < 256) : 1 ≤ ((Table.fill 256 (1 : Word)).get i).toNat := by
  rw [Table.get_fill _ hi]
  decide

/-- `CONSTRUCT` establishes the invariants whatever the session and the fault were (40_session.md R100). -/
theorem inv_constructAt {q : Nat} {s u : State} (hs : Inv s) (h : constructAt q s = .ok u) : Inv u := by
  unfold constructAt Config.precMin Config.precMax at h
  split at h
  · cases h
  · cases h
    have hp : (constructState q s).p = q := by
      simp only [State.p, constructState_precision, BitVec.toNat_ofNat]
      exact Nat.mod_eq_of_lt (by omega)
    exact inv_outsideSession rfl hs.memory (fun _ => ⟨rfl, rfl⟩) (fun x => by cases x) (by omega)
      (fun _ i hi => one_le_get_ones hi) (fun x => by cases x)

/-- `MADD` does not wrap a count (41_model.md R111). -/
theorem one_le_get_addOccurrence {sym : Nat} {s u : State} (hc : ∀ i, i < 256 → 1 ≤ (s.counts.get i).toNat)
    (h : addOccurrence sym s = .ok u) : ∀ i, i < 256 → 1 ≤ (u.counts.get i).toNat := by
  intro i hi
  unfold addOccurrence Config.wordMax at h
  split at h
  · cases h
  · split at h <;> cases h
    have := hc i hi
    by_cases hsym : i = sym
    · subst hsym
      simp only [Table.get_set_same _ _ hi, BitVec.toNat_ofNat]
      rw [Nat.mod_eq_of_lt (by omega)]
      omega
    · rw [Table.get_set_other _ _ hsym]
      exact this

theorem inv_addOccurrence {sym : Nat} {s u : State} (hs : Inv s) (hph : s.phase = .idle)
    (h : addOccurrence sym s = .ok u) : Inv u := by
  have hc := one_le_get_addOccurrence (hs.counts (by simp [hph])) h
  unfold addOccurrence at h
  split at h
  · cases h
  · split at h <;> cases h
    exact hs.toIdle ⟨rfl, rfl, rfl, rfl, rfl⟩ hph hs.memory hc hs.table

theorem inv_rescaleModel {total : Nat} {s u : State} (hs : Inv s) (hph : s.phase = .idle)
    (h : rescaleModel total s = .ok u) : Inv u := by
  rcases rescaleModel_cases total s with ⟨-, he⟩ | ⟨htop, he⟩ <;> rw [he] at h <;> cases h
  exact hs.toIdle ⟨rfl, rfl, rfl, rfl, rfl⟩ hph hs.memory (hs.counts (by simp [hph]))
    fun _ => tableValid_scaledTable (p_le_31 s) htop

theorem inv_clearCounts {s : State} (hs : Inv s) (hph : s.phase = .idle) : Inv (clearCounts s) :=
  hs.toIdle ⟨rfl, rfl, rfl, rfl, rfl⟩ hph hs.memory (fun _ => one_le_get_ones) hs.table

/-- `END` leaves a session (40_session.md R101). -/
theorem inv_endSession {s : State} (hs : Inv s) (hph : s.phase ≠ .reset) :
    Inv { s with phase := .idle } :=
  hs.toIdle ⟨rfl, rfl, rfl, rfl, rfl⟩ rfl hs.memory (hs.counts hph) hs.table

/-! ### The interval at the start of a session and after a symbol -/

/-- `length = ONE - 1`, the interval at the start of a session (R150, R165). -/
theorem startLength_bounds {p : Nat} (hp : 3 ≤ p) (hp' : p ≤ 31) :
    (BitVec.ofNat 32 (one p - 1)).toNat = one p - 1 ∧ half p ≤ one p - 1 := by
  have h1 := one_le_of_p hp'
  have h2 := one_eq_two_half (p := p) (by omega)
  have h3 := half_pos p
  refine ⟨?_, by omega⟩
  rw [BitVec.toNat_ofNat, Nat.mod_eq_of_lt (by omega)]

theorem toNat_ofNat_of_lt_one {p n : Nat} (hp : p ≤ 31) (h : n < one p) :
    (BitVec.ofNat 32 n).toNat = n := by
  have := one_le_of_p hp
  rw [BitVec.toNat_ofNat, Nat.mod_eq_of_lt (by omega)]

theorem toNat_ofNat_of_le_capacity {s : State} {n : Nat} (h : n ≤ s.capacity) :
    (BitVec.ofNat 32 n).toNat = n := by
  have := capacity_le s
  rw [BitVec.toNat_ofNat, Nat.mod_eq_of_lt (by omega)]

/-- A `RenormEnc` that ends leaves a normalised interval, a base below `ONE` and a cursor within BS (R142). -/
theorem renormEnc_done_bounds {p cap nb nl cur nb' nl' cur' : Nat} {bs bs' : Memory} (hp : 1 ≤ p)
    (hw : bs.wf = true) (hc : cap ≤ 2 ^ 32) (hnb : nb < one p) (h1 : 1 ≤ nl) (hnl : nl < one p)
    (hcur : cur ≤ cap) (h : renormEnc p cap nb nl cur bs = .done (nb', nl', cur') bs') :
    nb' < one p ∧ half p ≤ nl' ∧ nl' ≤ one p - 1 ∧ cur' ≤ cap := by
  obtain ⟨t, htp, ht⟩ := renormSteps_exists (p := p) h1
  rcases Nat.lt_or_ge cap (cur + t) with hshort | hfit
  · obtain ⟨_, he, -⟩ := renormEnc_short hp hw hc hnb hnl ht htp hcur hshort
    rw [he] at h
    cases h
  · obtain ⟨_, he, -⟩ := renormEnc_fits hp hw hc hnb hnl ht htp hfit
    rw [he] at h
    cases h
    have := renormSteps_lt_one hp hnl ht
    exact ⟨Nat.mod_lt _ (one_pos p), ht.1, by omega, hfit⟩

/-- A `RenormDec` that ends leaves a normalised interval, a value below `ONE`, and moves the cursor within BS
(R144). -/
theorem renormDec_done_bounds {p cap v l cur v' l' cur' : Nat} {bs bs' : Memory} (hp : 1 ≤ p)
    (hv : v < one p) (hl : l < one p) (hcur : cur < cap)
    (h : renormDec p cap v l cur bs = .done (v', l', cur') bs') :
    v' < one p ∧ half p ≤ l' ∧ l' ≤ one p - 1 ∧ cur ≤ cur' ∧ cur' < cap := by
  obtain ⟨t, ht, rfl, rfl, hfit⟩ := renormDec_steps hp hl h
  rw [renormDec_fits hp hv hl ht hfit] at h
  cases h
  have := renormSteps_lt_one hp hl ht
  exact ⟨Nat.mod_lt _ (one_pos p), ht.1, by omega, by omega, by omega⟩

/-! ### The session commands -/

/-- `ENC_INIT` establishes the invariants of an encode session (44_encoder.md R150). -/
theorem inv_encInitStaged {s u : State} (hs : Inv s) (hf : s.fault = false) (hph : s.phase = .idle)
    (h : encInitStaged s = .ok u) : Inv u := by
  unfold encInitStaged at h
  cases hm : sessionModel (encode .encInit) s with
  | error r => rw [hm] at h; cases h
  | ok m =>
    rw [hm] at h
    cases h
    have ho := onlyModel_sessionModel hm
    obtain ⟨hp, hb, hmf, hmc, hmi⟩ := ho.keepsSetup
    obtain ⟨hcounts, htable, hvalid, hsum, hrun⟩ := modelInv_sessionModel hs hph hm
    obtain ⟨hlen, hhalf⟩ := startLength_bounds hs.precision.1 hs.precision.2
    refine hs.toSession hf ⟨hp, hb, hmf, hmc, hmi⟩ ?_ ⟨hcounts, htable, hvalid, hsum, hrun⟩ ?_ ?_ ?_
    · exact (congrArg Memory.wf ho.bs).trans hs.memory
    · exact ⟨hhalf.trans_eq hlen.symm, hlen.le⟩
    · exact fun _ => ⟨one_pos s.p, Nat.zero_le _⟩
    · exact fun x => by cases x

/-- The interval of a symbol over a valid table lies inside the current one (43_interval_engine.md R139). -/
theorem highBound_le {s : State} (ht : TableValid s.p s.cumulative) {sym : Nat} (hsym : sym < 256) :
    highBound sym s ≤ s.length.toNat := scale_le _ _ (ht.le_one (by omega))

/-- A completed `ENCODE` keeps the invariants of its session (44_encoder.md R151). -/
theorem inv_encodeRun {sym : Nat} {s u : State} {bs : Memory} (hsym : sym < 256) (hs : Inv s)
    (hf : s.fault = false) (hph : s.phase = .enc) (h : encodeRun sym s = .done u bs) (hw : bs.wf = true) :
    Inv { u with bs := bs } := by
  obtain ⟨hlt, m, nb, nl, cur, bs1, hm, rfl, hcarry, hrenorm⟩ := encodeRun_done h
  have ho := onlyModel_modelAfterSymbol hm
  obtain ⟨hp, hb, hmf, hmc, hmi⟩ := ho.keepsSetup
  obtain ⟨hcounts, htable, hvalid, hsum, hrun⟩ :=
    modelInv_modelAfterSymbol hsym (modelInv_of_inv hs hf (.inl hph)) hm
  obtain ⟨hbase, -, hlen, hcur⟩ := hs.enc hf hph
  have hcap : s.capacity ≤ 2 ^ 32 := Nat.le_trans (capacity_le s) (by omega)
  have hw1 : bs1.wf = true := by
    have := keeps_carryIf hcap (narrowedBase sym s < s.base.toNat) s.bitCursor.toNat s.bs
    rw [hcarry] at this
    exact this.1 hs.memory
  have hhigh := highBound_le (hs.table (hs.model hf (.inl hph))) hsym
  have hone := one_pos s.p
  obtain ⟨hnb, hhalf, hnl, hcur'⟩ := renormEnc_done_bounds (by have := hs.precision.1; omega) hw1 hcap
    (Nat.mod_lt _ hone) (by omega) (by omega) hcur hrenorm
  have hp31 := hs.precision.2
  have enb := toNat_ofNat_of_lt_one hp31 hnb
  have enl := toNat_ofNat_of_lt_one hp31 (n := nl) (by omega)
  have ecur := toNat_ofNat_of_le_capacity hcur'
  refine hs.toSession hf ⟨hp, hb, hmf, hmc, hmi⟩ hw ⟨hcounts, htable, hvalid, hsum, hrun⟩ ?_ ?_ ?_
  · exact ⟨hhalf.trans_eq enl.symm, enl.trans_le hnl⟩
  · exact fun _ => ⟨enb.trans_lt hnb, ecur.trans_le hcur'⟩
  · exact fun hx => absurd (hx.symm.trans (ho.phase.trans hph)) (by decide)

/-- `FLUSH` leaves the session with the model as it was (44_encoder.md R152). -/
theorem inv_flushRun {s u : State} {bs : Memory} (hs : Inv s) (hph : s.phase = .enc)
    (h : flushRun s = .done u bs) (hw : bs.wf = true) : Inv { u with bs := bs } := by
  obtain ⟨nb, nl, cur, bs1, rfl, -, -⟩ := flushRun_done h
  exact hs.toIdle ⟨rfl, rfl, rfl, rfl, rfl⟩ rfl hw (hs.counts (by simp [hph])) hs.table

/-- A fill that ends has read `p` bits within BS (45_decoder.md R165). -/
theorem fillValue_done {s : State} {v : Nat} {bs : Memory}
    (hv : fillValue s.capacity s.p 0 0 s.bs = .done v bs) :
    s.p ≤ s.capacity ∧ v < one s.p := by
  rcases Nat.lt_or_ge (8 * s.bsSize.toNat) s.p with hshort | hfit
  · rw [fillValue_none hshort] at hv
    cases hv
  · rw [fillValue_all hfit] at hv
    cases hv
    exact ⟨hfit, bitsFrom_lt _ _ _⟩

/-- `DEC_INIT` establishes the invariants of a decode session (45_decoder.md R165). -/
theorem inv_decInitRun {s u : State} {bs : Memory} (hs : Inv s) (hf : s.fault = false)
    (hph : s.phase = .idle) (h : decInitRun s = .done u bs) (hw : bs.wf = true) : Inv { u with bs := bs } := by
  obtain ⟨m, v, hm, hfill, rfl⟩ := decInitRun_done h
  have ho := onlyModel_sessionModel hm
  obtain ⟨hp, hb, hmf, hmc, hmi⟩ := ho.keepsSetup
  obtain ⟨hcounts, htable, hvalid, hsum, hrun⟩ := modelInv_sessionModel hs hph hm
  obtain ⟨hp3, hp31⟩ := hs.precision
  obtain ⟨hlen, hhalf⟩ := startLength_bounds hp3 hp31
  obtain ⟨hroom, hv⟩ := fillValue_done hfill
  have ev := toNat_ofNat_of_lt_one hp31 hv
  have ecur := toNat_ofNat_of_le_capacity (s := s) (n := s.p - 1) (by omega)
  refine hs.toSession hf ⟨hp, hb, hmf, hmc, hmi⟩ hw ⟨hcounts, htable, hvalid, hsum, hrun⟩ ?_ ?_ ?_
  · exact ⟨hhalf.trans_eq hlen.symm, hlen.le⟩
  · exact fun x => by cases x
  · exact fun _ => ⟨ev.trans_lt hv, ecur.ge, ecur.trans_lt (by omega)⟩

/-- A completed `DECODE` keeps the invariants of its session (R167). -/
theorem inv_decodeRun {s u : State} {bs : Memory} (hs : Inv s) (hf : s.fault = false)
    (hph : s.phase = .dec) (h : decodeRun s = .done u bs) (hw : bs.wf = true) : Inv { u with bs := bs } := by
  obtain ⟨f, v, l, cur, m, hfound, hrenorm, hm, rfl⟩ := decodeRun_done h
  have htab := hs.table (hs.model hf (.inr hph))
  obtain ⟨hval, -, hlen, hcur1, hcur2⟩ := hs.dec hf hph
  rcases search_cases htab with ⟨-, he⟩ | ⟨sym, hsym, hlow, hhigh, he⟩ <;> rw [he] at hfound <;> cases hfound
  have ho := onlyModel_modelAfterSymbol hm
  obtain ⟨hp, hb, hmf, hmc, hmi⟩ := ho.keepsSetup
  obtain ⟨hcounts, htable, hvalid, hsum, hrun⟩ :=
    modelInv_modelAfterSymbol hsym (modelInv_of_inv hs hf (.inr hph)) hm
  have hle : scaledBound s (sym + 1) ≤ s.length.toNat := scale_le _ _ (htab.le_one (by omega))
  have hone := one_pos s.p
  obtain ⟨hv, hhalf, hl, hmono, hcur'⟩ := renormDec_done_bounds (by have := hs.precision.1; omega)
    (by dsimp only; omega) (by dsimp only; omega) hcur2 hrenorm
  have hp31 := hs.precision.2
  have ev := toNat_ofNat_of_lt_one hp31 hv
  have el := toNat_ofNat_of_lt_one hp31 (n := l) (by omega)
  have ecur := toNat_ofNat_of_le_capacity hcur'.le
  refine hs.toSession hf ⟨hp, hb, hmf, hmc, hmi⟩ hw ⟨hcounts, htable, hvalid, hsum, hrun⟩ ?_ ?_ ?_
  · exact ⟨hhalf.trans_eq el.symm, el.trans_le hl⟩
  · exact fun hx => absurd (hx.symm.trans (ho.phase.trans hph)) (by decide)
  · exact fun _ => ⟨ev.trans_lt hv, (hcur1.trans hmono).trans_eq ecur.symm, ecur.trans_lt hcur'⟩

/-! ### Every command and every transaction -/

/-- The rule of a command keeps the invariants where it is performed (30_encoding.md R85 step 5). -/
theorem inv_bodyOf {i : Instr} {s t : State} (hs : Inv s) (hready : s.fault = false ∨ ∃ q, i = .construct q)
    (hph : s.phase ∈ phasesOf i) (h : bodyOf i s = .next t) : Inv t := by
  have hf : (∀ q, i ≠ .construct q) → s.fault = false := fun hne =>
    hready.resolve_right fun ⟨q, hq⟩ => hne q hq
  have hrefl := KeepsOutside.refl s.capacity s.bs
  cases i with
  | construct q => exact inv_concludePure hs (fun u => inv_constructAt hs) h
  | mreset =>
    cases h
    exact inv_clearCounts hs (by simpa [phasesOf] using hph)
  | madd sym => exact inv_concludePure hs (fun u => inv_addOccurrence hs (by simpa [phasesOf] using hph)) h
  | rescale => exact inv_concludePure hs (fun u => inv_rescaleModel hs (by simpa [phasesOf] using hph)) h
  | runiform =>
    have hidle : s.phase = .idle := by simpa [phasesOf] using hph
    exact inv_concludePure hs (fun u => inv_rescaleModel (inv_clearCounts hs hidle) hidle) h
  | getbit =>
    refine inv_conclude hs (by rw [getbitRun_bs]; exact hrefl) (fun u bs hu hw => ?_) h
    obtain ⟨b, bs1, -, he⟩ := Run.bind_eq_done hu
    cases he
    exact (hs.withBs hw).withUnread _ _ _ _
  | setbit v =>
    refine inv_conclude hs (keeps_setbitRun v s) (fun u bs hu hw => ?_) h
    obtain ⟨b, bs1, -, he⟩ := Run.bind_eq_done hu
    cases he
    exact hs.withBs hw
  | encInit =>
    exact inv_concludePure hs
      (fun u => inv_encInitStaged hs (hf fun q x => by cases x) (by simpa [phasesOf] using hph)) h
  | encode sym =>
    exact inv_conclude hs (keeps_encodeRun _ s)
      (fun u bs => inv_encodeRun sym.isLt hs (hf fun q x => by cases x) (by simpa [phasesOf] using hph)) h
  | flush =>
    exact inv_conclude hs (keeps_flushRun s)
      (fun u bs => inv_flushRun hs (by simpa [phasesOf] using hph)) h
  | decInit =>
    exact inv_conclude hs (by rw [decInitRun_bs]; exact hrefl)
      (fun u bs => inv_decInitRun hs (hf fun q x => by cases x) (by simpa [phasesOf] using hph)) h
  | decode =>
    exact inv_conclude hs (by rw [decodeRun_bs]; exact hrefl)
      (fun u bs => inv_decodeRun hs (hf fun q x => by cases x) (by simpa [phasesOf] using hph)) h
  | endSession =>
    cases h
    refine inv_endSession hs fun hx => ?_
    simp [phasesOf, hx] at hph

/-- Every command keeps the invariants. -/
theorem inv_exec {i : Instr} {s t : State} (hs : Inv s) (h : exec i s = .next t) : Inv t := by
  rcases exec_cases i s with ⟨-, -, hx⟩ | ⟨hf, hph, hx⟩ | ⟨hf, hph, hx⟩ <;> rw [hx] at h
  · cases h
    exact hs
  · cases h
    exact inv_of_raised hs (raised_sequence i hf)
  · exact inv_bodyOf hs hf hph h

theorem inv_raise_same {s : State} (r : Raise) (hs : Inv s) : Inv (s.raise r) :=
  inv_raise r (bs := s.bs) hs hs.memory

theorem inv_commandWrite {w : Word} {s t : State} (hs : Inv s) (h : commandWrite w s = .next t) : Inv t := by
  unfold commandWrite at h
  split at h
  · exact inv_exec hs h
  · cases h
    exact inv_raise_same _ hs

theorem inv_writeConfig (o : Nat) (v : Word) {s : State} (hs : Inv s) (ho : s.activeSession = false) :
    Inv (writeConfig o v s) := by
  have hconfig := hs.withConfig ho
  unfold writeConfig
  split_ifs
  exacts [hconfig .., hconfig .., hconfig .., hconfig .., hconfig .., hs]

theorem inv_registerWrite (o : Nat) (v : Word) {s : State} (hs : Inv s) : Inv (registerWrite o v s) := by
  unfold registerWrite
  split
  · exact hs.withUnread _ _ _ _
  · split
    · split
      · exact inv_raise_same _ hs
      · exact inv_writeConfig o v hs (by simpa using ‹¬ s.activeSession = true›)
    · exact inv_raise_same _ hs

/-- One transaction of the outside world keeps the invariants (00_scope.md R7). -/
theorem inv_perform {x : Transaction} {s t : State} (hs : Inv s) (h : perform x s = .next t) : Inv t := by
  cases x with
  | write a v =>
    by_cases ha : a = 0
    · rw [ha, perform_write_cmd] at h
      exact inv_commandWrite hs h
    · rw [perform_write_register ha] at h
      cases h
      exact inv_registerWrite _ v hs
  | read a =>
    cases h
    exact hs.withUnread s.host s.arg s.result _
  | bsWrite a v =>
    rw [perform, hostBsWrite] at h
    split at h <;> cases h
    exact hs.withBs (Memory.wf_write v hs.memory a.isLt)
  | bsRead a =>
    rw [perform, hostBsRead] at h
    split at h <;> cases h
    exact hs.withUnread s.host s.arg s.result _
  | rst =>
    cases h
    exact inv_afterReset _ hs.memory _ _

/-- Settles O50: a step is one transaction, and every transaction, in particular every command, keeps the
invariants. -/
theorem stepKeepsTheInvariants : Obligations.StepKeepsTheInvariants := by
  intro s t hs h
  cases hhost : s.host with
  | nil =>
    rw [step_of_nil hhost] at h
    cases h
    exact hs
  | cons x rest =>
    rw [step_of_cons hhost] at h
    exact inv_perform (hs.withUnread rest s.arg s.result s.hostData) h

/-- Settles O49: the state after any reset around a canonical BS meets the invariants, and the first BS is the
empty list. -/
theorem resetMeetsTheInvariants : Obligations.ResetMeetsTheInvariants :=
  inv_afterReset 0 State.reset_wf [] 0

end Sys2Proof.Machine
end

