-- ==== Sys2Proof/Proofs/Frames.lean ====
section
/-! PROOF. The frames of the commands (10_state.md R21 to R38): the registers each may write, and when `phase`
changes (R35). -/

namespace Sys2Proof.Machine

/-- A command leaves the state alone, raises a fault, or completes its rule. -/
theorem exec_next_unchanged_or_raised_or_completed {i : Instr} {s t : State} (h : exec i s = .next t) :
    t = s ∨ Raised i s t ∨ (bodyOf i s = .next t ∧ Completed i s t) := by
  rcases exec_cases i s with ⟨-, -, hx⟩ | ⟨hf, -, hx⟩ | ⟨-, -, hx⟩ <;> rw [hx] at h
  · cases h
    exact .inl rfl
  · cases h
    exact .inr (.inl (raised_sequence i hf))
  · rcases bodyOf_cases i s t h with ⟨hc, -⟩ | hr
    · exact .inr (.inr ⟨h, hc⟩)
    · exact .inr (.inl hr)

/-- The fault record is as before (R37). -/
def SameRecord (s t : State) : Prop :=
  t.fault = s.fault ∧ t.faultCause = s.faultCause ∧ t.faultInfo = s.faultInfo

/-- The model's own fields are as before (logs 1 to 3). -/
def SameModelFields (s t : State) : Prop := t.host = s.host ∧ t.hostData = s.hostData ∧ t.draws = s.draws

/-! ### A command that raises a fault -/

/-- A raise writes no register outside the fault record (60_exceptions.md R191). -/
theorem Raised.same {i : Instr} {s t : State} (h : Raised i s t) (r : Register) : r.same s t := by
  obtain ⟨x, bs, -, -, rfl, -⟩ := h
  cases r <;> simp [Register.same]

theorem Raised.fault_eq_true {i : Instr} {s t : State} (h : Raised i s t) : t.fault = true := by
  obtain ⟨x, bs, -, -, rfl, -⟩ := h
  exact State.raise_fault _ _

/-- A second raise keeps the first record (R191). -/
theorem Raised.sameRecord {i : Instr} {s t : State} (h : Raised i s t) (hf : s.fault = true) :
    SameRecord s t := by
  obtain ⟨x, bs, -, -, rfl, -⟩ := h
  rw [raise_again (s := { s with bs := bs }) x hf]
  exact ⟨rfl, rfl, rfl⟩

theorem Raised.sameModelFields {i : Instr} {s t : State} (h : Raised i s t) : SameModelFields s t := by
  obtain ⟨x, bs, -, -, rfl, -⟩ := h
  simp [SameModelFields]

/-! ### A command that completes -/

/-- The registers outside the list of a command are as before; its list in adaptive mode covers both modes. -/
theorem Completed.same {i : Instr} {s t : State} (h : Completed i s t) {r : Register}
    (hr : r ∉ mayWrite true i) : r.same s t := by
  -- for each command, a register is in its list or none of the fields that `Completed` names
  cases i
  all_goals
    rw [show t = _ from h]
    cases r <;> simp [mayWrite, adaptiveRegisters] at hr <;> rfl

theorem Completed.sameRecord {i : Instr} {s t : State} (h : Completed i s t) (hi : ∀ q, i ≠ .construct q) :
    SameRecord s t := by
  cases i with
  | construct q => exact absurd rfl (hi q)
  | _ =>
    rw [show t = _ from h]
    exact ⟨rfl, rfl, rfl⟩

theorem Completed.sameModelFields {i : Instr} {s t : State} (h : Completed i s t) : SameModelFields s t := by
  cases i <;> rw [show t = _ from h] <;> exact ⟨rfl, rfl, rfl⟩

/-! ### Static mode -/

/-- What a list has in adaptive mode only are the model's registers in the list of a session command. -/
theorem mem_adaptiveRegisters {i : Instr} {r : Register} (h : r ∈ mayWrite true i) (hn : r ∉ mayWrite false i) :
    r ∈ adaptiveRegisters true ∧
      (i = .encInit ∨ i = .decInit ∨ i = .decode ∨ ∃ sym, i = .encode sym) := by
  have hsession : ∀ l : List Register, r ∈ l ++ adaptiveRegisters true → r ∉ l ++ adaptiveRegisters false →
      r ∈ adaptiveRegisters true := fun l h1 h2 =>
    (List.mem_append.1 h1).resolve_left fun hl => h2 (List.mem_append_left _ hl)
  cases i with
  | encInit => exact ⟨hsession _ h hn, by simp⟩
  | decInit => exact ⟨hsession _ h hn, by simp⟩
  | decode => exact ⟨hsession _ h hn, by simp⟩
  | encode sym => exact ⟨hsession _ h hn, by simp⟩
  | _ => exact absurd h hn

theorem KeepsModel.same {s t : State} (h : KeepsModel s t) {r : Register} (hr : r ∈ adaptiveRegisters true) :
    r.same s t := by
  obtain ⟨hcounts, htotal, hcumulative, hvalid, hrun⟩ := h
  simp only [adaptiveRegisters, if_true, List.mem_cons, List.not_mem_nil, or_false] at hr
  rcases hr with rfl | rfl | rfl | rfl | rfl
  exacts [hcounts, htotal, hcumulative, hvalid, hrun]

/-- The register frame of a command's rule in the mode in force. -/
theorem bodyOf_same {i : Instr} {s t : State} (h : bodyOf i s = .next t) (hc : Completed i s t) {r : Register}
    (hr : r ∉ mayWrite s.adaptive i) : r.same s t := by
  by_cases hmem : r ∈ mayWrite true i
  · cases ha : s.adaptive with
    | true =>
      rw [ha] at hr
      exact absurd hmem hr
    | false =>
      rw [ha] at hr
      obtain ⟨hmodel, hi⟩ := mem_adaptiveRegisters hmem hr
      exact (bodyOf_keepsModel ha hi h).same hmodel
  · exact hc.same hmem

/-- Settles O55: by what the command did; in static mode the model stays (`bodyOf_keepsModel`). -/
theorem commandsWriteOnlyTheirRegisters : Obligations.CommandsWriteOnlyTheirRegisters := by
  intro i s t h
  rcases exec_next_unchanged_or_raised_or_completed h with rfl | hr | ⟨hb, hc⟩
  · exact ⟨fun r _ => by cases r <;> rfl, fun _ _ => ⟨rfl, rfl, rfl⟩, rfl, rfl, rfl⟩
  · refine ⟨fun r _ => hr.same r, fun _ hf => hr.sameRecord (hf.resolve_right ?_), hr.sameModelFields⟩
    simp [hr.fault_eq_true]
  · exact ⟨fun r => bodyOf_same hb hc, fun hi _ => hc.sameRecord hi, hc.sameModelFields⟩

/-! ### The transitions of `phase` -/

/-- The transitions of `phase` that a completed command makes from its legal phases (R35). -/
theorem Completed.phase_transition {i : Instr} {s t : State} (h : Completed i s t) (hl : s.phase ∈ phasesOf i)
    (hne : t.phase ≠ s.phase) :
    (∃ q, i = .construct q ∧ t.phase = .idle) ∨
    (i = .encInit ∧ s.phase = .idle ∧ t.phase = .enc) ∨
    (i = .decInit ∧ s.phase = .idle ∧ t.phase = .dec) ∨
    (i = .flush ∧ s.phase = .enc ∧ t.phase = .idle) ∨
    (i = .endSession ∧ (s.phase = .enc ∨ s.phase = .dec) ∧ t.phase = .idle) := by
  cases i with
  | construct q => exact .inl ⟨q, rfl, congrArg State.phase h⟩
  | encInit => exact .inr (.inl ⟨rfl, by simpa [phasesOf] using hl, congrArg State.phase h⟩)
  | decInit => exact .inr (.inr (.inl ⟨rfl, by simpa [phasesOf] using hl, congrArg State.phase h⟩))
  | flush => exact .inr (.inr (.inr (.inl ⟨rfl, by simpa [phasesOf] using hl, congrArg State.phase h⟩)))
  | endSession =>
    have ht : t.phase = .idle := congrArg State.phase h
    rw [ht] at hne
    exact .inr (.inr (.inr (.inr ⟨rfl, by simpa [phasesOf, hne.symm] using hl, ht⟩)))
  | _ => exact absurd (h.same (r := .phase) (by simp [mayWrite, adaptiveRegisters])) hne

theorem Completed.fault_eq_false_of_ready {i : Instr} {s t : State} (h : Completed i s t)
    (hr : s.fault = false ∨ ∃ q, i = .construct q) : t.fault = false := by
  rcases hr with hf | ⟨q, rfl⟩
  · exact h.fault_eq_false hf
  · exact congrArg State.fault h

/-- Settles O57: only a command that completes changes `phase`, and it leaves no fault. -/
theorem phaseChangesOnlyAsListed : Obligations.PhaseChangesOnlyAsListed := by
  intro i s t h hne
  rcases exec_next_cases i s t h with ⟨-, -, rfl⟩ | ⟨-, -, rfl⟩ | ⟨-, -, hr⟩ | ⟨hready, hl, hc, -⟩
  · exact absurd rfl hne
  · exact absurd rfl hne
  · exact absurd (hr.same .phase) hne
  · exact ⟨hc.fault_eq_false_of_ready hready, hc.phase_transition hl hne⟩

end Sys2Proof.Machine
end

