-- ==== Sys2Proof/Proofs/UnspecifiedTables.lean ====
section
/-! PROOF. No command reads a table whose content the spec leaves unspecified (10_state.md R47,
70_reset_and_hazards.md R247). -/

namespace Sys2Proof.Machine

/-- The gate of a command reads `fault` and `phase` alone (30_encoding.md R85): two states that agree on them
take the same way. -/
theorem exec_gate (i : Instr) {s s' : State} (hf : s'.fault = s.fault) (hp : s'.phase = s.phase) :
    (exec i s = .next s ∧ exec i s' = .next s') ∨
    (∃ r, exec i s = .next (s.raise r) ∧ exec i s' = .next (s'.raise r)) ∨
    (s.phase ∈ phasesOf i ∧ exec i s = bodyOf i s ∧ exec i s' = bodyOf i s') := by
  simp only [exec_eq_issue, issue, hf, hp, ← legalPhase_iff]
  split_ifs with hfault hlegal
  · exact .inl ⟨rfl, rfl⟩
  · exact .inr (.inr ⟨hlegal, rfl, rfl⟩)
  · exact .inr (.inl ⟨_, rfl, rfl⟩)

/-! ### Both tables in phase RESET -/

theorem raise_withTables (c : Table 256) (d : Table 257) (s : State) (r : Raise) :
    State.raise { s with counts := c, cumulative := d } r =
      { s.raise r with counts := c, cumulative := d } := by
  cases hf : s.fault <;> simp [State.raise, hf]

/-- `CONSTRUCT` writes `counts` and reads no table (40_session.md R100). -/
theorem bodyOf_construct_withTables {q : Byte} {s t : State} (c : Table 256) (d : Table 257)
    (h : bodyOf (.construct q) s = .next t) :
    bodyOf (.construct q) { s with counts := c, cumulative := d } =
        .next { t with counts := c, cumulative := d } ∨
      bodyOf (.construct q) { s with counts := c, cumulative := d } = .next { t with cumulative := d } := by
  simp only [bodyOf, constructAt] at h ⊢
  split_ifs at h ⊢ <;> cases h
  · exact .inl (congrArg _ (raise_withTables c d s _))
  · exact .inr rfl

/-! ### The cumulative table without a valid model -/

/-- The outcome `o'` reaches the state that `o` reaches, but for the table `d` where `cumulative` was not
written. -/
def SameButCumulative (d : Table 257) (o o' : Outcome) : Prop :=
  ∀ t, o = .next t → o' = .next { t with cumulative := d } ∨ o' = .next t

theorem SameButCumulative.written (d : Table 257) (o : Outcome) : SameButCumulative d o o := fun _ h => .inr h

theorem SameButCumulative.kept (d : Table 257) (t : State) :
    SameButCumulative d (.next t) (.next { t with cumulative := d }) := by
  intro u h
  cases h
  exact .inl rfl

theorem SameButCumulative.raise (d : Table 257) (s : State) (r : Raise) :
    SameButCumulative d (.next (s.raise r)) (.next (State.raise { s with cumulative := d } r)) := by
  have he : State.raise { s with cumulative := d } r = { s.raise r with cumulative := d } := by
    cases hf : s.fault <;> simp [State.raise, hf]
  rw [he]
  exact .kept d _

/-- The commit of one and the same course. -/
theorem SameButCumulative.of_pure (d : Table 257) (s : State) (e : Except Raise State) :
    SameButCumulative d (concludePure s e) (concludePure { s with cumulative := d } e) := by
  cases e with
  | error r => exact .raise d s r
  | ok u => exact .written d _

theorem SameButCumulative.of_run (d : Table 257) (s : State) (m : Run State) :
    SameButCumulative d (conclude s m) (conclude { s with cumulative := d } m) := by
  cases m with
  | raised r bs => exact .raise d { s with bs := bs } r
  | done u bs => exact .written d _

/-- The commit of a course that neither reads nor writes the table. -/
theorem SameButCumulative.of_run_unread {α : Type} (d : Table 257) (s : State) (m : Run α) (u : α → State) :
    SameButCumulative d (conclude s (m.bind fun x bs => .done (u x) bs))
      (conclude { s with cumulative := d }
        (m.bind fun x bs => .done { u x with cumulative := d } bs)) := by
  cases m with
  | raised r bs => exact .raise d { s with bs := bs } r
  | done x bs => exact .kept d { u x with bs := bs }

/-- Without a valid model a session starts from a new table or not at all (44_encoder.md R150). -/
theorem sessionModel_withCumulative (d : Table 257) (w : Word) {s : State} (hv : s.modelValid = false) :
    sessionModel w { s with cumulative := d } = sessionModel w s := by
  unfold sessionModel
  rw [hv]
  rfl

/-- The rules of phase IDLE without a valid model read no entry of `cumulative`. -/
theorem bodyOf_withCumulative {i : Instr} {s : State} (d : Table 257) (hph : s.phase = .idle)
    (hl : s.phase ∈ phasesOf i) (hv : s.modelValid = false) :
    SameButCumulative d (bodyOf i s) (bodyOf i { s with cumulative := d }) := by
  cases i with
  | construct q =>
    simp only [bodyOf, constructAt]
    split_ifs
    · exact .raise d s _
    · exact .kept d _
  | mreset => exact .kept d _
  | madd sym =>
    simp only [bodyOf, addOccurrence]
    split_ifs
    · exact .raise d s _
    · exact .raise d s _
    · exact .kept d _
  | rescale => exact .of_pure d s _
  | runiform => exact .of_pure d s _
  | getbit =>
    exact .of_run_unread d s (getBit s.capacity s.indexOperand s.bs) fun b =>
      { s with result := BitVec.ofNat 32 b }
  | setbit v =>
    exact .of_run_unread d s (setBit s.capacity s.indexOperand (bitOperand v) s.bs) fun _ => s
  | encInit =>
    have he : encInitStaged { s with cumulative := d } = encInitStaged s := by
      unfold encInitStaged
      rw [sessionModel_withCumulative d _ hv]
      rfl
    rw [bodyOf, bodyOf, he]
    exact .of_pure d s _
  | decInit =>
    have he : decInitRun { s with cumulative := d } = decInitRun s := by
      unfold decInitRun
      rw [sessionModel_withCumulative d _ hv]
      rfl
    rw [bodyOf, bodyOf, he]
    exact .of_run d s _
  | endSession => exact .kept d _
  | encode sym => simp [phasesOf, hph] at hl
  | flush => simp [phasesOf, hph] at hl
  | decode => simp [phasesOf, hph] at hl

/-- Settles O56: the gate reads no table; behind it in RESET stands `CONSTRUCT` alone, and in IDLE without a
model no rule reads `cumulative`. -/
theorem unspecifiedTablesAreNeverRead : Obligations.UnspecifiedTablesAreNeverRead := by
  intro i s t c d h
  constructor
  · intro hph
    rcases exec_gate i (s := s) (s' := { s with counts := c, cumulative := d }) rfl rfl with
      ⟨h1, h2⟩ | ⟨r, h1, h2⟩ | ⟨hl, h1, h2⟩ <;> rw [h1] at h <;> rw [h2]
    · cases h
      exact .inl rfl
    · cases h
      exact .inl (congrArg _ (raise_withTables c d s r))
    · obtain ⟨q, rfl⟩ : ∃ q, i = .construct q := by
        rw [hph] at hl
        cases i <;> simp [phasesOf] at hl ⊢
      exact bodyOf_construct_withTables c d h
  · intro hph hv
    rcases exec_gate i (s := s) (s' := { s with cumulative := d }) rfl rfl with
      ⟨h1, h2⟩ | ⟨r, h1, h2⟩ | ⟨hl, h1, h2⟩ <;> rw [h1] at h <;> rw [h2]
    · exact SameButCumulative.kept d s t h
    · exact SameButCumulative.raise d s r t h
    · exact bodyOf_withCumulative d hph hl hv t h

end Sys2Proof.Machine
end

