-- ==== Sys2Proof/Proofs/BsAccess.lean ====
section
/-! PROOF. Who changes BS and how (20_memory.md R61, R68, R70): the commands in bounds only, the host outside
sessions; and that nothing else stops a step. -/

namespace Sys2Proof.Machine

/-! ### The commands (R68) -/

theorem Raised.keepsOutside {i : Instr} {s t : State} (h : Raised i s t) :
    KeepsOutside s.capacity s.bs t.bs := by
  obtain ⟨r, bs, hk, -, rfl, -⟩ := h
  simpa using hk

theorem Raised.bs_eq {i : Instr} {s t : State} (h : Raised i s t) (hi : ¬ WritesBeforeFault i) :
    t.bs = s.bs := by
  obtain ⟨r, bs, -, hbs, rfl, -⟩ := h
  simpa using hbs hi

/-- The three commands that write BS (R68). -/
def WritesBs (i : Instr) : Prop := (∃ v, i = .setbit v) ∨ WritesBeforeFault i

theorem Completed.bs_eq {i : Instr} {s t : State} (h : Completed i s t) (hi : ¬ WritesBs i) :
    t.bs = s.bs := by
  cases i with
  | setbit v => exact absurd (.inl ⟨v, rfl⟩) hi
  | encode sym => exact absurd (.inr (.inl ⟨sym, rfl⟩)) hi
  | flush => exact absurd (.inr (.inr rfl)) hi
  | _ => exact (congrArg State.bs h).trans rfl

/-- Every command keeps BS canonical and the bytes outside the session's buffer. -/
theorem exec_keepsOutside {i : Instr} {s t : State} (h : exec i s = .next t) :
    KeepsOutside s.capacity s.bs t.bs := by
  rcases exec_next_cases i s t h with ⟨-, -, rfl⟩ | ⟨-, -, rfl⟩ | ⟨-, -, hr⟩ | ⟨-, -, -, hk⟩
  · exact KeepsOutside.refl _ _
  · exact KeepsOutside.refl _ _
  · exact hr.keepsOutside
  · exact hk

theorem exec_bs_eq {i : Instr} {s t : State} (h : exec i s = .next t) (hi : ¬ WritesBs i) : t.bs = s.bs := by
  rcases exec_next_unchanged_or_raised_or_completed h with rfl | hr | ⟨-, hc⟩
  · rfl
  · exact hr.bs_eq fun hw => hi (.inr hw)
  · exact hc.bs_eq hi

/-- Settles O54: the byte at `a` holds the indices from `8 * a` up, so from `bs_size` on it lies outside the
`8 * bs_size` indices that a command can write. -/
theorem commandsWriteBsInBoundsOnly : Obligations.CommandsWriteBsInBoundsOnly := by
  intro i s t h
  refine ⟨fun a ha => (exec_keepsOutside h).2 a (Nat.mul_le_mul_left 8 ha), fun hset henc hflush => ?_⟩
  refine exec_bs_eq h ?_
  rintro (⟨v, hi⟩ | ⟨sym, hi⟩ | hi)
  · exact hset v hi
  · exact henc sym hi
  · exact hflush hi

/-! ### The host's own accesses (R70) -/

theorem sessionOwns_iff (a : Nat) (s : State) :
    sessionOwns a s = true ↔ (s.phase = .enc ∨ s.phase = .dec) ∧ s.fault = false ∧ a < s.bsSize.toNat := by
  rw [sessionOwns, Bool.and_eq_true, activeSession_iff, decide_eq_true_iff, and_assoc]

theorem activeSession_of_sessionOwns {a : Nat} {s : State} (h : sessionOwns a s = true) :
    s.activeSession = true := (Bool.and_eq_true_iff.1 h).1

theorem hostBsWrite_free {a : BitVec 29} {s : State} (h : ¬ sessionOwns a.toNat s = true) (v : Byte) :
    hostBsWrite a v s = .next { s with bs := s.bs.write a.toNat v } := if_neg h

theorem hostBsWrite_owned {a : BitVec 29} {s : State} (h : sessionOwns a.toNat s = true) (v : Byte) :
    hostBsWrite a v s = .refused .bsOwnedBySession := if_pos h

theorem hostBsRead_free {a : BitVec 29} {s : State} (h : ¬ sessionOwns a.toNat s = true) :
    hostBsRead a s = .next { s with hostData := (s.bs.read a.toNat).setWidth 32 } := if_neg h

theorem hostBsRead_owned {a : BitVec 29} {s : State} (h : sessionOwns a.toNat s = true) :
    hostBsRead a s = .refused .bsOwnedBySession := if_pos h

/-- Settles O48: the region of the refusal is `sessionOwns`; outside it the laws of the memory
(`Memory.read_write_same`, `Memory.read_write_other`, `Memory.wf_write`) say what a write does. -/
theorem hostOwnsBsOutsideSessions : Obligations.HostOwnsBsOutsideSessions := by
  intro s a v rest
  constructor
  · intro hfree
    have hs : ¬ sessionOwns a.toNat { s with host := rest } = true := (sessionOwns_iff _ _).not.2 hfree
    refine ⟨fun hhost => ⟨s.bs.write a.toNat v, ?_, Memory.read_write_same _ _ _,
      fun b => Memory.read_write_other _ _, fun hw => Memory.wf_write v hw a.isLt⟩, fun hhost => ?_⟩
    · exact (step_of_cons hhost).trans (hostBsWrite_free hs v)
    · exact (step_of_cons hhost).trans (hostBsRead_free hs)
  · intro hph hf ha hhost
    have hs : sessionOwns a.toNat { s with host := rest } = true := (sessionOwns_iff _ _).2 ⟨hph, hf, ha⟩
    rcases hhost with hhost | hhost
    · exact (step_of_cons hhost).trans (hostBsWrite_owned hs v)
    · exact (step_of_cons hhost).trans (hostBsRead_owned hs)

/-! ### BS over a step (R61) -/

@[simp] theorem writeConfig_bs (o : Nat) (v : Word) (s : State) : (writeConfig o v s).bs = s.bs := by
  unfold writeConfig
  split_ifs <;> rfl

@[simp] theorem registerWrite_bs (o : Nat) (v : Word) (s : State) : (registerWrite o v s).bs = s.bs := by
  unfold registerWrite
  split_ifs <;> simp

theorem commandWrite_keepsOutside {w : Word} {s t : State} (h : commandWrite w s = .next t) :
    KeepsOutside s.capacity s.bs t.bs := by
  unfold commandWrite at h
  split at h
  · exact exec_keepsOutside h
  · cases h
    rw [illegalCommand, State.raise_bs]
    exact KeepsOutside.refl _ _

/-- What a transaction can do to BS: the host's own write, or no more than a command. -/
theorem perform_bs_cases {x : Transaction} {s t : State} (h : perform x s = .next t) :
    (∃ a v, x = .bsWrite a v ∧ t.bs = s.bs.write a.toNat v) ∨ KeepsOutside s.capacity s.bs t.bs := by
  have hsame : t.bs = s.bs → KeepsOutside s.capacity s.bs t.bs := fun hbs => by
    rw [hbs]
    exact KeepsOutside.refl _ _
  cases x with
  | write a v =>
    by_cases ha : a = 0
    · rw [ha, perform_write_cmd] at h
      exact .inr (commandWrite_keepsOutside h)
    · rw [perform_write_register ha] at h
      cases h
      exact .inr (hsame (registerWrite_bs _ v s))
  | read a =>
    cases h
    exact .inr (hsame rfl)
  | bsWrite a v =>
    by_cases ho : sessionOwns a.toNat s = true
    · cases (hostBsWrite_owned ho v).symm.trans h
    · cases (hostBsWrite_free ho v).symm.trans h
      exact .inl ⟨a, v, rfl, rfl⟩
  | bsRead a =>
    by_cases ho : sessionOwns a.toNat s = true
    · cases (hostBsRead_owned ho).symm.trans h
    · cases (hostBsRead_free ho).symm.trans h
      exact .inr (hsame rfl)
  | rst =>
    cases h
    exact .inr (hsame rfl)

/-- Settles O51: a command writes within the 29-bit addresses that `bs_size` admits, the host at the 29-bit
address of its access. -/
theorem stepKeepsBsCanonical : Obligations.StepKeepsBsCanonical := by
  intro s t hw h
  cases hhost : s.host with
  | nil =>
    rw [step_of_nil hhost] at h
    cases h
    exact hw
  | cons x rest =>
    rw [step_of_cons hhost] at h
    rcases perform_bs_cases h with ⟨a, v, -, hbs⟩ | hk
    · rw [hbs]
      exact Memory.wf_write v hw a.isLt
    · exact hk.1 hw

/-! ### What stops a step -/

theorem conclude_completes (s : State) (m : Run State) : ∃ t, conclude s m = .next t := by
  cases m with
  | done u bs => exact ⟨_, conclude_done s u bs⟩
  | raised r bs => exact ⟨_, conclude_raised s r bs⟩

theorem concludePure_completes (s : State) (e : Except Raise State) : ∃ t, concludePure s e = .next t := by
  cases e with
  | ok u => exact ⟨_, concludePure_ok s u⟩
  | error r => exact ⟨_, concludePure_error s r⟩

/-- The rule of every command ends in a commit, which answers a next state (70_reset_and_hazards.md R245). -/
theorem bodyOf_completes (i : Instr) (s : State) : ∃ t, bodyOf i s = .next t := by
  cases i with
  | mreset | endSession => exact ⟨_, rfl⟩
  | construct | madd | rescale | runiform | encInit => exact concludePure_completes s _
  | getbit | setbit | encode | flush | decInit | decode => exact conclude_completes s _

theorem exec_completes (i : Instr) (s : State) : ∃ t, exec i s = .next t := by
  rcases exec_cases i s with ⟨-, -, hx⟩ | ⟨-, -, hx⟩ | ⟨-, -, hx⟩ <;> rw [hx]
  · exact ⟨s, rfl⟩
  · exact ⟨_, rfl⟩
  · exact bodyOf_completes i s

theorem commandWrite_completes (w : Word) (s : State) : ∃ t, commandWrite w s = .next t := by
  unfold commandWrite
  split
  · exact exec_completes _ s
  · exact ⟨_, rfl⟩

/-- A transaction is completed, or it is a host access to the BS of the session in progress. -/
theorem perform_completes_or_refused (x : Transaction) (s : State) :
    (∃ t, perform x s = .next t) ∨
    (perform x s = .refused .bsOwnedBySession ∧ s.activeSession = true ∧
      ∃ a, (∃ v, x = .bsWrite a v) ∨ x = .bsRead a) := by
  cases x with
  | write a v =>
    by_cases ha : a = 0
    · rw [ha, perform_write_cmd]
      exact .inl (commandWrite_completes v s)
    · exact .inl ⟨_, perform_write_register ha v s⟩
  | read a => exact .inl ⟨_, rfl⟩
  | bsWrite a v =>
    by_cases ho : sessionOwns a.toNat s = true
    · exact .inr ⟨hostBsWrite_owned ho v, activeSession_of_sessionOwns ho, a, .inl ⟨v, rfl⟩⟩
    · exact .inl ⟨_, hostBsWrite_free ho v⟩
  | bsRead a =>
    by_cases ho : sessionOwns a.toNat s = true
    · exact .inr ⟨hostBsRead_owned ho, activeSession_of_sessionOwns ho, a, .inr rfl⟩
    · exact .inl ⟨_, hostBsRead_free ho⟩
  | rst => exact .inl ⟨_, rfl⟩

/-- Settles O60: with nothing pending a step answers its own state, else it is one transaction. -/
theorem stepStopsOnlyForHostBsAccess : Obligations.StepStopsOnlyForHostBsAccess := by
  intro s
  cases hhost : s.host with
  | nil => simp [step_of_nil hhost]
  | cons x rest =>
    rw [step_of_cons hhost]
    rcases perform_completes_or_refused x { s with host := rest } with
      ⟨t, ht⟩ | ⟨hrefused, hactive, a, hx⟩
    · simp [ht]
    · rw [hrefused]
      refine ⟨nofun, fun r hr => ?_, nofun⟩
      cases hr
      exact ⟨rfl, hactive, a, rest,
        hx.imp (Exists.imp fun _ => congrArg (· :: rest)) (congrArg (· :: rest))⟩

end Sys2Proof.Machine
end

