-- ==== Sys2Proof/Proofs/Encoding.lean ====
section
/-! PROOF. The encoding (30_encoding.md R81 to R87): decoder and encoder are inverse to each other, and a word
is legal by its fields. -/

namespace Sys2Proof

/-! ### The fields under a row's mask -/

/-- A word is determined by its fields (R81). -/
theorem word_ext_iff_fields {w v : Word} :
    w = v ↔ opField w = opField v ∧ rsvField w = rsvField v ∧ imm8Field w = imm8Field v := by
  refine ⟨fun h => h ▸ ⟨rfl, rfl, rfl⟩, fun ⟨hop, hrsv, himm⟩ => BitVec.eq_of_toNat_eq ?_⟩
  rw [word_of_fields, word_of_fields v, hop, hrsv, himm]

/-- A mask acts on each field by its own field (R83). -/
theorem and_eq_iff_fields (w m v : Word) : w &&& m = v ↔
    opField w &&& opField m = opField v ∧ rsvField w &&& rsvField m = rsvField v ∧
      imm8Field w &&& imm8Field m = imm8Field v := by
  simp only [word_ext_iff_fields, opField, rsvField, imm8Field, BitVec.extractLsb'_and]

/-- The bits of `imm8` that a format wants to be zero (R81). -/
def Format.zeroBits : Format → Byte
  | .n => 0xFF
  | .b => 0x00
  | .v => 0xFE

theorem Format.operandOk_iff (f : Format) (imm8 : Byte) :
    f.operandOk imm8 = true ↔ imm8 &&& f.zeroBits = 0 := by
  cases f with
  | n => revert imm8; decide
  | b => simp [operandOk, zeroBits]
  | v => revert imm8; decide

/-- A mask takes `op` and `rsv` whole, and of `imm8` the bits that the format wants to be zero (R84). -/
theorem opcodeMap_masks : ∀ r ∈ opcodeMap,
    opField r.mask = BitVec.allOnes 8 ∧ rsvField r.mask = BitVec.allOnes 16 ∧
      rsvField r.word = 0 ∧ imm8Field r.word = 0 ∧
      (formatOfOpcode (opField r.word)).map Format.zeroBits = some (imm8Field r.mask) := by
  decide

theorem wellFormedFields_iff (op : Byte) (rsv : BitVec 16) (imm8 : Byte) :
    wellFormedFields op rsv imm8 = true ↔
      rsv = 0 ∧ ∃ f, formatOfOpcode op = some f ∧ f.operandOk imm8 = true := by
  cases h : formatOfOpcode op <;> simp [wellFormedFields, h]

/-- A row spells the well-formed words of its opcode (R83, R86). -/
theorem spells_iff_fields {r : OpcodeRow} (hr : r ∈ opcodeMap) (w : Word) : r.spells w = true ↔
    opField w = opField r.word ∧
      wellFormedFields (opField w) (rsvField w) (imm8Field w) = true := by
  obtain ⟨hop, hrsv, hrsv0, himm0, hf⟩ := opcodeMap_masks r hr
  obtain ⟨f, hf, hbits⟩ := Option.map_eq_some_iff.1 hf
  rw [OpcodeRow.spells, beq_iff_eq, and_eq_iff_fields, hop, hrsv, hrsv0, himm0, ← hbits,
    BitVec.and_allOnes, BitVec.and_allOnes, ← Format.operandOk_iff, wellFormedFields_iff]
  refine and_congr_right fun hw => and_congr_right fun _ => ?_
  simp [hw, hf]

/-! ### Exclusion of the rows -/

theorem opcodeMap_opcodes_nodup : (opcodeMap.map fun r => opField r.word).Nodup := by decide

/-- Settles O5: two rows that spell one word would share its opcode. -/
theorem rowsAreMutuallyExclusive : Obligations.RowsAreMutuallyExclusive := by
  refine fun w => ⟨?_, decode_isError_iff w⟩
  refine (List.pairwise_map.1 opcodeMap_opcodes_nodup).imp_of_mem fun ha hb hne ⟨hwa, hwb⟩ => hne ?_
  exact ((spells_iff_fields ha w).1 hwa).1.symm.trans ((spells_iff_fields hb w).1 hwb).1

/-- The row that spells a word is the one the decoder finds. -/
theorem decode_of_spells {r : OpcodeRow} (hr : r ∈ opcodeMap) {w : Word} (h : r.spells w = true) :
    decode w = .ok (r.build (imm8Field w)) := by
  cases hd : decode w with
  | error e => simp [(decode_isError_iff w).1 ⟨e, hd⟩ r hr] at h
  | ok i =>
    obtain ⟨r', hr', h', rfl⟩ := decode_eq_ok hd
    have hop := ((spells_iff_fields hr w).1 h).1.symm.trans ((spells_iff_fields hr' w).1 h').1
    rw [List.inj_on_of_nodup_map opcodeMap_opcodes_nodup hr hr' hop]

/-! ### The two inversions -/

/-- The word of a command with an operand byte decodes to that command. -/
theorem decode_or_byte {m : Word} {f : Byte → Instr} (hr : ⟨m, 0xFFFFFF00, f⟩ ∈ opcodeMap)
    (hm : m = 0x01000000 ∨ m = 0x03000000 ∨ m = 0x09000000) (b : Byte) :
    decode (m ||| b.setWidth 32) = .ok (f b) := by
  have hlow : m.toNat % 2 ^ 8 = 0 := by rcases hm with rfl | rfl | rfl <;> rfl
  have hspells : OpcodeRow.spells ⟨m, 0xFFFFFF00, f⟩ (m ||| b.setWidth 32) = true := by
    rw [spells_b, toNat_or_byte m b hlow]
    have := b.isLt
    omega
  rw [decode_of_spells hr hspells, (Laws.EncodedFields.byte_fields b m hm).2.1]

/-- Settles O1: the commands with an operand byte by their rows; the others have a word or two to evaluate. -/
theorem decodeInvertsEncode : Obligations.DecodeInvertsEncode := by
  intro i
  cases i with
  | construct q => exact decode_or_byte (by simp [opcodeMap]) (by decide) q
  | madd sym => exact decode_or_byte (by simp [opcodeMap]) (by decide) sym
  | encode sym => exact decode_or_byte (by simp [opcodeMap]) (by decide) sym
  | setbit v => cases v <;> rfl
  | _ => rfl

theorem imm8Field_toNat (w : Word) : (imm8Field w).toNat = w.toNat % 2 ^ 8 := by
  simp [imm8Field, BitVec.extractLsb'_toNat]

/-- A word that a format-B row spells is `match | imm8` (R84). -/
theorem or_imm8Field_of_spells_b {m w : Word} {f : Byte → Instr} (hm : m.toNat % 2 ^ 8 = 0)
    (h : OpcodeRow.spells ⟨m, 0xFFFFFF00, f⟩ w = true) : m ||| (imm8Field w).setWidth 32 = w := by
  rw [spells_b] at h
  apply BitVec.eq_of_toNat_eq
  rw [toNat_or_byte m _ hm, imm8Field_toNat]
  omega

/-- The word that a format-N row spells is its `match` (R84). -/
theorem eq_of_spells_n {m w : Word} {f : Byte → Instr}
    (h : OpcodeRow.spells ⟨m, 0xFFFFFFFF, f⟩ w = true) : m = w :=
  (BitVec.eq_of_toNat_eq ((spells_n m w f).1 h)).symm

theorem imm8Field_bit_zero_toNat (w : Word) : ((imm8Field w).getLsbD 0).toNat = w.toNat % 2 := by
  have h := Nat.mod_mod_of_dvd w.toNat (by decide : 2 ∣ 2 ^ 8)
  rw [BitVec.getLsbD, imm8Field_toNat, Nat.toNat_testBit, pow_zero, Nat.div_one, h]

theorem encode_setbit_toNat (v : Bool) : (encode (.setbit v)).toNat = 0x07000000 + v.toNat := by
  cases v <;> rfl

/-- A word that the row of `SETBIT` spells is `match | imm8[0]` (R84). -/
theorem encode_setbit_of_spells_v {w : Word} {f : Byte → Instr}
    (h : OpcodeRow.spells ⟨0x07000000, 0xFFFFFFFE, f⟩ w = true) :
    encode (.setbit ((imm8Field w).getLsbD 0)) = w := by
  rw [spells_v, show (0x07000000 : Word).toNat = 0x07000000 from rfl] at h
  apply BitVec.eq_of_toNat_eq
  rw [encode_setbit_toNat, imm8Field_bit_zero_toNat]
  omega

/-- A word that a row spells is the word of the command that the row builds (R83, R84, R90). -/
theorem encode_build_of_spells (w : Word) :
    ∀ r ∈ opcodeMap, r.spells w = true → encode (r.build (imm8Field w)) = w := by
  simp only [opcodeMap, List.forall_mem_cons]
  exact ⟨or_imm8Field_of_spells_b rfl, eq_of_spells_n, or_imm8Field_of_spells_b rfl, eq_of_spells_n,
    eq_of_spells_n, eq_of_spells_n, encode_setbit_of_spells_v, eq_of_spells_n, or_imm8Field_of_spells_b rfl,
    eq_of_spells_n, eq_of_spells_n, eq_of_spells_n, eq_of_spells_n, nofun⟩

/-- Settles O2: the decoder builds the command of a row that spells the word. -/
theorem encodeInvertsDecode : Obligations.EncodeInvertsDecode := by
  intro w i h
  obtain ⟨r, hr, hspells, rfl⟩ := decode_eq_ok h
  exact encode_build_of_spells w r hr hspells

/-- Settles O4: the legal words are the words of their commands; the illegal ones the decoder evaluates. -/
theorem writtenOutWordsDecode : Obligations.WrittenOutWordsDecode :=
  ⟨decodeInvertsEncode (.construct 16), decodeInvertsEncode (.construct 255), decodeInvertsEncode .mreset,
    decodeInvertsEncode (.madd 0x61), decodeInvertsEncode (.setbit false), decodeInvertsEncode (.setbit true),
    decodeInvertsEncode (.encode 0xFF), decodeInvertsEncode .decode, decodeInvertsEncode .endSession,
    rfl, rfl, rfl⟩

/-! ### The illegal words -/

/-- Every opcode that has a format has a row (R84). -/
theorem exists_row_of_formatOfOpcode : ∀ op : Byte, formatOfOpcode op ≠ none →
    ∃ r ∈ opcodeMap, op = opField r.word := by
  decide

/-- A word is illegal iff its fields are not well formed (R86). -/
theorem decode_isError_iff_fields (w : Word) : (∃ e, decode w = .error e) ↔
    ¬ wellFormedFields (opField w) (rsvField w) (imm8Field w) = true := by
  rw [decode_isError_iff]
  constructor
  · intro hnone hwf
    obtain ⟨-, f, hf, -⟩ := (wellFormedFields_iff _ _ _).1 hwf
    obtain ⟨r, hr, hop⟩ := exists_row_of_formatOfOpcode (opField w) (by simp [hf])
    simpa [hnone r hr] using (spells_iff_fields hr w).2 ⟨hop, hwf⟩
  · intro hwf r hr
    exact Bool.eq_false_iff.2 fun h => hwf ((spells_iff_fields hr w).1 h).2

theorem formatOfOpcode_eq_none_iff : ∀ op : Byte, formatOfOpcode op = none ↔ op = 0 ∨ 0x0E ≤ op.toNat := by
  decide

theorem formatOfOpcode_eq_n_iff : ∀ op : Byte, formatOfOpcode op = some .n ↔
    op.toNat ∈ [0x02, 0x04, 0x05, 0x06, 0x08, 0x0A, 0x0B, 0x0C, 0x0D] := by
  decide

theorem formatOfOpcode_eq_v_iff : ∀ op : Byte, formatOfOpcode op = some .v ↔ op.toNat = 0x07 := by decide

theorem Format.operandOk_v_eq_false_iff : ∀ imm8 : Byte, Format.v.operandOk imm8 = false ↔ 2 ≤ imm8.toNat := by
  decide

/-- The four conditions of R86 are the ways in which fields are not well formed. -/
theorem not_wellFormedFields_iff (op : Byte) (rsv : BitVec 16) (imm8 : Byte) :
    ¬ wellFormedFields op rsv imm8 = true ↔
      op = 0 ∨ 0x0E ≤ op.toNat ∨ rsv ≠ 0 ∨
        (op.toNat ∈ [0x02, 0x04, 0x05, 0x06, 0x08, 0x0A, 0x0B, 0x0C, 0x0D] ∧ imm8 ≠ 0) ∨
        (op.toNat = 0x07 ∧ 2 ≤ imm8.toNat) := by
  rw [← or_assoc, ← formatOfOpcode_eq_none_iff, ← formatOfOpcode_eq_n_iff, ← formatOfOpcode_eq_v_iff,
    ← Format.operandOk_v_eq_false_iff]
  cases h : formatOfOpcode op with
  | none => simp [wellFormedFields, h]
  | some f =>
    have hwf : ¬ wellFormedFields op rsv imm8 = true ↔ rsv ≠ 0 ∨ f.operandOk imm8 = false := by
      simp [wellFormedFields, h, imp_iff_not_or]
    cases f with
    | n => simp [hwf, Format.operandOk]
    | b => simp [hwf, Format.operandOk]
    | v => simp [hwf]

end Sys2Proof
end

