-- ==== Sys2Proof/Proofs/CommandChecks.lean ====
section
/-! PROOF. The checks of a command word (30_encoding.md R85, R86, R88): legality, fault gate, phase. -/

namespace Sys2Proof.Machine

theorem commandWrite_of_illegal {w : Word} {e : IllegalWord} (h : decode w = .error e) (s : State) :
    commandWrite w s = .next (s.raise ⟨.illegalCmd, w.toNat⟩) := by
  rw [commandWrite, h]
  rfl

/-- An illegal word raises `ILLEGAL_CMD(w)` (R85 step 3). -/
theorem commandWrite_of_illegal_ready {w : Word} {e : IllegalWord} (h : decode w = .error e) {s : State}
    (hf : s.fault = false) : commandWrite w s = .next (s.faulted 1 w) := by
  rw [commandWrite_of_illegal h, raise_faulted hf .illegalCmd _ w (ofNat_toNat_word w)]
  rfl

/-- Settles O3: the conditions say that the fields are not well formed. -/
theorem illegalWordsAreThoseOfTheFields : Obligations.IllegalWordsAreThoseOfTheFields := by
  intro w s hf
  rw [← not_wellFormedFields_iff, ← decode_isError_iff_fields]
  refine ⟨fun ⟨e, he⟩ => ⟨⟨e, he⟩, commandWrite_of_illegal_ready he hf⟩, fun hok => ?_⟩
  cases hd : decode w with
  | error e => exact absurd ⟨e, hd⟩ hok
  | ok i => exact ⟨i, rfl⟩

/-- Settles O9: of the three things a command can do first, a fault leaves only this one. -/
theorem faultedMachineIgnoresCommands : Obligations.FaultedMachineIgnoresCommands := by
  intro i s hf hi
  rcases exec_cases i s with ⟨-, -, h⟩ | ⟨hf', -, -⟩ | ⟨hready, -, -⟩
  · exact h
  · simp [hf] at hf'
  · rcases hready with hf' | ⟨q, hq⟩
    · simp [hf] at hf'
    · exact absurd hq (hi q)

/-- Settles O8: of the three things a command can do first, an illegal phase leaves only this one. -/
theorem illegalPhaseRaisesSequence : Obligations.IllegalPhaseRaisesSequence := by
  intro i s hf hp
  rcases exec_cases i s with ⟨hf', -, -⟩ | ⟨-, -, h⟩ | ⟨-, hp', -⟩
  · simp [hf] at hf'
  · exact h
  · exact absurd hp' hp

/-- Settles O7: one clause per outcome; the info word of `SEQUENCE` is the word written, because a command
has no other. -/
theorem commandChecksInOrder : Obligations.CommandChecksInOrder := by
  intro w s
  refine ⟨fun hf hc => ?_, fun hf hill => ?_, fun i hf hd hp => ?_,
    fun i hd _ _ => commandWrite_of_decode hd s⟩
  · cases hd : decode w with
    | error e => rw [commandWrite_of_illegal hd, raise_again _ hf]
    | ok i =>
      rw [commandWrite_of_decode hd]
      exact faultedMachineIgnoresCommands i s hf fun q hq => hc q (by rw [hd, hq])
  · cases hd : decode w with
    | error e => exact commandWrite_of_illegal_ready hd hf
    | ok i => exact absurd hd (hill i)
  · rw [commandWrite_of_decode hd, illegalPhaseRaisesSequence i s hf hp, encodeInvertsDecode w i hd]

end Sys2Proof.Machine
end

