-- ==== Sys2Proof/Proofs/Session.lean ====
section
/-! PROOF. Session control (40_session.md R100, R101): `CONSTRUCT` and `END`. -/

namespace Sys2Proof.Machine

/-! ### `CONSTRUCT` -/

/-- At a precision of R100 the check passes. -/
theorem constructAt_legal {q : Nat} (hmin : 3 ≤ q) (hmax : q ≤ 31) (s : State) :
    constructAt q s = .ok (constructState q s) :=
  if_neg (not_or.2 ⟨Nat.not_lt.2 hmin, Nat.not_lt.2 hmax⟩)

/-- At any other the check raises `PRECISION(q)`. -/
theorem constructAt_illegal {q : Nat} (h : q < 3 ∨ 31 < q) (s : State) :
    constructAt q s = .error ⟨.precision, q⟩ := if_pos h

/-- The field `precision` holds the low five bits of the operand byte. -/
theorem ofNat_toNat_precision (q : Byte) : BitVec.ofNat 5 q.toNat = q.setWidth 5 := by
  apply BitVec.eq_of_toNat_eq
  simp

theorem exec_construct_legal {q : Byte} (hmin : 3 ≤ q.toNat) (hmax : q.toNat ≤ 31) (s : State) :
    exec (.construct q) s = .next (constructState q.toNat s) := by
  rw [exec_construct, constructAt_legal hmin hmax, concludePure_ok]

theorem exec_construct_illegal {q : Byte} (h : q.toNat < 3 ∨ 31 < q.toNat) (s : State) :
    exec (.construct q) s = .next (s.raise ⟨.precision, q.toNat⟩) := by
  rw [exec_construct, constructAt_illegal h, concludePure_error]

/-- Settles O11: `CONSTRUCT` is its commit at a legal precision, and else a raise, which writes the record or
finds one. -/
theorem constructMakesACoderState : Obligations.ConstructMakesACoderState := by
  refine fun q s => ⟨fun hmin hmax => ⟨Table.fill 256 1, fun j => Table.get_fill 1, ?_⟩,
    fun h => ⟨fun hf => ?_, fun hf => ?_⟩⟩
  · rw [exec_construct_legal hmin hmax, ← ofNat_toNat_precision]
    rfl
  · rw [exec_construct_illegal h, raise_faulted hf .precision _ _ (ofNat_toNat_byte q)]
    rfl
  · rw [exec_construct_illegal h, raise_again _ hf]

/-! ### `END` -/

/-- Settles O12: RESET is the one phase in which `END` is illegal. -/
theorem endOnlyLeavesTheSession : Obligations.EndOnlyLeavesTheSession := by
  refine fun s hf => ⟨fun hp => ?_, fun hp => ?_⟩
  · have hlegal : s.phase ∈ phasesOf .endSession := by simpa [phasesOf] using hp
    exact exec_ready hf hlegal
  · have hillegal : s.phase ∉ phasesOf .endSession := by simp [phasesOf, hp]
    exact illegalPhaseRaisesSequence .endSession s hf hillegal

end Sys2Proof.Machine
end

