-- ==== Sys2Proof/Proofs/ProbabilityModel.lean ====
section
/-! PROOF. The probability model (41_model.md R110 to R116): `MRESET`, `MADD`, `RESCALE`, `RUNIFORM`, and the
table that `Rescale(T)` commits. -/

namespace Sys2Proof.Machine

/-- A command whose one legal phase is IDLE is its rule there (30_encoding.md R88). -/
theorem exec_idle {i : Instr} {s : State} (hi : phasesOf i = [.idle]) (hf : s.fault = false)
    (hp : s.phase = .idle) : exec i s = bodyOf i s :=
  exec_ready hf (by simp [hi, hp])

/-! ### `MRESET` -/

/-- Settles O13: the counts it leaves are the filled table. -/
theorem mresetSetsAllCountsToOne : Obligations.MresetSetsAllCountsToOne :=
  fun _ hf hp => ⟨Table.fill 256 1, fun _ => Table.get_fill 1, exec_idle rfl hf hp⟩

/-! ### `MADD` -/

/-- Both sums fit, so neither register wraps. -/
theorem addOccurrence_fits {sym : Nat} {s : State}
    (hc : (s.counts.get sym).toNat + s.weight.toNat ≤ Config.wordMax)
    (ht : s.total.toNat + s.weight.toNat ≤ Config.wordMax) :
    addOccurrence sym s = .ok { s with
      counts := s.counts.set sym (s.counts.get sym + s.weight), total := s.total + s.weight } := by
  rw [addOccurrence, if_neg (Nat.not_lt.2 hc), if_neg (Nat.not_lt.2 ht)]
  simp [BitVec.ofNat_add]

/-- Either sum raises `COUNT_OVERFLOW` with the symbol. -/
theorem addOccurrence_overflow {sym : Nat} {s : State}
    (h : Config.wordMax < (s.counts.get sym).toNat + s.weight.toNat ∨
      Config.wordMax < s.total.toNat + s.weight.toNat) :
    addOccurrence sym s = .error ⟨.countOverflow, sym⟩ := by
  unfold addOccurrence
  split_ifs with hc ht
  · rfl
  · rfl
  · exact absurd h (not_or.2 ⟨hc, ht⟩)

/-- Settles O14: the two outcomes of the rule, the sum of the count read back at its entry. -/
theorem maddAddsTheWeightOrFaults : Obligations.MaddAddsTheWeightOrFaults := by
  intro sym s hf hp
  have hexec : exec (.madd sym) s = concludePure s (addOccurrence sym.toNat s) := exec_idle rfl hf hp
  refine ⟨fun hc ht => ⟨s.counts.set sym.toNat (s.counts.get sym.toNat + s.weight),
    fun j _ => Table.get_set_other _ _, Table.get_set_same _ _ sym.isLt, ?_⟩, fun h => ?_⟩
  · rw [hexec, addOccurrence_fits hc ht, concludePure_ok]
  · rw [hexec, addOccurrence_overflow h, concludePure_error,
      raise_faulted hf .countOverflow _ _ (ofNat_toNat_byte sym)]
    rfl

/-! ### `Rescale(T)` and `RESCALE` -/

/-- The last sum is at most `ONE`: the table is committed (R112). -/
theorem rescaleModel_fits {total : Nat} {s : State} (h : widthsBelow s.p total s.counts 256 ≤ one s.p) :
    rescaleModel total s =
      .ok { s with cumulative := scaledTable s.p total s.counts, modelValid := true } := by
  rcases rescaleModel_cases total s with ⟨hlt, -⟩ | ⟨-, he⟩
  · exact absurd h (Nat.not_le.2 hlt)
  · exact he

/-- The last sum is above `ONE`: `MODEL_SUM` with the saturated sum (R112). -/
theorem rescaleModel_overflow {total : Nat} {s : State} (h : one s.p < widthsBelow s.p total s.counts 256) :
    rescaleModel total s =
      .error ⟨.modelSum, min (widthsBelow s.p total s.counts 256) Config.wordMax⟩ := by
  rcases rescaleModel_cases total s with ⟨-, he⟩ | ⟨hle, -⟩
  · exact he
  · exact absurd h (Nat.not_lt.2 hle)

/-- Settles O15: the two outcomes of `Rescale(T)` at the register `total`. -/
theorem rescaleCommitsThePrefixSums : Obligations.RescaleCommitsThePrefixSums := by
  intro s hf hp
  have hexec : exec .rescale s = concludePure s (rescaleModel s.total.toNat s) := exec_idle rfl hf hp
  refine ⟨fun h => ⟨scaledTable s.p s.total.toNat s.counts, fun i hi => ?_, ?_⟩, fun h => ?_⟩
  · exact scaledTable_get (p_le_31 s) (by rw [scaledTop_eq]; exact h) hi
  · rw [hexec, rescaleModel_fits h, concludePure_ok]
  · rw [hexec, rescaleModel_overflow h, concludePure_error, raise_faulted hf .modelSum _ _ rfl]
    rfl

/-- Settles O16: a committed table is valid, its last entry is the last sum, and that sum is bounded by the
laws of the scaled counts. -/
theorem rescaledTableIsNormalised : Obligations.RescaledTableIsNormalised := by
  refine fun total s => ⟨fun t ht => ?_, fun hsum => ⟨_, rescaleModel_fits (widths_le_one hsum)⟩⟩
  rcases rescaleModel_cases total s with ⟨-, he⟩ | ⟨hle, he⟩ <;> rw [he] at ht <;> cases ht
  obtain ⟨hzero, hmono, htop⟩ := tableValid_scaledTable (p_le_31 s) hle
  refine ⟨hzero, hmono, htop, fun hsum => ?_⟩
  rw [scaledTable_get (p_le_31 s) (by rw [scaledTop_eq]; exact hle) (Nat.le_refl 256)]
  exact reserved_mass hsum

/-! ### `RUNIFORM` -/

/-- At `p >= 8` the width of a symbol of the uniform table is exact (R114). -/
theorem two_pow_div_256_of_ge {p : Nat} (h : 8 ≤ p) : 2 ^ p / 256 = 2 ^ (p - 8) :=
  Nat.pow_div h (by decide)

/-- Below `p = 8` the width is cut to 0 (R114). -/
theorem two_pow_div_256_of_le {p : Nat} (h : p ≤ 7) : 2 ^ p / 256 = 0 :=
  Nat.div_eq_of_lt (Nat.pow_lt_pow_right (by decide) (Nat.lt_succ_of_le h))

/-- Settles O17: entry `i` of the table is `i * (2^p / 256)`. -/
theorem runiformYieldsTheUniformTable : Obligations.RuniformYieldsTheUniformTable := by
  intro s hf hp
  have hexec : exec .runiform s = concludePure s (uniformModel s) := exec_idle rfl hf hp
  refine ⟨Table.fill 256 1, scaledTable s.p 0 (Table.fill 256 1), fun _ => Table.get_fill 1,
    fun hge i hi => ?_, fun hle i hi => ?_, ?_⟩
  · rw [uniform_table_get (p_le_31 s) hi, two_pow_div_256_of_ge hge]
  · rw [uniform_table_get (p_le_31 s) hi, two_pow_div_256_of_le hle, Nat.mul_zero]
  · rw [hexec, uniformModel_eq, concludePure_ok]
    rfl

end Sys2Proof.Machine
end

