-- ==== Sys2Proof/Proofs/BitBuffer.lean ====
section
/-! PROOF. The bit buffer (42_bitbuffer.md R125 to R129): `GETBIT`, `SETBIT` and the laws of the bits. -/

namespace Sys2Proof.Machine

/-! ### The course of each command at the index `arg` -/

theorem getbitRun_in_bounds {s : State} (h : s.arg.toNat < s.capacity) :
    getbitRun s = .done { s with result := BitVec.ofNat 32 (bitAt s.bs s.arg.toNat) } s.bs := by
  rw [getbitRun, State.indexOperand, getBit_in_bounds s.bs h, Run.bind_done]

theorem getbitRun_out_of_bounds {s : State} (h : s.capacity ≤ s.arg.toNat) :
    getbitRun s = .raised ⟨.bsBounds, s.arg.toNat % 2 ^ 32⟩ s.bs := by
  rw [getbitRun, State.indexOperand, getBit_out_of_bounds s.bs h, Run.bind_raised]

theorem setbitRun_in_bounds {s : State} (v : Bool) (h : s.arg.toNat < s.capacity) :
    setbitRun v s = .done s (bsWithBit s.bs s.arg.toNat (bitOperand v)) := by
  rw [setbitRun, State.indexOperand, setBit_in_bounds _ s.bs h, Run.bind_done]

theorem setbitRun_out_of_bounds {s : State} (v : Bool) (h : s.capacity ≤ s.arg.toNat) :
    setbitRun v s = .raised ⟨.bsBounds, s.arg.toNat % 2 ^ 32⟩ s.bs := by
  rw [setbitRun, State.indexOperand, setBit_out_of_bounds _ s.bs h, Run.bind_raised]

/-- The index `arg` fits the info word, so `BS_BOUNDS` records it whole; BS is as it was (R127, R128). -/
theorem conclude_bsBounds_arg {s : State} (hf : s.fault = false) :
    conclude s (.raised ⟨.bsBounds, s.arg.toNat % 2 ^ 32⟩ s.bs) = .next (s.faulted 8 s.arg) := by
  rw [Nat.mod_eq_of_lt s.arg.isLt, conclude_raised, raise_faulted hf .bsBounds _ _ (ofNat_toNat_word s.arg)]
  rfl

/-! ### `GETBIT` -/

/-- The addressed bit as the word that `result` takes (R127). -/
theorem ofNat_bitAt (bs : Memory) (k : Nat) :
    BitVec.ofNat 32 (bitAt bs k) = if (bs.read (k / 8)).getLsbD (7 - k % 8) then 1 else 0 := by
  rw [bitAt_eq_getLsbD]
  cases (bs.read (k / 8)).getLsbD (7 - k % 8) <;> rfl

/-- Settles O18: the read of R125 at `arg`, or its raise. -/
theorem getbitReadsTheAddressedBit : Obligations.GetbitReadsTheAddressedBit := by
  intro s hf hp
  have hexec : exec .getbit s = conclude s (getbitRun s) := exec_idle rfl hf hp
  refine ⟨fun h => ?_, fun h => ?_⟩
  · rw [hexec, getbitRun_in_bounds h, conclude_done, ofNat_bitAt]
  · rw [hexec, getbitRun_out_of_bounds h, conclude_bsBounds_arg hf]

/-! ### `SETBIT` -/

theorem bitOperand_le_one (v : Bool) : bitOperand v ≤ 1 := by cases v <;> decide

theorem decide_bitOperand_eq_one (v : Bool) : decide (bitOperand v = 1) = v := by cases v <;> rfl

/-- The bits of the byte that holds the written index (R126). -/
theorem read_bsWithBit_getLsbD (bs : Memory) {k v b : Nat} (hv : v ≤ 1) (hb : b < 8) :
    ((bsWithBit bs k v).read (k / 8)).getLsbD b =
      if b = 7 - k % 8 then decide (v = 1) else (bs.read (k / 8)).getLsbD b := by
  rw [bsWithBit, byteAddress, Memory.read_write_same, byteWithBit_getLsbD _ _ _ _ hv hb]

/-- Settles O19: BS after the write of R126 at `arg`, or its raise. -/
theorem setbitWritesOneBit : Obligations.SetbitWritesOneBit := by
  intro v s hf hp hwf
  have hexec : exec (.setbit v) s = conclude s (setbitRun v s) := exec_idle rfl hf hp
  refine ⟨fun h => ⟨bsWithBit s.bs s.arg.toNat (bitOperand v), ?_, wf_bsWithBit hwf s.arg.isLt,
    fun b hb => ?_, fun a ha => read_bsWithBit_other s.bs ha⟩, fun h => ?_⟩
  · rw [hexec, setbitRun_in_bounds v h, conclude_done]
  · rw [read_bsWithBit_getLsbD s.bs (bitOperand_le_one v) hb, decide_bitOperand_eq_one]
  · rw [hexec, setbitRun_out_of_bounds v h, conclude_bsBounds_arg hf]

/-! ### The laws of R129 -/

/-- Settles O20: in bounds the micro-operations are `bitAt` and `bsWithBit`, which obey the laws. -/
theorem bitBufferLaws : Obligations.BitBufferLaws := by
  intro cap k j v bs _ hv hk hj
  refine ⟨bsWithBit bs k v, setBit_in_bounds v bs hk, ?_,
    fun hne => ⟨bitAt bs j, getBit_in_bounds bs hj, ?_⟩⟩
  · rw [getBit_in_bounds _ hk, bitAt_bsWithBit_same hv]
  · rw [getBit_in_bounds _ hj, bitAt_bsWithBit_other hv hne]

end Sys2Proof.Machine
end

