-- ==== Sys2Proof/Proofs/IntervalEngine.lean ====
section
/-! PROOF. The interval engine (43_interval_engine.md R139 to R146): `Scale`, `Carry` and the two
renormalisations. -/

namespace Sys2Proof.Machine

/-! ### `Scale` -/

/-- Settles O21: scaling by a fixed length is monotone, from 0 at 0 to `L` at `ONE`; a valid table is a chain
from 0 to at most `ONE`. -/
theorem scaleProperties : Obligations.ScaleProperties := by
  refine fun p l => ⟨scale_zero p l, fun c d => scale_mono p l, fun c => scale_le p l, scale_one p l,
    fun t ⟨hzero, hmono, htop⟩ => ⟨?_, fun i hi => scale_mono p l (hmono i hi), scale_le p l htop⟩⟩
  rw [hzero, scale_zero]

/-- Floors lose nothing when widths are put together (R146). -/
theorem scale_add_le (p l c w : Nat) : scale p l c + scale p l w ≤ scale p l (c + w) := by
  unfold scale
  rw [Nat.mul_add]
  exact Nat.div_add_div_le_add_div

/-- At a normalised length a width of 2 scales to at least 1 (R146). -/
theorem one_le_scale_two {p l : Nat} (hp : 1 ≤ p) (hl : half p ≤ l) : 1 ≤ scale p l 2 := by
  have htwo : 2 ^ p ≤ l * 2 := by
    have : one p = 2 * half p := one_eq_two_half hp
    unfold one at this
    omega
  exact Nat.div_pos htwo (Nat.two_pow_pos p)

/-- Settles O26: the scaled width is at least the scale of the width, which is positive from 2 on. -/
theorem widthTwoIsAlwaysEncodable : Obligations.WidthTwoIsAlwaysEncodable := by
  refine ⟨fun p l c d hp hl hw => ?_, fun p l c => Nat.sub_self _, fun p l c d hcd => ?_, rfl, rfl⟩
  · calc scale p l c < scale p l c + scale p l 2 := Nat.lt_add_of_pos_right (one_le_scale_two hp hl)
      _ ≤ scale p l (c + 2) := scale_add_le p l c 2
      _ ≤ scale p l d := scale_mono p l hw
  · have hadd := scale_add_le p l c (d - c)
    rw [Nat.add_sub_of_le hcd] at hadd
    exact Nat.le_sub_of_add_le' hadd

/-! ### `Carry` -/

/-- Settles O22: a walk that meets a 0 bit is absorbed there and adds one; over ones alone it underruns. -/
theorem carryAddsOneToTheEmittedBits : Obligations.CarryAddsOneToTheEmittedBits := by
  intro cap cur bs hw hcap hcur
  have hcap' : cap ≤ 2 ^ 32 := by omega
  refine ⟨fun z hz => ?_, fun hones => carryWalk_underrun hw hcap' hcur hones⟩
  obtain ⟨bs', hrun, hw', hcarried⟩ := carryWalk_absorbed (cur := cur) hw hcap' hcur hz
  exact ⟨bs', hrun, hw', hcarried, bitsFrom_carried hz hcarried⟩

/-! ### `RenormEnc` and `RenormDec` -/

/-- Settles O23: the turn of the loop, whether or not there is room for its bit. -/
theorem renormEncFollowsItsLoop : Obligations.RenormEncFollowsItsLoop := renormEnc_turn

/-- Settles O24: the number of steps exists, and the loop is followed that far or to the end of BS. -/
theorem renormEncClosedForm : Obligations.RenormEncClosedForm := by
  intro p cap nb nl cur bs hp hw hcap hnb hpos hnl hcur
  have hcap' : cap ≤ 2 ^ 32 := by omega
  obtain ⟨t, htp, ht⟩ := renormSteps_exists (p := p) hpos
  refine ⟨t, ht, htp, fun hfit => ?_, fun hshort => ?_⟩
  · obtain ⟨bs', hrun, hw', hemitted⟩ := renormEnc_fits hp hw hcap' hnb hnl ht htp hfit
    exact ⟨bs', hrun, hw', hemitted, ht.1, Nat.le_sub_one_of_lt (renormSteps_lt_one hp hnl ht)⟩
  · obtain ⟨bs', hrun, hw', hemitted⟩ := renormEnc_short hp hw hcap' hnb hnl ht htp hcur hshort
    rw [Nat.mod_eq_of_lt (by omega)] at hrun
    exact ⟨bs', hrun, hw', hemitted⟩

/-- Settles O25: the turn of the loop, and the loop followed for its number of steps. -/
theorem renormDecShiftsBitsIn : Obligations.RenormDecShiftsBitsIn := by
  refine ⟨renormDec_turn, fun p cap v l cur bs hp hv hpos hl => ?_⟩
  obtain ⟨t, htp, ht⟩ := renormSteps_exists (p := p) hpos
  exact ⟨t, ht, htp, fun hfit => ⟨renormDec_fits hp hv hl ht hfit, ht.1,
    Nat.le_sub_one_of_lt (renormSteps_lt_one hp hl ht)⟩⟩

end Sys2Proof.Machine
end

