-- ==== Sys2Proof/Proofs/CarryAbsorption.lean ====
section
/-! PROOF. The carry inside `ENCODE` and `FLUSH` (43_interval_engine.md R140, R147): always absorbed in an
undisturbed session, and the underrun of any other (60_exceptions.md R199). -/

namespace Sys2Proof.Machine

/-! ### Where the encoder's courses can raise -/

/-- `Run.bind` raises where either course does. -/
theorem Run.bind_eq_raised {α β : Type} {m : Run α} {f : α → Memory → Run β} {r : Raise} {bs : Memory}
    (h : m.bind f = .raised r bs) : m = .raised r bs ∨ ∃ x bs1, m = .done x bs1 ∧ f x bs1 = .raised r bs := by
  cases m with
  | done x bs1 => exact .inr ⟨x, bs1, rfl, h⟩
  | raised r' bs1 =>
    cases h
    exact .inl rfl

theorem Run.lift_eq_raised {α : Type} {e : Except Raise α} {r : Raise} {bs bs' : Memory}
    (h : Run.lift e bs = .raised r bs') : e = .error r := by
  cases e with
  | ok x => cases h
  | error r' =>
    cases h
    rfl

/-- `ENCODE` raises at its check of the width, in its carry, for want of room, or in the model's update
(44_encoder.md R151). -/
theorem encodeRun_raised {sym : Nat} {s : State} {r : Raise} {bs : Memory}
    (h : encodeRun sym s = .raised r bs) :
    r.cause = .modelDegenerate ∨ (lowBound sym s < highBound sym s ∧
      (carryIf (narrowedBase sym s < s.base.toNat) s.capacity s.bitCursor.toNat s.bs = .raised r bs ∨
        r.cause = .bsBounds ∨ modelAfterSymbol sym s = .error r)) := by
  unfold encodeRun at h
  split at h
  · cases h
    exact .inl rfl
  · refine .inr ⟨Nat.lt_of_not_le ‹_›, ?_⟩
    rcases Run.bind_eq_raised h with hcarry | ⟨_, bs1, -, h⟩
    · exact .inl hcarry
    · rcases Run.bind_eq_raised h with hrenorm | ⟨out, bs2, -, h⟩
      · exact .inr (.inl (renormEncLoop_cause hrenorm))
      · rcases Run.bind_eq_raised h with hmodel | ⟨_, _, -, hdone⟩
        · exact .inr (.inr (Run.lift_eq_raised hmodel))
        · cases hdone

/-- `FLUSH` raises in its carry or for want of room (R152). -/
theorem flushRun_raised {s : State} {r : Raise} {bs : Memory} (h : flushRun s = .raised r bs) :
    carryIf (candidateBase s < s.base.toNat) s.capacity s.bitCursor.toNat s.bs = .raised r bs ∨
      r.cause = .bsBounds := by
  unfold flushRun at h
  rcases Run.bind_eq_raised h with hcarry | ⟨_, bs1, -, h⟩
  · exact .inl hcarry
  · rcases Run.bind_eq_raised h with hrenorm | ⟨_, _, -, hdone⟩
    · exact .inr (renormEncLoop_cause hrenorm)
    · cases hdone

/-- 9 is the code of `CARRY_UNDERRUN` alone (60_exceptions.md R190). -/
theorem Cause.code_ne_nine {c : Cause} (h : c ≠ .carryUnderrun) : c.code ≠ 9 := by
  cases c with
  | carryUnderrun => exact absurd rfl h
  | _ => decide

/-- A course that raises something else, or ends, does not record `CARRY_UNDERRUN`. -/
theorem conclude_faultCause_ne_nine {s t : State} {m : Run State} (hf : s.fault = false)
    (h : conclude s m = .next t) (hdone : ∀ u bs, m = .done u bs → u.faultCause = 0)
    (hraised : ∀ r bs, m = .raised r bs → r.cause ≠ .carryUnderrun) : t.faultCause ≠ 9 := by
  cases m with
  | done u bs =>
    cases h
    have hzero : u.faultCause = 0 := hdone u bs rfl
    show u.faultCause ≠ 9
    rw [hzero]
    decide
  | raised r bs =>
    cases h
    rw [raise_first r (s := { s with bs := bs }) hf]
    exact Cause.code_ne_nine (hraised r bs rfl)

/-- A course that leaves the machine without a fault has ended. -/
theorem done_of_conclude {s t : State} {m : Run State} (hf : s.fault = false)
    (h : conclude s m = .next t) (ht : t.fault = false) : ∃ u bs, m = .done u bs ∧ t = { u with bs := bs } := by
  cases m with
  | done u bs =>
    cases h
    exact ⟨u, bs, rfl, rfl⟩
  | raised r bs =>
    cases h
    rw [raise_first r (s := { s with bs := bs }) hf] at ht
    cases ht

theorem ok_of_concludePure {s t : State} {e : Except Raise State} (hf : s.fault = false)
    (h : concludePure s e = .next t) (ht : t.fault = false) : e = .ok t := by
  cases e with
  | ok u =>
    cases h
    rfl
  | error r =>
    cases h
    rw [raise_first r hf] at ht
    cases ht

/-! ### The emitted bits with the interval, as one number (R135) -/

/-- Emission moves the top bits of the base behind the emitted ones: together they are shifted by `t`. -/
theorem stream_emitted {p nb t cur : Nat} {bs bs' : Memory} (hnb : nb < one p) (ht : t ≤ p - 1)
    (h : Emitted p nb t bs bs' cur) :
    bitsFrom bs' 0 (cur + t) * one p + nb * 2 ^ t % one p = (bitsFrom bs 0 cur * one p + nb) * 2 ^ t := by
  have hold : bitsFrom bs' 0 cur = bitsFrom bs 0 cur := bitsFrom_congr fun j hj => h.2.1 (0 + j) (by omega)
  have hnew : bitsFrom bs' (0 + cur) t = nb * 2 ^ t / one p := by
    rw [Nat.zero_add]
    exact bitsFrom_emitted hnb ht h
  rw [bitsFrom_append, hold, hnew]
  calc (bitsFrom bs 0 cur * 2 ^ t + nb * 2 ^ t / one p) * one p + nb * 2 ^ t % one p
      = bitsFrom bs 0 cur * one p * 2 ^ t + (one p * (nb * 2 ^ t / one p) + nb * 2 ^ t % one p) := by ring
    _ = (bitsFrom bs 0 cur * one p + nb) * 2 ^ t := by rw [Nat.div_add_mod, Nat.add_mul]

/-- A `RenormEnc` that ends keeps the interval within the emitted bits: it shifts both sides alike (R142). -/
theorem renormEnc_keeps_stream {p cap nb nl cur nb' nl' cur' : Nat} {bs bs' : Memory} (hp : 1 ≤ p)
    (hw : bs.wf = true) (hc : cap ≤ 2 ^ 32) (hnb : nb < one p) (hpos : 1 ≤ nl) (hnl : nl < one p)
    (hcur : cur ≤ cap) (h : renormEnc p cap nb nl cur bs = .done (nb', nl', cur') bs')
    (hinside : bitsFrom bs 0 cur * one p + nb + nl ≤ 2 ^ cur * one p) :
    bitsFrom bs' 0 cur' * one p + nb' + nl' ≤ 2 ^ cur' * one p := by
  obtain ⟨t, htp, ht⟩ := renormSteps_exists (p := p) hpos
  rcases Nat.lt_or_ge cap (cur + t) with hshort | hfit
  · obtain ⟨_, he, -⟩ := renormEnc_short hp hw hc hnb hnl ht htp hcur hshort
    rw [he] at h
    cases h
  · obtain ⟨_, he, -, hemitted⟩ := renormEnc_fits hp hw hc hnb hnl ht htp hfit
    rw [he] at h
    cases h
    rw [stream_emitted hnb htp hemitted, ← Nat.add_mul]
    calc (bitsFrom bs 0 cur * one p + nb + nl) * 2 ^ t ≤ 2 ^ cur * one p * 2 ^ t :=
          Nat.mul_le_mul_right _ hinside
      _ = 2 ^ (cur + t) * one p := by rw [Nat.pow_add]; ring

/-! ### The invariant of the session (R147) -/

/-- `ENC_INIT` establishes it: no bit is emitted, and the interval is `[0, ONE - 1)`. -/
theorem streamInv_encInitStaged {s u : State} (h : encInitStaged s = .ok u) : StreamInv u := by
  unfold encInitStaged at h
  cases hm : sessionModel (encode .encInit) s with
  | error r => rw [hm] at h; cases h
  | ok m =>
    rw [hm] at h
    cases h
    have hp : m.p = s.p := (onlyModel_sessionModel hm).keepsSetup.p
    have hlen : (BitVec.ofNat 32 (one s.p - 1)).toNat ≤ one s.p - 1 := by
      rw [BitVec.toNat_ofNat]
      exact Nat.mod_le _ _
    show 0 * one m.p + 0 + (BitVec.ofNat 32 (one s.p - 1)).toNat ≤ 1 * one m.p
    rw [hp]
    omega

/-- In the session a carry is absorbed whenever the addend stays below `length`; the emitted bits with the
base then grow by the addend. -/
theorem carryIf_absorbed_session {s : State} (hs : Inv s) (hstream : StreamInv s) (hf : s.fault = false)
    (hph : s.phase = .enc) {inc : Nat} (hinc : inc < s.length.toNat) :
    ∃ bs1, carryIf ((s.base.toNat + inc) % one s.p < s.base.toNat) s.capacity s.bitCursor.toNat s.bs =
        .done () bs1 ∧ bs1.wf = true ∧
      bitsFrom bs1 0 s.bitCursor.toNat * one s.p + (s.base.toNat + inc) % one s.p =
        bitsFrom s.bs 0 s.bitCursor.toNat * one s.p + s.base.toNat + inc := by
  obtain ⟨hbase, -, hlen, hcur⟩ := hs.enc hf hph
  have hcap := capacity_le s
  exact carryIf_absorbed hs.memory (by omega) hcur hbase hinc (by omega) hstream

/-- The lower bound of an encodable symbol lies below `length` (R139). -/
theorem lowBound_lt_length {s : State} (hs : Inv s) (hf : s.fault = false) (hph : s.phase = .enc) {sym : Nat}
    (hsym : sym < 256) (hlt : lowBound sym s < highBound sym s) : lowBound sym s < s.length.toNat :=
  Nat.lt_of_lt_of_le hlt (highBound_le (hs.table (hs.model hf (.inl hph))) hsym)

/-- `QUARTER`, the addend of `FLUSH`, lies below a normalised length (44_encoder.md R152). -/
theorem quarter_lt_half {p : Nat} (hp : 2 ≤ p) : quarter p < half p :=
  Nat.pow_lt_pow_right (by decide) (by omega)

/-- The commit of an interval whose values fit their registers (44_encoder.md R151 step 7). -/
theorem streamInv_withInterval {m : State} {nb nl cur : Nat} {bs : Memory} (hnb : nb < one m.p)
    (hnl : nl < one m.p) (hcur : cur ≤ m.capacity)
    (h : bitsFrom bs 0 cur * one m.p + nb + nl ≤ 2 ^ cur * one m.p) :
    StreamInv { m.withInterval nb nl cur with bs := bs } := by
  show bitsFrom bs 0 (BitVec.ofNat 32 cur).toNat * one m.p + (BitVec.ofNat 32 nb).toNat +
    (BitVec.ofNat 32 nl).toNat ≤ 2 ^ (BitVec.ofNat 32 cur).toNat * one m.p
  rw [toNat_ofNat_of_le_capacity hcur, toNat_ofNat_of_lt_one (p_le_31 m) hnb,
    toNat_ofNat_of_lt_one (p_le_31 m) hnl]
  exact h

/-- A completed `ENCODE` keeps it: the narrowed interval lies inside the old one. -/
theorem streamInv_encodeRun {sym : Nat} (hsym : sym < 256) {s u : State} {bs : Memory} (hs : Inv s)
    (hstream : StreamInv s) (hf : s.fault = false) (hph : s.phase = .enc)
    (h : encodeRun sym s = .done u bs) : StreamInv { u with bs := bs } := by
  obtain ⟨hlt, m, nb, nl, cur, bs1, hm, rfl, hcarry, hrenorm⟩ := encodeRun_done h
  have hp1 : 1 ≤ s.p := Nat.le_trans (by decide) hs.precision.1
  have hcap : s.capacity ≤ 2 ^ 32 := Nat.le_trans (capacity_le s) (by omega)
  obtain ⟨-, -, hlen, hcur⟩ := hs.enc hf hph
  have hhigh := highBound_le (hs.table (hs.model hf (.inl hph))) hsym
  obtain ⟨_, he, hw1, hvalue⟩ :=
    carryIf_absorbed_session hs hstream hf hph (lowBound_lt_length hs hf hph hsym hlt)
  obtain rfl := (Run.done.inj (hcarry.symm.trans he)).2
  have hone := one_pos s.p
  have hnb : narrowedBase sym s < one s.p := Nat.mod_lt _ hone
  have hpos : 1 ≤ highBound sym s - lowBound sym s := by omega
  have hnl : highBound sym s - lowBound sym s < one s.p := by omega
  have hinside : bitsFrom bs1 0 s.bitCursor.toNat * one s.p + narrowedBase sym s +
      (highBound sym s - lowBound sym s) ≤ 2 ^ s.bitCursor.toNat * one s.p := by
    unfold narrowedBase
    unfold StreamInv at hstream
    omega
  obtain ⟨hnb', -, hnl', hcur'⟩ := renormEnc_done_bounds hp1 hw1 hcap hnb hpos hnl hcur hrenorm
  have hlt' : nl < one s.p := by omega
  have hkeep := renormEnc_keeps_stream hp1 hw1 hcap hnb hpos hnl hcur hrenorm hinside
  have hsetup := (onlyModel_modelAfterSymbol hm).keepsSetup
  rw [← hsetup.p] at hnb' hlt' hkeep
  rw [← hsetup.capacity] at hcur'
  exact streamInv_withInterval hnb' hlt' hcur' hkeep

/-! ### `CARRY_UNDERRUN` is not raised -/

/-- In an undisturbed session `ENCODE` does not raise it: its carry ends. -/
theorem encodeRun_not_underrun {sym : Nat} (hsym : sym < 256) {s : State} (hs : Inv s)
    (hstream : StreamInv s) (hf : s.fault = false) (hph : s.phase = .enc) {r : Raise} {bs : Memory}
    (h : encodeRun sym s = .raised r bs) : r.cause ≠ .carryUnderrun := by
  rcases encodeRun_raised h with hc | ⟨hlt, hcarry | hc | hmodel⟩
  · simp [hc]
  · obtain ⟨_, he, -⟩ := carryIf_absorbed_session hs hstream hf hph (lowBound_lt_length hs hf hph hsym hlt)
    cases he.symm.trans hcarry
  · simp [hc]
  · rcases modelAfterSymbol_cause hmodel with hc | hc <;> simp [hc]

/-- In an undisturbed session neither does `FLUSH`. -/
theorem flushRun_not_underrun {s : State} (hs : Inv s) (hstream : StreamInv s) (hf : s.fault = false)
    (hph : s.phase = .enc) {r : Raise} {bs : Memory} (h : flushRun s = .raised r bs) :
    r.cause ≠ .carryUnderrun := by
  rcases flushRun_raised h with hcarry | hc
  · obtain ⟨-, hhalf, -⟩ := hs.enc hf hph
    have hquarter := quarter_lt_half (p := s.p) (Nat.le_of_succ_le hs.precision.1)
    obtain ⟨_, he, -⟩ := carryIf_absorbed_session hs hstream hf hph (Nat.lt_of_lt_of_le hquarter hhalf)
    cases he.symm.trans hcarry
  · simp [hc]

/-- A command whose one legal phase is ENC is its rule there (30_encoding.md R88). -/
theorem exec_enc {i : Instr} {s : State} (hi : phasesOf i = [.enc]) (hf : s.fault = false)
    (hp : s.phase = .enc) : exec i s = bodyOf i s :=
  exec_ready hf (by simp [hi, hp])

/-- Settles O44: the invariant of R147 holds at the start of the session and after every symbol, and where it
holds the number that the emitted bits form leaves room for the carry. -/
theorem carryIsAlwaysAbsorbed : Obligations.CarryIsAlwaysAbsorbed := by
  refine ⟨fun s t _ hf h ht => ?_, fun sym s t hs hstream hf hph h => ?_, fun s t hs hstream hf hph h => ?_⟩
  · rcases exec_cases .encInit s with ⟨hf', -⟩ | ⟨-, -, he⟩ | ⟨-, -, he⟩
    · simp [hf] at hf'
    · rw [he] at h
      cases h
      cases ht
    · rw [he] at h
      exact streamInv_encInitStaged (ok_of_concludePure hf h ht)
  · rw [exec_enc rfl hf hph] at h
    refine ⟨conclude_faultCause_ne_nine hf h (fun u bs hu => ?_)
      fun r bs => encodeRun_not_underrun sym.isLt hs hstream hf hph, fun ht => ?_⟩
    · obtain ⟨-, m, nb, nl, cur, bs1, hm, rfl, -⟩ := encodeRun_done hu
      exact (onlyModel_modelAfterSymbol hm).keepsSetup.faultCause.trans (hs.recordClear hf).1
    · obtain ⟨u, bs, hu, rfl⟩ := done_of_conclude hf h ht
      exact streamInv_encodeRun sym.isLt hs hstream hf hph hu
  · rw [exec_enc rfl hf hph] at h
    refine conclude_faultCause_ne_nine hf h (fun u bs hu => ?_)
      fun r bs => flushRun_not_underrun hs hstream hf hph
    obtain ⟨nb, nl, cur, bs1, rfl, -⟩ := flushRun_done hu
    exact (hs.recordClear hf).1

/-! ### The underrun outside such a session -/

/-- A wrap over ones alone: the course up to the carry raises `CARRY_UNDERRUN`, and the flips stay (R140). -/
theorem carryIf_underrun {wrapped : Prop} [Decidable wrapped] (hwrap : wrapped) {s : State}
    (hw : s.bs.wf = true) (hcur : s.bitCursor.toNat ≤ s.capacity)
    (hones : ∀ j, j < s.bitCursor.toNat → bitAt s.bs j = 1) :
    ∃ bs', carryIf wrapped s.capacity s.bitCursor.toNat s.bs =
        .raised ⟨.carryUnderrun, s.bitCursor.toNat⟩ bs' ∧
      bs'.wf = true ∧ (∀ j, j < s.bitCursor.toNat → bitAt bs' j = 0) ∧
      OnlyBitsChanged s.bs bs' 0 s.bitCursor.toNat := by
  have hcap := capacity_le s
  rw [carryIf, if_pos hwrap]
  exact carryWalk_underrun hw (by omega) hcur hones

/-- The cursor fits the info word, so the record holds it whole (60_exceptions.md R199). -/
theorem conclude_carryUnderrun {s : State} (hf : s.fault = false) (bs : Memory) :
    conclude s (.raised ⟨.carryUnderrun, s.bitCursor.toNat⟩ bs) =
      .next { s.faulted 9 s.bitCursor with bs := bs } := by
  rw [conclude_raised, raise_faulted (s := { s with bs := bs }) hf .carryUnderrun _ _ (ofNat_toNat_word _)]
  rfl

/-- Settles O33: in both commands the carry is the first thing that can raise, once the symbol is
encodable. -/
theorem carryUnderrunFaults : Obligations.CarryUnderrunFaults := by
  refine fun s sym hf hph hw hcur hones => ⟨fun hlt hwrap => ?_, fun hwrap => ?_⟩
  · obtain ⟨bs', hcarry, hw', hzeros, hframe⟩ := carryIf_underrun
      (wrapped := narrowedBase sym.toNat s < s.base.toNat) hwrap hw hcur hones
    have hrun : encodeRun sym.toNat s = .raised ⟨.carryUnderrun, s.bitCursor.toNat⟩ bs' := by
      rw [encodeRun, if_neg (Nat.not_le.2 hlt), hcarry, Run.bind_raised]
    have hexec : exec (.encode sym) s = conclude s (encodeRun sym.toNat s) := exec_enc rfl hf hph
    exact ⟨bs', hw', hzeros, hframe, by rw [hexec, hrun, conclude_carryUnderrun hf]⟩
  · obtain ⟨bs', hcarry, hw', hzeros, hframe⟩ := carryIf_underrun
      (wrapped := candidateBase s < s.base.toNat) hwrap hw hcur hones
    have hrun : flushRun s = .raised ⟨.carryUnderrun, s.bitCursor.toNat⟩ bs' := by
      rw [flushRun, hcarry, Run.bind_raised]
    have hexec : exec .flush s = conclude s (flushRun s) := exec_enc rfl hf hph
    exact ⟨bs', hw', hzeros, hframe, by rw [hexec, hrun, conclude_carryUnderrun hf]⟩

end Sys2Proof.Machine
end

