-- ==== Sys2Proof/Proofs/Encoder.lean ====
section
/-! PROOF. The encoder commands (44_encoder.md R150 to R154): `ENC_INIT` in static mode, and what `ENCODE` and
`FLUSH` leave in BS and in the registers, with and without a carry, when they complete and when they do not. -/

namespace Sys2Proof.Machine

/-! ### `ENC_INIT` -/

/-- Settles O27: in static mode the table in force is the model of the session, if there is one. -/
theorem encInitStartsAStaticSession : Obligations.EncInitStartsAStaticSession := by
  intro s hf hph ha
  have hexec : exec .encInit s = concludePure s (encInitStaged s) := exec_idle rfl hf hph
  refine ⟨fun hv => ?_, fun hv => ?_⟩
  · rw [hexec, encInitStaged, sessionModel_static ha hv]
    rfl
  · rw [hexec, encInitStaged, sessionModel_invalid ha hv]
    exact congrArg _ (raise_faulted hf .sequence _ _ (ofNat_toNat_word _))

/-! ### The carry, then the emission (R140, R142) -/

/-- Every index in bounds is a 32-bit number (20_memory.md R69). -/
theorem capacity_le_two_pow (s : State) : s.capacity ≤ 2 ^ 32 := Nat.le_trans (capacity_le s) (by decide)

/-- The carry of an encoder command whose new base is `nb` has ended and left `bs1` (R151 step 5, R152). -/
def AfterCarry (s : State) (nb : Nat) (bs1 : Memory) : Prop :=
  bs1.wf = true ∧ carryIf (nb < s.base.toNat) s.capacity s.bitCursor.toNat s.bs = .done () bs1

/-- A base that did not wrap asks for no carry. -/
theorem afterCarry_unwrapped {s : State} {nb : Nat} (hw : s.bs.wf = true) (hle : s.base.toNat ≤ nb) :
    AfterCarry s nb s.bs :=
  ⟨hw, if_neg (Nat.not_lt.2 hle)⟩

/-- A base that wrapped asks for one, which the last 0 bit below the cursor absorbs. -/
theorem afterCarry_wrapped {s : State} {nb z : Nat} (hw : s.bs.wf = true)
    (hcur : s.bitCursor.toNat ≤ s.capacity) (hwrap : nb < s.base.toNat)
    (hz : AbsorbsCarry s.bs z s.bitCursor.toNat) :
    ∃ bs1, AfterCarry s nb bs1 ∧ Carried s.bs bs1 z s.bitCursor.toNat := by
  obtain ⟨bs1, hrun, hw1, hcarried⟩ := carryWalk_absorbed (cur := s.bitCursor.toNat) hw
    (capacity_le_two_pow s) hcur hz
  exact ⟨bs1, ⟨hw1, (if_pos hwrap).trans hrun⟩, hcarried⟩

/-- The command emits `n` bits of `nb` over `bs1` and ends in the state `after` of the BS it leaves. -/
def EmitsTo (i : Instr) (s : State) (nb n : Nat) (after : Memory → State) (bs1 : Memory) : Prop :=
  ∃ bs', bs'.wf = true ∧ Emitted s.p nb n bs1 bs' s.bitCursor.toNat ∧ exec i s = .next (after bs')

/-- What a command does after any carry, it does after the carry of a wrapped base, which has added one to the
number that the emitted bits form (R140). -/
theorem emitsTo_after_carry {i : Instr} {s : State} {nb n z : Nat} {after : Memory → State}
    (hw : s.bs.wf = true) (hcur : s.bitCursor.toNat ≤ s.capacity) (hwrap : nb < s.base.toNat)
    (hz : AbsorbsCarry s.bs z s.bitCursor.toNat)
    (h : ∀ bs1, AfterCarry s nb bs1 → EmitsTo i s nb n after bs1) :
    ∃ bs1 bs', Carried s.bs bs1 z s.bitCursor.toNat ∧
      bitsFrom bs1 0 s.bitCursor.toNat = bitsFrom s.bs 0 s.bitCursor.toNat + 1 ∧ bs'.wf = true ∧
      Emitted s.p nb n bs1 bs' s.bitCursor.toNat ∧ exec i s = .next (after bs') := by
  obtain ⟨bs1, hcarry, hcarried⟩ := afterCarry_wrapped hw hcur hwrap hz
  obtain ⟨bs', hemits⟩ := h bs1 hcarry
  exact ⟨bs1, bs', hcarried, bitsFrom_carried hz hcarried, hemits⟩

/-- What a command does after any carry, it does without one and after the carry of a wrapped base. -/
theorem emitsTo_without_or_after_carry {i : Instr} {s : State} {nb n : Nat} {after : Memory → State}
    (hw : s.bs.wf = true) (hcur : s.bitCursor.toNat ≤ s.capacity)
    (h : ∀ bs1, AfterCarry s nb bs1 → EmitsTo i s nb n after bs1) :
    (s.base.toNat ≤ nb → EmitsTo i s nb n after s.bs) ∧
    ∀ z, nb < s.base.toNat → AbsorbsCarry s.bs z s.bitCursor.toNat →
      ∃ bs1 bs', Carried s.bs bs1 z s.bitCursor.toNat ∧ bs'.wf = true ∧
        Emitted s.p nb n bs1 bs' s.bitCursor.toNat ∧ exec i s = .next (after bs') := by
  refine ⟨fun hle => h s.bs (afterCarry_unwrapped hw hle), fun z hwrap hz => ?_⟩
  obtain ⟨bs1, bs', hcarried, -, hemits⟩ := emitsTo_after_carry hw hcur hwrap hz h
  exact ⟨bs1, bs', hcarried, hemits⟩

/-- A course that raises leaves the fault record and the bytes it has written (60_exceptions.md R206). -/
theorem conclude_faulted {s : State} (hf : s.fault = false) (c : Cause) {n : Nat} {w : Word}
    (h : BitVec.ofNat 32 n = w) (bs : Memory) :
    conclude s (.raised ⟨c, n⟩ bs) = .next { s.faulted c.code w with bs := bs } := by
  rw [conclude_raised, raise_faulted (s := { s with bs := bs }) hf c n w h]
  rfl

/-- The capacity fits a word, so the index out of bounds is recorded whole (R198). -/
theorem conclude_bsBounds_capacity {s : State} (hf : s.fault = false) (bs : Memory) :
    conclude s (.raised ⟨.bsBounds, s.capacity % 2 ^ 32⟩ bs) =
      .next { s.faulted 8 (BitVec.ofNat 32 s.capacity) with bs := bs } := by
  have hlt : s.capacity < 2 ^ 32 := Nat.lt_of_le_of_lt (capacity_le s) (by decide)
  rw [Nat.mod_eq_of_lt hlt]
  exact conclude_faulted hf .bsBounds rfl bs

/-! ### `ENCODE` -/

theorem exec_encode {sym : Byte} {s : State} (hf : s.fault = false) (hph : s.phase = .enc) :
    exec (.encode sym) s = conclude s (encodeRun sym.toNat s) := exec_enc rfl hf hph

/-- The symbol is encodable and its narrowed length renormalises in `t` steps (R151 steps 2 to 4, R142). -/
structure Narrows (sym : Nat) (s : State) (t : Nat) : Prop where
  precision : 1 ≤ s.p
  encodable : lowBound sym s < highBound sym s
  fits : highBound sym s - lowBound sym s < one s.p
  steps : RenormSteps s.p (highBound sym s - lowBound sym s) t

theorem narrowedBase_lt_one (sym : Nat) (s : State) : narrowedBase sym s < one s.p := Nat.mod_lt _ (one_pos s.p)

theorem Narrows.steps_le {sym t : Nat} {s : State} (h : Narrows sym s t) : t ≤ s.p - 1 :=
  renormSteps_le (Nat.sub_pos_of_lt h.encodable) h.steps

/-- The course of `ENCODE` up to the model's update, when its bits fit (R151 steps 4 to 7). -/
theorem encodeRun_fits {sym t : Nat} {s : State} {bs1 : Memory} (h : Narrows sym s t)
    (hcarry : AfterCarry s (narrowedBase sym s) bs1) (hfit : s.bitCursor.toNat + t ≤ s.capacity) :
    ∃ bs', bs'.wf = true ∧ Emitted s.p (narrowedBase sym s) t bs1 bs' s.bitCursor.toNat ∧
      encodeRun sym s = (Run.lift (modelAfterSymbol sym s) bs').bind fun m bs =>
        .done (m.withInterval (narrowedBase sym s * 2 ^ t % one s.p)
          ((highBound sym s - lowBound sym s) * 2 ^ t) (s.bitCursor.toNat + t)) bs := by
  obtain ⟨bs', hrenorm, hw', hemitted⟩ := renormEnc_fits h.precision hcarry.1
    (capacity_le_two_pow s) (narrowedBase_lt_one _ s) h.fits h.steps h.steps_le hfit
  refine ⟨bs', hw', hemitted, ?_⟩
  rw [encodeRun, if_neg (Nat.not_le.2 h.encodable), hcarry.2, Run.bind_done, hrenorm, Run.bind_done]

/-- `ENCODE` whose bits fit commits, together with the model after the symbol (R151 steps 7 and 8). -/
theorem exec_encode_commits {sym : Byte} {t : Nat} {s m : State} {bs1 : Memory} (hf : s.fault = false)
    (hph : s.phase = .enc) (h : Narrows sym.toNat s t)
    (hcarry : AfterCarry s (narrowedBase sym.toNat s) bs1) (hfit : s.bitCursor.toNat + t ≤ s.capacity)
    (hm : modelAfterSymbol sym.toNat s = .ok m) :
    EmitsTo (.encode sym) s (narrowedBase sym.toNat s) t (fun bs' => { m with
      base := BitVec.ofNat 32 (narrowedBase sym.toNat s * 2 ^ t % one s.p)
      length := BitVec.ofNat 32 ((highBound sym.toNat s - lowBound sym.toNat s) * 2 ^ t)
      bitCursor := s.bitCursor + BitVec.ofNat 32 t
      bs := bs' }) bs1 := by
  obtain ⟨bs', hw', hemitted, hrun⟩ := encodeRun_fits h hcarry hfit
  refine ⟨bs', hw', hemitted, ?_⟩
  rw [exec_encode hf hph, hrun, hm, Run.lift_ok, Run.bind_done, conclude_done, State.withInterval, cursor_add]

/-- `ENCODE` whose bits fit leaves them when the model's update raises a fault (00_scope.md R14). -/
theorem exec_encode_model_fault {sym : Byte} {t n : Nat} {c : Cause} {w : Word} {s : State} {bs1 : Memory}
    (hf : s.fault = false) (hph : s.phase = .enc) (h : Narrows sym.toNat s t)
    (hcarry : AfterCarry s (narrowedBase sym.toNat s) bs1) (hfit : s.bitCursor.toNat + t ≤ s.capacity)
    (hm : modelAfterSymbol sym.toNat s = .error ⟨c, n⟩) (hw : BitVec.ofNat 32 n = w) :
    EmitsTo (.encode sym) s (narrowedBase sym.toNat s) t
      (fun bs' => { s.faulted c.code w with bs := bs' }) bs1 := by
  obtain ⟨bs', hw', hemitted, hrun⟩ := encodeRun_fits h hcarry hfit
  refine ⟨bs', hw', hemitted, ?_⟩
  rw [exec_encode hf hph, hrun, hm, Run.lift_error, Run.bind_raised, conclude_faulted hf c hw]

/-- `ENCODE` whose bits do not fit leaves those that did, and raises `BS_BOUNDS` (R154, R198). -/
theorem exec_encode_short {sym : Byte} {t : Nat} {s : State} {bs1 : Memory} (hf : s.fault = false)
    (hph : s.phase = .enc) (h : Narrows sym.toNat s t)
    (hcarry : AfterCarry s (narrowedBase sym.toNat s) bs1) (hcur : s.bitCursor.toNat ≤ s.capacity)
    (hshort : s.capacity < s.bitCursor.toNat + t) :
    EmitsTo (.encode sym) s (narrowedBase sym.toNat s) (s.capacity - s.bitCursor.toNat)
      (fun bs' => { s.faulted 8 (BitVec.ofNat 32 s.capacity) with bs := bs' }) bs1 := by
  obtain ⟨bs', hrenorm, hw', hemitted⟩ := renormEnc_short h.precision hcarry.1
    (capacity_le_two_pow s) (narrowedBase_lt_one _ s) h.fits h.steps h.steps_le
    hcur hshort
  have hrun : encodeRun sym.toNat s = .raised ⟨.bsBounds, s.capacity % 2 ^ 32⟩ bs' := by
    rw [encodeRun, if_neg (Nat.not_le.2 h.encodable), hcarry.2, Run.bind_done, hrenorm, Run.bind_raised]
  exact ⟨bs', hw', hemitted, by rw [exec_encode hf hph, hrun, conclude_bsBounds_capacity hf]⟩

/-- Settles O29: a sum below `ONE` is its own remainder, so there is no carry before the emission. -/
theorem encodeNarrowsAndEmits : Obligations.EncodeNarrowsAndEmits := by
  rintro sym s m t _ _ hf hph hw rfl rfl hlt hnl hp hsum ht hfit hm
  have hnb : narrowedBase sym.toNat s = s.base.toNat + lowBound sym.toNat s := Nat.mod_eq_of_lt hsum
  have hcarry : AfterCarry s (narrowedBase sym.toNat s) s.bs :=
    afterCarry_unwrapped hw (hnb ▸ Nat.le_add_right _ _)
  have hemits := exec_encode_commits hf hph ⟨hp, hlt, hnl, ht⟩ hcarry hfit (modelAfterSymbol_of hm)
  rw [hnb] at hemits
  exact hemits

/-- Settles O30: the carry of the wrapped base comes before the emission. -/
theorem encodeCarriesOnWrap : Obligations.EncodeCarriesOnWrap := by
  rintro sym s m t _ _ z _ hf hph hw rfl rfl hlt hnl hp rfl hwrap hz ht hfit hm
  exact emitsTo_after_carry hw (Nat.le_of_add_right_le hfit) hwrap hz fun _ hcarry =>
    exec_encode_commits hf hph ⟨hp, hlt, hnl, ht⟩ hcarry hfit (modelAfterSymbol_of hm)

/-- Settles O31: the width is checked before the carry, the first write to BS. -/
theorem degenerateSymbolFaultsCleanly : Obligations.DegenerateSymbolFaultsCleanly := by
  intro sym s hf hph hle
  have hrun : encodeRun sym.toNat s = .raised ⟨.modelDegenerate, sym.toNat⟩ s.bs := if_pos hle
  rw [exec_encode hf hph, hrun, conclude_faulted hf .modelDegenerate (ofNat_toNat_byte sym)]
  rfl

/-- Settles O34: the emission stops at the end of BS, whatever the carry has left below the cursor. -/
theorem capacityExhaustionFaults : Obligations.CapacityExhaustionFaults := by
  rintro sym s t _ _ _ hf hph hw rfl rfl hlt hnl hp rfl ht hcur hshort
  exact emitsTo_without_or_after_carry hw hcur fun _ hcarry =>
    exec_encode_short hf hph ⟨hp, hlt, hnl, ht⟩ hcarry hcur hshort

/-! ### `FLUSH` -/

theorem exec_flush {s : State} (hf : s.fault = false) (hph : s.phase = .enc) :
    exec .flush s = conclude s (flushRun s) := exec_enc rfl hf hph

theorem candidateBase_lt_one (s : State) : candidateBase s < one s.p := Nat.mod_lt _ (one_pos s.p)

theorem quarter_pred_lt_one (p : Nat) : quarter p - 1 < one p :=
  Nat.lt_of_lt_of_le (Nat.sub_one_lt (Nat.two_pow_pos _).ne')
    (Nat.pow_le_pow_right (by decide) (Nat.sub_le p 2))

/-- `ONE` is four times `QUARTER` (00_scope.md R10). -/
theorem one_eq_four_quarter {p : Nat} (hp : 2 ≤ p) : one p = 4 * quarter p := by
  rw [one, quarter, show 4 = 2 ^ 2 from rfl, ← Nat.pow_add, Nat.add_sub_cancel' hp]

/-- `FLUSH` with room for its two bits commits and returns the number of bits (R152, R143). -/
theorem exec_flush_commits {s : State} {bs1 : Memory} (hf : s.fault = false) (hph : s.phase = .enc)
    (hp : 3 ≤ s.p) (hcarry : AfterCarry s (candidateBase s) bs1)
    (hfit : s.bitCursor.toNat + 2 ≤ s.capacity) :
    EmitsTo .flush s (candidateBase s) 2 (fun bs' => { s with
      base := BitVec.ofNat 32 (4 * candidateBase s % one s.p), length := BitVec.ofNat 32 (one s.p - 4),
      bitCursor := s.bitCursor + 2, result := s.bitCursor + 2, phase := .idle, bs := bs' }) bs1 := by
  obtain ⟨bs', hrenorm, hw', hemitted⟩ := renormEnc_fits (Nat.le_trans (by decide) hp) hcarry.1
    (capacity_le_two_pow s) (candidateBase_lt_one s) (quarter_pred_lt_one s.p)
    (renormSteps_flush hp) (Nat.le_sub_one_of_lt hp) hfit
  have hlen : (quarter s.p - 1) * 2 ^ 2 = one s.p - 4 := by
    have hone := one_eq_four_quarter (Nat.le_of_succ_le hp)
    omega
  have hbase : candidateBase s * 2 ^ 2 = 4 * candidateBase s := Nat.mul_comm _ _
  refine ⟨bs', hw', hemitted, ?_⟩
  rw [exec_flush hf hph, flushRun, hcarry.2, Run.bind_done, hrenorm, Run.bind_done, conclude_done, hlen,
    hbase, cursor_add, State.withInterval, cursor_add]
  rfl

/-- `FLUSH` without room leaves the bits that did fit, and raises `BS_BOUNDS` (R152, R198). -/
theorem exec_flush_short {s : State} {bs1 : Memory} (hf : s.fault = false) (hph : s.phase = .enc)
    (hp : 3 ≤ s.p) (hcarry : AfterCarry s (candidateBase s) bs1) (hcur : s.bitCursor.toNat ≤ s.capacity)
    (hshort : s.capacity < s.bitCursor.toNat + 2) :
    EmitsTo .flush s (candidateBase s) (s.capacity - s.bitCursor.toNat)
      (fun bs' => { s.faulted 8 (BitVec.ofNat 32 s.capacity) with bs := bs' }) bs1 := by
  obtain ⟨bs', hrenorm, hw', hemitted⟩ := renormEnc_short (Nat.le_trans (by decide) hp) hcarry.1
    (capacity_le_two_pow s) (candidateBase_lt_one s) (quarter_pred_lt_one s.p)
    (renormSteps_flush hp) (Nat.le_sub_one_of_lt hp) hcur hshort
  have hrun : flushRun s = .raised ⟨.bsBounds, s.capacity % 2 ^ 32⟩ bs' := by
    rw [flushRun, hcarry.2, Run.bind_done, hrenorm, Run.bind_raised]
  exact ⟨bs', hw', hemitted, by rw [exec_flush hf hph, hrun, conclude_bsBounds_capacity hf]⟩

/-- Settles O32: `QUARTER - 1` renormalises in two steps, so two bits are emitted, after any carry. -/
theorem flushEmitsExactlyTwoBits : Obligations.FlushEmitsExactlyTwoBits := by
  rintro s _ hf hph hw hp rfl hfit
  refine ⟨fun hle => exec_flush_commits hf hph hp (afterCarry_unwrapped hw hle) hfit, fun z hwrap hz => ?_⟩
  exact emitsTo_after_carry hw (Nat.le_of_add_right_le hfit) hwrap hz fun _ hcarry =>
    exec_flush_commits hf hph hp hcarry hfit

/-- Settles O35: the emission stops at the end of BS, whatever the carry has left below the cursor. -/
theorem flushWithoutRoomFaults : Obligations.FlushWithoutRoomFaults := by
  rintro s _ hf hph hw hp rfl hcur hshort
  exact emitsTo_without_or_after_carry hw hcur fun _ hcarry =>
    exec_flush_short hf hph hp hcarry hcur hshort

end Sys2Proof.Machine
end

