-- ==== Sys2Proof/Proofs/CountOverflow.lean ====
section
/-! PROOF. `COUNT_OVERFLOW` of a coded symbol (46_adaptive.md R181): raised after the symbol is coded, before
any register is written. -/

namespace Sys2Proof.Machine

/-- In adaptive mode a count or a total that is full raises `COUNT_OVERFLOW(s)` (R181). -/
theorem modelAfterSymbol_full {sym : Nat} {s : State} (ha : s.adaptive = true)
    (hfull : (s.counts.get sym).toNat = Config.wordMax ∨ s.total.toNat = Config.wordMax) :
    modelAfterSymbol sym s = .error ⟨.countOverflow, sym⟩ := by
  rw [modelAfterSymbol, if_pos ha]
  rcases adaptUpdate_cases sym s with ⟨-, he⟩ | ⟨hcount, htotal, -⟩
  · exact he
  · exact absurd hfull (not_or.2 ⟨hcount, htotal⟩)

/-- The course of `DECODE` up to the model's update, for a code value in the range of `sym` whose bits are in
bounds (45_decoder.md R167 steps 1 to 4). -/
theorem decodeRun_fits {s : State} {sym t : Nat} (htable : TableValid s.p s.cumulative) (hp : 1 ≤ s.p)
    (hlen : s.length.toNat < one s.p) (hsym : sym < 256) (hlow : scaledBound s sym ≤ s.value.toNat)
    (hhigh : s.value.toNat < scaledBound s (sym + 1))
    (ht : RenormSteps s.p (scaledBound s (sym + 1) - scaledBound s sym) t)
    (hfit : t = 0 ∨ s.bitCursor.toNat + t < s.capacity) :
    decodeRun s = (Run.lift (modelAfterSymbol sym s) s.bs).bind fun m bs =>
      .done (m.withDecoded
        (((s.value.toNat - scaledBound s sym) * 2 ^ t + bitsFrom s.bs (s.bitCursor.toNat + 1) t) % one s.p)
        ((scaledBound s (sym + 1) - scaledBound s sym) * 2 ^ t) (s.bitCursor.toNat + t) sym) bs := by
  have htop : scaledBound s (sym + 1) ≤ s.length.toNat := highBound_le htable hsym
  rw [decodeRun, search_of_range htable hsym hlow hhigh, Run.lift_ok, Run.bind_done,
    renormDec_fits hp (by omega) (by omega) ht hfit, Run.bind_done]

/-- Settles O40: the update of the model comes after the symbol's bits and before the commit. -/
theorem countOverflowOfACodedSymbolFaults : Obligations.CountOverflowOfACodedSymbolFaults := by
  constructor
  · rintro sym s t _ _ _ hf hph hw rfl rfl hlt hnl hp rfl ht hfit ha hfull
    exact emitsTo_without_or_after_carry hw (Nat.le_of_add_right_le hfit) fun _ hcarry =>
      exec_encode_model_fault hf hph ⟨hp, hlt, hnl, ht⟩ hcarry hfit (modelAfterSymbol_full ha hfull)
        (ofNat_toNat_byte sym)
  · rintro s sym t _ _ hf hph htable hp hlen hsym rfl rfl hlow hhigh ht hfit ha hfull
    have hexec : exec .decode s = conclude s (decodeRun s) := exec_ready hf (by simp [phasesOf, hph])
    rw [hexec, decodeRun_fits htable hp hlen hsym hlow hhigh ht hfit, modelAfterSymbol_full ha hfull,
      Run.lift_error, Run.bind_raised, conclude_faulted hf .countOverflow rfl]
    rfl

end Sys2Proof.Machine
end

