-- ==== Sys2Proof/Proofs/Decoder.lean ====
section
/-! PROOF. The decoder commands (45_decoder.md R165 to R169): the fill of `DEC_INIT`, the search of a symbol,
what `DECODE` commits and what it raises, and the mirror of an `ENCODE`. -/

namespace Sys2Proof.Machine

/-! ### `DEC_INIT` -/

theorem exec_decInit {s : State} (hf : s.fault = false) (hph : s.phase = .idle) :
    exec .decInit s = conclude s (decInitRun s) := exec_idle rfl hf hph

/-- `DEC_INIT` whose `p` bits are in bounds commits, together with the model of the session (R165). -/
theorem exec_decInit_fills {s m : State} (hf : s.fault = false) (hph : s.phase = .idle)
    (hm : sessionModel (encode .decInit) s = .ok m) (hfit : s.p ≤ s.capacity) :
    exec .decInit s = .next { m with
      value := BitVec.ofNat 32 (bitsFrom s.bs 0 s.p), length := BitVec.ofNat 32 (one s.p - 1),
      bitCursor := BitVec.ofNat 32 (s.p - 1), phase := .dec } := by
  rw [exec_decInit hf hph, decInitRun, hm, Run.lift_ok, Run.bind_done, fillValue_all hfit, Run.bind_done,
    conclude_done, ← (onlyModel_sessionModel hm).bs]

/-- `DEC_INIT` with fewer than `p` bits in bounds raises `BS_BOUNDS`, once its model is there (R165). -/
theorem exec_decInit_short {s m : State} (hf : s.fault = false) (hph : s.phase = .idle)
    (hm : sessionModel (encode .decInit) s = .ok m) (hshort : s.capacity < s.p) :
    exec .decInit s = .next (s.faulted 8 (BitVec.ofNat 32 s.capacity)) := by
  rw [exec_decInit hf hph, decInitRun, hm, Run.lift_ok, Run.bind_done, fillValue_none hshort, Run.bind_raised,
    conclude_faulted hf .bsBounds rfl]
  rfl

/-- Settles O36: in static mode the table in force is the model of the session, if there is one. -/
theorem decInitFillsTheCodeValue : Obligations.DecInitFillsTheCodeValue := by
  intro s hf hph ha
  refine ⟨fun hv => ?_, fun hv => ?_, fun hv => ?_⟩
  · rw [exec_decInit hf hph, decInitRun, sessionModel_invalid ha hv, Run.lift_error, Run.bind_raised,
      conclude_faulted hf .sequence (ofNat_toNat_word _)]
    rfl
  · exact exec_decInit_fills hf hph (sessionModel_static ha hv)
  · exact exec_decInit_short hf hph (sessionModel_static ha hv)

/-! ### `Search` -/

/-- A code value at or above the last scaled bound is in no symbol's range (R166). -/
theorem search_out_of_range {s : State} (h : scaledBound s 256 ≤ s.value.toNat) :
    search s = .error ⟨.codeRange, s.value.toNat⟩ := if_pos h

/-- Settles O37: the halving ends at a symbol whose range holds the value, and the ranges do not overlap. -/
theorem searchFindsTheOneSymbol : Obligations.SearchFindsTheOneSymbol := by
  intro s htable
  refine ⟨fun hin => ?_, search_out_of_range⟩
  rcases search_cases htable with ⟨hout, -⟩ | ⟨sym, hsym, hlow, hhigh, hfound⟩
  · exact absurd hin (Nat.not_lt.2 hout)
  · exact ⟨sym, hsym, hfound, hlow, hhigh, fun other hother hlow' hhigh' =>
      scaled_range_unique htable hother hsym hlow' hhigh' hlow hhigh⟩

/-! ### `DECODE` -/

theorem exec_decode {s : State} (hf : s.fault = false) (hph : s.phase = .dec) :
    exec .decode s = conclude s (decodeRun s) := exec_ready hf (by simp [phasesOf, hph])

/-- Settles O38: the search, the renormalisation and the model's update all end, and the commit follows. -/
theorem decodeReturnsTheSymbol : Obligations.DecodeReturnsTheSymbol := by
  rintro s m sym t _ _ hf hph htable hp hlen hsym rfl rfl hlow hhigh ht hfit hm
  have hmodel : modelAfterSymbol sym s = .ok m := modelAfterSymbol_of hm
  rw [exec_decode hf hph, decodeRun_fits htable hp hlen hsym hlow hhigh ht hfit, hmodel, Run.lift_ok,
    Run.bind_done, conclude_done, ← (onlyModel_modelAfterSymbol hmodel).bs, State.withDecoded, cursor_add]
  rfl

/-- `DECODE` of a code value that no symbol's range holds raises `CODE_RANGE` (R166, R200). -/
theorem exec_decode_out_of_range {s : State} (hf : s.fault = false) (hph : s.phase = .dec)
    (hout : scaledBound s 256 ≤ s.value.toNat) : exec .decode s = .next (s.faulted 10 s.value) := by
  rw [exec_decode hf hph, decodeRun, search_out_of_range hout, Run.lift_error, Run.bind_raised,
    conclude_faulted hf .codeRange (ofNat_toNat_word _)]
  rfl

/-- The code value lies in the scaled range of `sym`, over a valid table and a length below `ONE` (R166, R168). -/
structure Finds (sym : Nat) (s : State) : Prop where
  table : TableValid s.p s.cumulative
  precision : 1 ≤ s.p
  length : s.length.toNat < one s.p
  symbol : sym < 256
  low : scaledBound s sym ≤ s.value.toNat
  high : s.value.toNat < scaledBound s (sym + 1)

theorem Finds.search_eq {sym : Nat} {s : State} (h : Finds sym s) :
    search s = .ok ⟨sym, scaledBound s sym, scaledBound s (sym + 1)⟩ :=
  search_of_range h.table h.symbol h.low h.high

theorem Finds.width_lt_one {sym : Nat} {s : State} (h : Finds sym s) :
    scaledBound s (sym + 1) - scaledBound s sym < one s.p :=
  calc scaledBound s (sym + 1) - scaledBound s sym ≤ scaledBound s (sym + 1) := Nat.sub_le _ _
    _ ≤ s.length.toNat := highBound_le h.table h.symbol
    _ < one s.p := h.length

/-- `DECODE` whose renormalisation needs a bit beyond BS raises `BS_BOUNDS` there (R167, R198). -/
theorem exec_decode_short {sym t : Nat} {s : State} (hf : s.fault = false) (hph : s.phase = .dec)
    (h : Finds sym s) (ht : RenormSteps s.p (scaledBound s (sym + 1) - scaledBound s sym) t) (hpos : 1 ≤ t)
    (hcur : s.bitCursor.toNat < s.capacity) (hshort : s.capacity ≤ s.bitCursor.toNat + t) :
    exec .decode s = .next (s.faulted 8 (BitVec.ofNat 32 s.capacity)) := by
  rw [exec_decode hf hph, decodeRun, h.search_eq, Run.lift_ok, Run.bind_done,
    renormDec_short h.precision h.width_lt_one ht hpos hcur hshort, Run.bind_raised,
    conclude_bsBounds_capacity hf]
  rfl

/-- Settles O39: BS is only read, so a raise of the search or of the renormalisation finds it as it was. -/
theorem decodeFaultsCleanly : Obligations.DecodeFaultsCleanly := by
  intro s hf hph
  refine ⟨exec_decode_out_of_range hf hph, ?_⟩
  rintro sym t _ _ htable hp hlen hsym rfl rfl hlow hhigh ht hpos hcur hshort
  exact exec_decode_short hf hph ⟨htable, hp, hlen, hsym, hlow, hhigh⟩ ht hpos hcur hshort

/-! ### The mirror (R169) -/

/-- A cursor moved on by `t` bits has moved by `t`. -/
theorem cursor_add_sub (c : Word) (t : Nat) : BitVec.ofNat 32 (c.toNat + t) - c = BitVec.ofNat 32 t := by
  rw [cursor_add, BitVec.add_comm, BitVec.add_sub_cancel]

theorem SameModel.p_eq {e d : State} : SameModel e d → d.p = e.p
  | ⟨hprecision, _⟩ => congrArg BitVec.toNat hprecision.symm

theorem SameModel.length_eq {e d : State} : SameModel e d → d.length = e.length
  | ⟨_, hlength, _⟩ => hlength.symm

theorem SameModel.cumulative_eq {e d : State} : SameModel e d → d.cumulative = e.cumulative
  | ⟨_, _, _, hcumulative, _⟩ => hcumulative.symm

/-- The scaled bounds are a function of what the two sides share. -/
theorem SameModel.scaledBound_eq {e d : State} (h : SameModel e d) (i : Nat) :
    scaledBound d i = scaledBound e i := by
  rw [scaledBound, scaledBound, h.p_eq, h.length_eq, h.cumulative_eq]

/-- What a completed `ENCODE` has done, in the terms that the decoder shares (44_encoder.md R151, R142). -/
theorem exec_encode_done {sym : Byte} {s t : State} (hf : s.fault = false) (hph : s.phase = .enc)
    (hp : 1 ≤ s.p) (hfits : highBound sym.toNat s < one s.p) (h : exec (.encode sym) s = .next t)
    (ht : t.fault = false) :
    ∃ m n nb bs, modelAfterSymbol sym.toNat s = .ok m ∧
      RenormSteps s.p (highBound sym.toNat s - lowBound sym.toNat s) n ∧
      t = { m.withInterval nb ((highBound sym.toNat s - lowBound sym.toNat s) * 2 ^ n)
        (s.bitCursor.toNat + n) with bs := bs } := by
  rw [exec_encode hf hph] at h
  obtain ⟨u, bs, hrun, rfl⟩ := done_of_conclude hf h ht
  obtain ⟨-, m, nb, nl, cur, bs1, hm, rfl, -, hrenorm⟩ := encodeRun_done hrun
  obtain ⟨n, hsteps, rfl, rfl⟩ := renormEnc_steps hp (Nat.lt_of_le_of_lt (Nat.sub_le _ _) hfits) hrenorm
  exact ⟨m, n, nb, bs, hm, hsteps, rfl⟩

/-- What a completed `DECODE` has done, for a code value in the range of `sym` (R167, R144). -/
theorem exec_decode_done {sym : Nat} {s t : State} (hf : s.fault = false) (hph : s.phase = .dec)
    (hfinds : Finds sym s) (h : exec .decode s = .next t) (ht : t.fault = false) :
    ∃ m n v bs, modelAfterSymbol sym s = .ok m ∧
      RenormSteps s.p (scaledBound s (sym + 1) - scaledBound s sym) n ∧
      t = { m.withDecoded v ((scaledBound s (sym + 1) - scaledBound s sym) * 2 ^ n)
        (s.bitCursor.toNat + n) sym with bs := bs } := by
  rw [exec_decode hf hph] at h
  obtain ⟨u, bs, hrun, rfl⟩ := done_of_conclude hf h ht
  obtain ⟨f, v, l, cur, m, hfound, hrenorm, hm, rfl⟩ := decodeRun_done hrun
  rw [hfinds.search_eq] at hfound
  cases hfound
  obtain ⟨n, hsteps, rfl, rfl, -⟩ := renormDec_steps hfinds.precision hfinds.width_lt_one hrenorm
  exact ⟨m, n, v, bs, hm, hsteps, rfl⟩

/-- Models that agree still agree when both sides have committed the same length. -/
theorem SameModel.commit {m n : State} (h : SameModel m n) (nb nl cur v cur' sym : Nat) (bs bs' : Memory) :
    SameModel { m.withInterval nb nl cur with bs := bs } { n.withDecoded v nl cur' sym with bs := bs' } := by
  obtain ⟨hprecision, -, hmodel⟩ := h
  exact ⟨hprecision, rfl, hmodel⟩

/-- Settles O43: both sides narrow to the same width, which fixes the number of steps and so the length, and
update the same model by the same symbol. -/
theorem decoderMirrorsTheEncoder : Obligations.DecoderMirrorsTheEncoder := by
  intro sym e d e' d' hsame htable hp hlen hef hdf heph hdph hlow hhigh hexecE hexecD hef' hdf'
  have hsym : sym.toNat < 256 := sym.isLt
  have hhighOne : highBound sym.toNat e < one e.p := Nat.lt_of_le_of_lt (highBound_le htable hsym) hlen
  have hx : scaledBound d sym.toNat = lowBound sym.toNat e := hsame.scaledBound_eq _
  have hy : scaledBound d (sym.toNat + 1) = highBound sym.toNat e := hsame.scaledBound_eq _
  have hfinds : Finds sym.toNat d :=
    ⟨by rwa [hsame.p_eq, hsame.cumulative_eq], by rwa [hsame.p_eq], by rwa [hsame.p_eq, hsame.length_eq],
      hsym, by rwa [hx], by rwa [hy]⟩
  obtain ⟨m, t, nb, bs, hm, hsteps, rfl⟩ := exec_encode_done hef heph hp hhighOne hexecE hef'
  obtain ⟨n, u, v, bs', hn, hsteps', rfl⟩ := exec_decode_done hdf hdph hfinds hexecD hdf'
  rw [hx, hy, hsame.p_eq] at hsteps'
  obtain rfl : t = u := renormSteps_unique hsteps hsteps'
  refine ⟨ofNat_toNat_byte sym, ?_, (cursor_add_sub _ t).trans (cursor_add_sub _ t).symm⟩
  rw [hx, hy]
  exact (sameModel_modelAfterSymbol hsame hm hn).commit _ _ _ _ _ _ _ _

end Sys2Proof.Machine
end

