-- ==== Sys2Proof/Proofs/AdaptiveRescaler.lean ====
section
/-! PROOF. The adaptive rescaler (46_adaptive.md R180 to R184): the start of an adaptive session, the outcomes
of `AdaptUpdate(s)`, and the sum of the counts over an update. -/

namespace Sys2Proof.Machine

/-! ### `AdaptStart` inside `ENC_INIT` and `DEC_INIT` (R180) -/

theorem exec_encInit {s : State} (hf : s.fault = false) (hph : s.phase = .idle) :
    exec .encInit s = concludePure s (encInitStaged s) := exec_idle rfl hf hph

/-- `ENC_INIT` commits together with the model of the session (44_encoder.md R150). -/
theorem exec_encInit_starts {s m : State} (hf : s.fault = false) (hph : s.phase = .idle)
    (hm : sessionModel (encode .encInit) s = .ok m) :
    exec .encInit s = .next { m with
      base := 0, length := BitVec.ofNat 32 (one s.p - 1), bitCursor := 0, phase := .enc } := by
  rw [exec_encInit hf hph, encInitStaged, hm, concludePure_ok]

/-- Without a period there is no adaptive session: both sides raise `CONFIG(0)` before they do anything else
(R180, 60_exceptions.md R204). -/
theorem exec_init_config {s : State} (hf : s.fault = false) (hph : s.phase = .idle) (ha : s.adaptive = true)
    (hu : s.updateRange = 0) :
    exec .encInit s = .next (s.faulted 4 0) ∧ exec .decInit s = .next (s.faulted 4 0) := by
  constructor
  · rw [exec_encInit hf hph, encInitStaged, sessionModel_config ha hu, concludePure_error,
      raise_faulted hf .config 0 0 rfl]
    rfl
  · rw [exec_decInit hf hph, decInitRun, sessionModel_config ha hu, Run.lift_error, Run.bind_raised,
      conclude_faulted hf .config rfl]
    rfl

/-- Settles O28: the model that both sides install is the uniform one of `RUNIFORM`. -/
theorem adaptiveSessionStartsUniform : Obligations.AdaptiveSessionStartsUniform := by
  intro s hf hph ha
  refine ⟨exec_init_config hf hph ha, fun hu => ?_⟩
  refine ⟨Table.fill 256 1, scaledTable s.p 0 (Table.fill 256 1), fun _ => Table.get_fill 1,
    fun hge i hi => ?_, fun hle i hi => ?_, ?_, fun hfit => ?_, fun hshort => ?_⟩
  · rw [uniform_table_get (p_le_31 s) hi, two_pow_div_256_of_ge hge]
  · rw [uniform_table_get (p_le_31 s) hi, two_pow_div_256_of_le hle, Nat.mul_zero]
  · exact exec_encInit_starts hf hph (sessionModel_adaptive ha hu)
  · exact exec_decInit_fills hf hph (sessionModel_adaptive ha hu) hfit
  · exact exec_decInit_short hf hph (sessionModel_adaptive ha hu) hshort

/-! ### The outcomes of `AdaptUpdate(s)` (R181) -/

/-- The increments as sums of words. -/
theorem bumpCount_eq (sym : Nat) (s : State) : bumpCount sym s = { s with
    counts := s.counts.set sym (s.counts.get sym + 1), total := s.total + 1 } := by
  simp [bumpCount, BitVec.ofNat_add]

section
variable {sym : Nat} {s : State}

theorem adaptUpdate_full (h : (s.counts.get sym).toNat = Config.wordMax ∨ s.total.toNat = Config.wordMax) :
    adaptUpdate sym s = .error ⟨.countOverflow, sym⟩ := by
  rcases adaptUpdate_cases sym s with ⟨-, he⟩ | ⟨hc, ht, -⟩
  · exact he
  · exact absurd h (not_or.2 ⟨hc, ht⟩)

theorem adaptUpdate_in_period (hc : (s.counts.get sym).toNat ≠ Config.wordMax)
    (ht : s.total.toNat ≠ Config.wordMax) (hr : s.runCount.toNat + 1 ≠ s.updateRange.toNat) :
    adaptUpdate sym s = .ok { bumpCount sym s with runCount := s.runCount + 1 } := by
  rw [adaptUpdate, if_neg hc, if_neg ht, if_neg hr, BitVec.ofNat_add, ofNat_toNat_word]
  rfl

theorem adaptUpdate_at_period_end (hc : (s.counts.get sym).toNat ≠ Config.wordMax)
    (ht : s.total.toNat ≠ Config.wordMax) (hr : s.runCount.toNat + 1 = s.updateRange.toNat) :
    adaptUpdate sym s = periodEnd (bumpCount sym s) := by
  rw [adaptUpdate, if_neg hc, if_neg ht, if_pos hr]

theorem periodEnd_overflow (h : one s.p < widthsBelow s.p s.total.toNat s.counts 256) :
    periodEnd s = .error ⟨.modelSum, min (widthsBelow s.p s.total.toNat s.counts 256) Config.wordMax⟩ := by
  rw [periodEnd, rescaleModel_overflow h]

/-- The rebuilt table stays in force whether or not the counts are reset after it. -/
theorem periodEnd_fits (h : widthsBelow s.p s.total.toNat s.counts 256 ≤ one s.p) :
    (s.rangeClear = false → periodEnd s = .ok { s with
      runCount := 0, cumulative := scaledTable s.p s.total.toNat s.counts, modelValid := true }) ∧
    (s.rangeClear = true → periodEnd s = .ok { s with
      counts := Table.fill 256 1, total := 0, runCount := 0,
      cumulative := scaledTable s.p s.total.toNat s.counts, modelValid := true }) := by
  rw [periodEnd, rescaleModel_fits h]
  exact ⟨fun hk => by simp [hk], fun hclear => by simp [hclear, clearCounts]⟩

end

/-- Settles O41: the end of a period is that of the state with the increments, whose `total` has not
wrapped. -/
theorem adaptUpdateFollowsItsRule : Obligations.AdaptUpdateFollowsItsRule := by
  intro sym s
  refine ⟨adaptUpdate_full, fun hc ht => ⟨s.counts.set sym.toNat (s.counts.get sym.toNat + 1),
    fun j _ => Table.get_set_other _ _, Table.get_set_same _ _ sym.isLt, fun hr => ?_, fun hr hfits => ?_,
    fun hr hover => ?_⟩⟩
  · rw [adaptUpdate_in_period hc ht hr, bumpCount_eq]
  · rw [adaptUpdate_at_period_end hc ht hr, bumpCount_eq]
    rw [← toNat_add_one ht] at hfits ⊢
    obtain ⟨hkeep, hclear⟩ := periodEnd_fits (s := { s with
      counts := s.counts.set sym.toNat (s.counts.get sym.toNat + 1), total := s.total + 1 }) hfits
    exact ⟨_, fun i hi => scaledTable_get (p_le_31 s) (by rw [scaledTop_eq]; exact hfits) hi, hkeep,
      fun hrange => ⟨_, fun _ => Table.get_fill 1, hclear hrange⟩⟩
  · rw [adaptUpdate_at_period_end hc ht hr, bumpCount_eq]
    rw [← toNat_add_one ht] at hover ⊢
    exact periodEnd_overflow hover

/-! ### The sum of the counts over an update (R183, R184) -/

/-- The increment of one count and that of `total` go together. -/
theorem bumpCount_keeps_total {sym : Nat} {s : State} (hsym : sym < 256)
    (hc : (s.counts.get sym).toNat ≠ Config.wordMax) (ht : s.total.toNat ≠ Config.wordMax)
    (hsum : s.total.toNat + 256 = s.counts.sum) :
    (bumpCount sym s).total.toNat + 256 = (bumpCount sym s).counts.sum := by
  have hset := Table.sum_set s.counts (s.counts.get sym + 1) hsym
  rw [toNat_add_one hc] at hset
  rw [bumpCount_eq]
  show (s.total + 1).toNat + 256 = (s.counts.set sym (s.counts.get sym + 1)).sum
  rw [toNat_add_one ht]
  omega

/-- With `total + 256` the sum of the counts the scaled counts fit (41_model.md R116), and a reset of the counts
resets `total` with them. -/
theorem periodEnd_keeps_total {s : State} (hsum : s.total.toNat + 256 = s.counts.sum) :
    ∃ m, periodEnd s = .ok m ∧ m.total.toNat + 256 = m.counts.sum ∧ m.runCount = 0 ∧
      m.updateRange = s.updateRange := by
  obtain ⟨hkeep, hclear⟩ := periodEnd_fits (widths_le_one (p := s.p) (Nat.le_of_eq hsum.symm))
  cases hr : s.rangeClear with
  | false => exact ⟨_, hkeep hr, hsum, rfl, rfl⟩
  | true => exact ⟨_, hclear hr, sum_ones.symm, rfl, rfl⟩

/-- An update raises `COUNT_OVERFLOW(s)` or completes, and then it has kept the sum and moved `run_count` on
within its period. -/
theorem adaptUpdate_keeps_total {sym : Nat} {s : State} (hsym : sym < 256)
    (hsum : s.total.toNat + 256 = s.counts.sum) (hrun : s.runCount.toNat < s.updateRange.toNat) :
    adaptUpdate sym s = .error ⟨.countOverflow, sym⟩ ∨
    ∃ m, adaptUpdate sym s = .ok m ∧ m.total.toNat + 256 = m.counts.sum ∧
      m.runCount.toNat = (s.runCount.toNat + 1) % s.updateRange.toNat ∧ m.updateRange = s.updateRange := by
  by_cases hfull : (s.counts.get sym).toNat = Config.wordMax ∨ s.total.toNat = Config.wordMax
  · exact .inl (adaptUpdate_full hfull)
  obtain ⟨hc, ht⟩ := not_or.1 hfull
  have hbumped := bumpCount_keeps_total hsym hc ht hsum
  by_cases hr : s.runCount.toNat + 1 = s.updateRange.toNat
  · obtain ⟨m, he, hmsum, hmrun, hmrange⟩ := periodEnd_keeps_total hbumped
    refine .inr ⟨m, (adaptUpdate_at_period_end hc ht hr).trans he, hmsum, ?_, hmrange⟩
    rw [hmrun, hr, Nat.mod_self]
    rfl
  · refine .inr ⟨_, adaptUpdate_in_period hc ht hr, hbumped, ?_, rfl⟩
    have hrange := s.updateRange.isLt
    rw [toNat_add_one (by unfold Config.wordMax; omega), Nat.mod_eq_of_lt (by omega)]

/-- Settles O42: an update that completes has kept the sum, and the only other outcome is `COUNT_OVERFLOW`. -/
theorem adaptUpdateKeepsTheTotal : Obligations.AdaptUpdateKeepsTheTotal := by
  intro sym s hsum hrun
  rcases adaptUpdate_keeps_total sym.isLt hsum hrun with he | ⟨m, he, hm⟩ <;> rw [he]
  · exact ⟨nofun, nofun⟩
  · exact ⟨nofun, fun n hn => Except.ok.inj hn ▸ hm⟩

end Sys2Proof.Machine
end

