-- ==== Sys2Proof/Proofs/FaultCauses.lean ====
section
/-! PROOF. Which transaction can raise what (60_exceptions.md R192), and what a raise writes (R191). -/

namespace Sys2Proof.Machine

/-- Settles O10: of a raise inside a course only BS as written so far and the record reach the state, and a
recorded fault keeps its record. -/
theorem raiseKeepsTheFirstFault : Obligations.RaiseKeepsTheFirstFault := by
  intro s c info bs
  refine ⟨fun hf => conclude_faulted hf c ?_ bs, fun hf => ?_, rfl⟩
  · exact BitVec.eq_of_toNat_eq (by simp)
  · rw [conclude_raised, raise_again (s := { s with bs := bs }) _ hf]

/-! ### The causes of the micro-operations -/

theorem getBit_cause {cap k : Nat} {bs bs' : Memory} {r : Raise} (h : getBit cap k bs = .raised r bs') :
    r.cause = .bsBounds := by
  unfold getBit at h
  split at h <;> cases h
  rfl

theorem setBit_cause {cap k v : Nat} {bs bs' : Memory} {r : Raise}
    (h : setBit cap k v bs = .raised r bs') : r.cause = .bsBounds := by
  unfold setBit at h
  split at h <;> cases h
  rfl

/-- The carry raises where no 0 bit is left, or at an index out of bounds (43_interval_engine.md R140). -/
theorem carryWalk_cause {cap cur i : Nat} {bs bs' : Memory} {r : Raise}
    (h : carryWalk cap cur i bs = .raised r bs') : r.cause = .carryUnderrun ∨ r.cause = .bsBounds := by
  induction i generalizing bs with
  | zero =>
    cases h
    exact .inl rfl
  | succ i ih =>
    rcases Run.bind_eq_raised h with hget | ⟨b, bs1, -, h⟩
    · exact .inr (getBit_cause hget)
    split at h
    · rcases Run.bind_eq_raised h with hset | ⟨_, bs2, -, h⟩
      · exact .inr (setBit_cause hset)
      · exact ih h
    · exact .inr (setBit_cause h)

theorem carryIf_cause {wrapped : Prop} [Decidable wrapped] {cap cur : Nat} {bs bs' : Memory} {r : Raise}
    (h : carryIf wrapped cap cur bs = .raised r bs') : r.cause = .carryUnderrun ∨ r.cause = .bsBounds := by
  unfold carryIf at h
  split at h
  · exact carryWalk_cause h
  · cases h

/-- `RenormDec` raises nothing but `BS_BOUNDS` (R144). -/
theorem renormDecLoop_cause {p cap room v l cur : Nat} {bs bs' : Memory} {r : Raise}
    (h : renormDecLoop p cap room v l cur bs = .raised r bs') : r.cause = .bsBounds := by
  induction room generalizing v l cur bs with
  | zero =>
    rw [renormDecLoop] at h
    split at h <;> cases h
    rfl
  | succ room ih =>
    rw [renormDecLoop] at h
    split at h
    · rcases Run.bind_eq_raised h with hget | ⟨b, bs1, -, h⟩
      · exact getBit_cause hget
      · exact ih h
    · cases h

theorem fillValue_cause {cap n i v : Nat} {bs bs' : Memory} {r : Raise}
    (h : fillValue cap n i v bs = .raised r bs') : r.cause = .bsBounds := by
  induction n generalizing i v bs with
  | zero => cases h
  | succ n ih =>
    rcases Run.bind_eq_raised h with hget | ⟨b, bs1, -, h⟩
    · exact getBit_cause hget
    · exact ih h

theorem search_cause {s : State} {r : Raise} (h : search s = .error r) : r.cause = .codeRange := by
  unfold search at h
  split at h <;> cases h
  rfl

/-- A session starts without a model or without a period, or it starts (44_encoder.md R150, 46_adaptive.md
R180). -/
theorem sessionModel_error_cause {w : Word} {s : State} {r : Raise} (h : sessionModel w s = .error r) :
    r.cause = .sequence ∨ r.cause = .config := by
  rcases sessionModel_cases w s with ⟨-, -, he⟩ | ⟨-, -, he⟩ | ⟨-, -, he⟩ | ⟨-, -, he⟩ <;>
    cases he.symm.trans h
  · exact .inr rfl
  · exact .inl rfl

/-- Under V9 the rebuilt table fits, so the model's update raises nothing but `COUNT_OVERFLOW` (46_adaptive.md
R183). -/
theorem modelAfterSymbol_countOverflow {sym : Nat} (hsym : sym < 256) {s : State} (hm : ModelInv s) {r : Raise}
    (h : modelAfterSymbol sym s = .error r) : r.cause = .countOverflow := by
  unfold modelAfterSymbol at h
  split at h
  · obtain ⟨-, -, -, hsum, hrun⟩ := hm
    rcases adaptUpdate_keeps_total hsym (hsum ‹_›) (hrun ‹_›).2 with he | ⟨m, he, -⟩ <;>
      cases he.symm.trans h
    rfl
  · cases h

/-! ### The causes of the commands -/

theorem constructAt_cause {q : Nat} {s : State} {r : Raise} (h : constructAt q s = .error r) :
    r.cause = .precision := by
  unfold constructAt at h
  split at h <;> cases h
  rfl

theorem addOccurrence_cause {sym : Nat} {s : State} {r : Raise} (h : addOccurrence sym s = .error r) :
    r.cause = .countOverflow := by
  unfold addOccurrence at h
  split_ifs at h <;> cases h <;> rfl

theorem rescaleModel_cause {total : Nat} {s : State} {r : Raise} (h : rescaleModel total s = .error r) :
    r.cause = .modelSum := by
  rcases rescaleModel_cases total s with ⟨-, he⟩ | ⟨-, he⟩ <;> cases he.symm.trans h
  rfl

theorem getbitRun_cause {s : State} {r : Raise} {bs : Memory} (h : getbitRun s = .raised r bs) :
    r.cause = .bsBounds := by
  rcases Run.bind_eq_raised h with hget | ⟨_, _, -, hdone⟩
  · exact getBit_cause hget
  · cases hdone

theorem setbitRun_cause {v : Bool} {s : State} {r : Raise} {bs : Memory} (h : setbitRun v s = .raised r bs) :
    r.cause = .bsBounds := by
  rcases Run.bind_eq_raised h with hset | ⟨_, _, -, hdone⟩
  · exact setBit_cause hset
  · cases hdone

theorem encInitStaged_cause {s : State} {r : Raise} (h : encInitStaged s = .error r) :
    r.cause = .sequence ∨ r.cause = .config := by
  unfold encInitStaged at h
  split at h <;> cases h
  exact sessionModel_error_cause ‹_›

theorem encodeRun_cause {sym : Nat} (hsym : sym < 256) {s : State} (hm : ModelInv s) {r : Raise}
    {bs : Memory} (h : encodeRun sym s = .raised r bs) :
    r.cause = .modelDegenerate ∨ r.cause = .carryUnderrun ∨ r.cause = .bsBounds ∨
      r.cause = .countOverflow := by
  rcases encodeRun_raised h with hc | ⟨-, hcarry | hc | hmodel⟩
  · exact .inl hc
  · exact .inr ((carryIf_cause hcarry).imp_right .inl)
  · exact .inr (.inr (.inl hc))
  · exact .inr (.inr (.inr (modelAfterSymbol_countOverflow hsym hm hmodel)))

theorem flushRun_cause {s : State} {r : Raise} {bs : Memory} (h : flushRun s = .raised r bs) :
    r.cause = .carryUnderrun ∨ r.cause = .bsBounds :=
  (flushRun_raised h).elim carryIf_cause .inr

theorem decInitRun_cause {s : State} {r : Raise} {bs : Memory} (h : decInitRun s = .raised r bs) :
    r.cause = .sequence ∨ r.cause = .config ∨ r.cause = .bsBounds := by
  rcases Run.bind_eq_raised h with hmodel | ⟨_, _, -, h⟩
  · exact (sessionModel_error_cause (Run.lift_eq_raised hmodel)).imp_right .inl
  · rcases Run.bind_eq_raised h with hfill | ⟨_, _, -, hdone⟩
    · exact .inr (.inr (fillValue_cause hfill))
    · cases hdone

/-- Over a valid table the symbol of the update is one that the search has found. -/
theorem decodeRun_cause {s : State} (hm : ModelInv s) {r : Raise} {bs : Memory}
    (h : decodeRun s = .raised r bs) :
    r.cause = .codeRange ∨ r.cause = .bsBounds ∨ r.cause = .countOverflow := by
  rcases Run.bind_eq_raised h with hsearch | ⟨f, bs1, hfound, h⟩
  · exact .inl (search_cause (Run.lift_eq_raised hsearch))
  rcases Run.bind_eq_raised h with hrenorm | ⟨_, _, -, h⟩
  · exact .inr (.inl (renormDecLoop_cause hrenorm))
  rcases Run.bind_eq_raised h with hmodel | ⟨_, _, -, hdone⟩
  · have hsym : f.sym < 256 := by
      obtain ⟨hf, -⟩ := Run.lift_eq_done hfound
      rcases search_cases (hm.table hm.valid) with ⟨-, he⟩ | ⟨sym, hsym, -, -, he⟩ <;> cases he.symm.trans hf
      exact hsym
    exact .inr (.inr (modelAfterSymbol_countOverflow hsym hm (Run.lift_eq_raised hmodel)))
  · cases hdone

/-! ### The faults that a command records -/

/-- If the outcome is a state with a fault, the cause in its record is one of `codes` (R190). -/
def FaultsWith (codes : List Nat) (o : Outcome) : Prop :=
  ∀ t, o = .next t → t.fault = true → t.faultCause.toNat ∈ codes

theorem faultsWith_next {codes : List Nat} {u : State} (hu : u.fault = false) :
    FaultsWith codes (.next u) := by
  intro t h ht
  cases h
  cases hu.symm.trans ht

/-- A first raise records the code of its cause. -/
theorem faultsWith_raise {codes : List Nat} {s : State} (hf : s.fault = false) {r : Raise}
    (hr : r.cause.code.toNat ∈ codes) : FaultsWith codes (.next (s.raise r)) := by
  intro t h _
  cases h
  rw [raise_first r hf]
  exact hr

theorem faultsWith_conclude {codes : List Nat} {s : State} {m : Run State} (hf : s.fault = false)
    (hdone : ∀ u bs, m = .done u bs → u.fault = false)
    (hraised : ∀ r bs, m = .raised r bs → r.cause.code.toNat ∈ codes) : FaultsWith codes (conclude s m) := by
  cases m with
  | done u bs => exact faultsWith_next (u := { u with bs := bs }) (hdone u bs rfl)
  | raised r bs => exact faultsWith_raise (s := { s with bs := bs }) hf (hraised r bs rfl)

theorem faultsWith_concludePure {codes : List Nat} {s : State} {e : Except Raise State} (hf : s.fault = false)
    (hok : ∀ u, e = .ok u → u.fault = false)
    (herror : ∀ r, e = .error r → r.cause.code.toNat ∈ codes) : FaultsWith codes (concludePure s e) := by
  cases e with
  | ok u => exact faultsWith_next (hok u rfl)
  | error r => exact faultsWith_raise hf (herror r rfl)

/-! A rule that completes leaves `fault` as it was, but for `CONSTRUCT`, which clears it (40_session.md R100). -/

theorem addOccurrence_fault {sym : Nat} {s u : State} (h : addOccurrence sym s = .ok u) :
    u.fault = s.fault := by
  unfold addOccurrence at h
  split_ifs at h
  cases h
  rfl

theorem constructAt_fault {q : Nat} {s u : State} (h : constructAt q s = .ok u) : u.fault = false := by
  unfold constructAt at h
  split at h <;> cases h
  rfl

theorem encInitStaged_fault {s u : State} (h : encInitStaged s = .ok u) : u.fault = s.fault := by
  unfold encInitStaged at h
  split at h
  · cases h
  · next m hm =>
    cases h
    exact (onlyModel_sessionModel hm).keepsSetup.fault

theorem getbitRun_fault {s u : State} {bs : Memory} (h : getbitRun s = .done u bs) : u.fault = s.fault := by
  obtain ⟨b, bs1, -, hu⟩ := Run.bind_eq_done h
  cases hu
  rfl

theorem setbitRun_fault {v : Bool} {s u : State} {bs : Memory} (h : setbitRun v s = .done u bs) :
    u.fault = s.fault := by
  obtain ⟨_, bs1, -, hu⟩ := Run.bind_eq_done h
  cases hu
  rfl

theorem encodeRun_fault {sym : Nat} {s u : State} {bs : Memory} (h : encodeRun sym s = .done u bs) :
    u.fault = s.fault := by
  obtain ⟨-, m, nb, nl, cur, bs1, hm, rfl, -⟩ := encodeRun_done h
  exact (onlyModel_modelAfterSymbol hm).keepsSetup.fault

theorem flushRun_fault {s u : State} {bs : Memory} (h : flushRun s = .done u bs) : u.fault = s.fault := by
  obtain ⟨nb, nl, cur, bs1, rfl, -⟩ := flushRun_done h
  rfl

theorem decInitRun_fault {s u : State} {bs : Memory} (h : decInitRun s = .done u bs) :
    u.fault = s.fault := by
  obtain ⟨m, v, hm, -, rfl⟩ := decInitRun_done h
  exact (onlyModel_sessionModel hm).keepsSetup.fault

theorem decodeRun_fault {s u : State} {bs : Memory} (h : decodeRun s = .done u bs) : u.fault = s.fault := by
  obtain ⟨f, v, l, cur, m, -, -, hm, rfl⟩ := decodeRun_done h
  exact (onlyModel_modelAfterSymbol hm).keepsSetup.fault

/-- The rule of a command raises only the causes of its row (R192). -/
theorem bodyOf_faultsWith {i : Instr} {s : State} (hs : Inv s) (hf : s.fault = false)
    (hph : s.phase ∈ phasesOf i) : FaultsWith (causesOf i) (bodyOf i s) := by
  cases i with
  | construct q =>
    refine faultsWith_concludePure hf (fun u => constructAt_fault) fun r hr => ?_
    simp [constructAt_cause hr, Cause.code, causesOf]
  | mreset => exact faultsWith_next hf
  | madd sym =>
    refine faultsWith_concludePure hf (fun u hu => (addOccurrence_fault hu).trans hf) fun r hr => ?_
    simp [addOccurrence_cause hr, Cause.code, causesOf]
  | rescale =>
    refine faultsWith_concludePure hf (fun u hu => (onlyModel_rescaleModel hu).keepsSetup.fault.trans hf)
      fun r hr => ?_
    simp [rescaleModel_cause hr, Cause.code, causesOf]
  | runiform =>
    rw [bodyOf, uniformModel_eq]
    exact faultsWith_next hf
  | getbit =>
    refine faultsWith_conclude hf (fun u bs hu => (getbitRun_fault hu).trans hf) fun r bs hr => ?_
    simp [getbitRun_cause hr, Cause.code, causesOf]
  | setbit v =>
    refine faultsWith_conclude hf (fun u bs hu => (setbitRun_fault hu).trans hf) fun r bs hr => ?_
    simp [setbitRun_cause hr, Cause.code, causesOf]
  | encInit =>
    refine faultsWith_concludePure hf (fun u hu => (encInitStaged_fault hu).trans hf) fun r hr => ?_
    rcases encInitStaged_cause hr with hc | hc <;> simp [hc, Cause.code, causesOf]
  | encode sym =>
    have hm : ModelInv s := modelInv_of_inv hs hf (.inl (by simpa [phasesOf] using hph))
    refine faultsWith_conclude hf (fun u bs hu => (encodeRun_fault hu).trans hf) fun r bs hr => ?_
    rcases encodeRun_cause sym.isLt hm hr with hc | hc | hc | hc <;> simp [hc, Cause.code, causesOf]
  | flush =>
    refine faultsWith_conclude hf (fun u bs hu => (flushRun_fault hu).trans hf) fun r bs hr => ?_
    rcases flushRun_cause hr with hc | hc <;> simp [hc, Cause.code, causesOf]
  | decInit =>
    refine faultsWith_conclude hf (fun u bs hu => (decInitRun_fault hu).trans hf) fun r bs hr => ?_
    rcases decInitRun_cause hr with hc | hc | hc <;> simp [hc, Cause.code, causesOf]
  | decode =>
    have hm : ModelInv s := modelInv_of_inv hs hf (.inr (by simpa [phasesOf] using hph))
    refine faultsWith_conclude hf (fun u bs hu => (decodeRun_fault hu).trans hf) fun r bs hr => ?_
    rcases decodeRun_cause hm hr with hc | hc | hc <;> simp [hc, Cause.code, causesOf]
  | endSession => exact faultsWith_next hf

/-- Every command but `CONSTRUCT`, which every phase admits, can raise the `SEQUENCE` of R85 step 4. -/
theorem two_mem_causesOf {i : Instr} {ph : Phase} (h : ph ∉ phasesOf i) : 2 ∈ causesOf i := by
  cases i with
  | construct q => cases ph <;> simp [phasesOf] at h
  | _ => simp [causesOf]

theorem exec_faultsWith (i : Instr) {s : State} (hs : Inv s) (hf : s.fault = false) :
    FaultsWith (causesOf i) (exec i s) := by
  rcases exec_cases i s with ⟨hf', -⟩ | ⟨-, hph, he⟩ | ⟨-, hph, he⟩
  · simp [hf] at hf'
  · rw [he]
    intro t h _
    cases h
    exact two_mem_causesOf hph
  · rw [he]
    exact bodyOf_faultsWith hs hf hph

/-- `END` raises a fault in RESET only (40_session.md R101). -/
theorem phase_eq_reset_of_endSession_fault {s t : State} (hf : s.fault = false)
    (h : exec .endSession s = .next t) (ht : t.fault = true) : s.phase = .reset := by
  cases hph : s.phase with
  | reset => rfl
  | _ =>
    rw [(endOnlyLeavesTheSession s hf).1 (by simp [hph])] at h
    cases h
    cases hf.symm.trans ht

/-! ### The register port -/

/-- `t` is `s` but for `arg` and the RW-idle registers (10_state.md R41). -/
def OnlyHostRegistersChanged (s t : State) : Prop :=
  t = { s with
    arg := t.arg, weight := t.weight, updateRange := t.updateRange, adaptive := t.adaptive,
    rangeClear := t.rangeClear, bsSize := t.bsSize, total := t.total }

theorem writeConfig_onlyHostRegisters (o : Nat) (v : Word) (s : State) :
    OnlyHostRegistersChanged s (writeConfig o v s) := by
  unfold writeConfig
  split_ifs <;> rfl

/-- Everything a register write other than `CMD` can do (R41). -/
theorem registerWrite_cases (o : Nat) (v : Word) (s : State) :
    registerWrite o v s = s.raise ⟨.access, o⟩ ∨ OnlyHostRegistersChanged s (registerWrite o v s) := by
  unfold registerWrite
  split_ifs
  · exact .inr rfl
  · exact .inl rfl
  · exact .inr (writeConfig_onlyHostRegisters o v s)
  · exact .inl rfl

theorem OnlyHostRegistersChanged.fault_eq {s t : State} (h : OnlyHostRegistersChanged s t) :
    t.fault = s.fault := by
  unfold OnlyHostRegistersChanged at h
  rw [h]

/-- A register write raises `ACCESS` or nothing (60_exceptions.md R201). -/
theorem registerWrite_faultCause {o : Nat} {v : Word} {s : State} (hf : s.fault = false)
    (h : (registerWrite o v s).fault = true) : (registerWrite o v s).faultCause = 11 := by
  rcases registerWrite_cases o v s with he | hok
  · rw [he, raise_first _ hf]
    rfl
  · cases hf.symm.trans (hok.fault_eq.symm.trans h)

/-- Settles O58: a command by the row of its rule, an illegal word and the register port by their one way to
raise. -/
theorem eachCommandRaisesItsListedFaults : Obligations.EachCommandRaisesItsListedFaults := by
  intro s hs hf
  refine ⟨fun i t h ht => ⟨exec_faultsWith i hs hf t h ht, ?_⟩, fun w t hill h => ?_,
    fun a v rest t ha hhost h ht => ?_, fun a rest t hhost h => ?_⟩
  · rintro rfl
    exact phase_eq_reset_of_endSession_fault hf h ht
  · cases hd : decode w with
    | ok i => exact absurd hd (hill i)
    | error e =>
      rw [commandWrite_of_illegal_ready hd hf] at h
      cases h
      rfl
  · rw [step_of_cons hhost, perform_write_register ha] at h
    cases h
    exact registerWrite_faultCause (s := { s with host := rest }) hf ht
  · rw [step_of_cons hhost] at h
    cases h
    exact hf

end Sys2Proof.Machine
end

