-- ==== Sys2Proof/Proofs/StickyFault.lean ====
section
/-! PROOF. The faulted condition lasts until a `CONSTRUCT` or `rst` (60_exceptions.md R207); what `rst` leaves
(70_reset_and_hazards.md R230); and that no command stops the machine (R245). -/

namespace Sys2Proof.Machine

/-! ### Under a fault -/

/-- Under a fault no word but a legal `CONSTRUCT` does anything (30_encoding.md R85 step 2). -/
theorem commandWrite_faulted {w : Word} {s : State} (hf : s.fault = true)
    (hc : ∀ q, decode w = .ok (.construct q) → ¬ (3 ≤ q.toNat ∧ q.toNat ≤ 31)) :
    commandWrite w s = .next s := by
  by_cases hq : ∃ q, decode w = .ok (.construct q)
  · obtain ⟨q, hd⟩ := hq
    have hillegal : q.toNat < 3 ∨ 31 < q.toNat := by
      have := hc q hd
      omega
    rw [commandWrite_of_decode hd, exec_construct_illegal hillegal, raise_again _ hf]
  · exact (commandChecksInOrder w s).1 hf fun q hd => hq ⟨q, hd⟩

/-- `t` is `s` but for `arg`, the RW-idle registers, BS and the answer of the latest host read. -/
def OnlyHostAccesses (s t : State) : Prop :=
  t = { s with
    arg := t.arg, weight := t.weight, updateRange := t.updateRange, adaptive := t.adaptive,
    rangeClear := t.rangeClear, bsSize := t.bsSize, total := t.total, bs := t.bs, hostData := t.hostData }

theorem OnlyHostRegistersChanged.onlyHostAccesses {s t : State} (h : OnlyHostRegistersChanged s t) :
    OnlyHostAccesses s t := by
  unfold OnlyHostRegistersChanged at h
  rw [h]
  rfl

/-- A register write under a fault: a forbidden one leaves the first record (R191). -/
theorem registerWrite_faulted (o : Nat) (v : Word) {s : State} (hf : s.fault = true) :
    OnlyHostAccesses s (registerWrite o v s) := by
  rcases registerWrite_cases o v s with he | hok
  · rw [he, raise_again _ hf]
    rfl
  · exact hok.onlyHostAccesses

/-- Under a fault no session is active, so BS is the host's (20_memory.md R70). -/
theorem not_sessionOwns_of_fault {a : Nat} {s : State} (hf : s.fault = true) : ¬ sessionOwns a s = true := by
  rw [sessionOwns_iff]
  rintro ⟨-, hf', -⟩
  cases hf.symm.trans hf'

/-- No transaction but `rst` and a legal `CONSTRUCT` leaves the faulted condition (R207). -/
theorem perform_faulted {x : Transaction} {s t : State} (hf : s.fault = true) (h : perform x s = .next t)
    (hrst : x ≠ .rst)
    (hc : ∀ w q, x = .write 0 w → decode w = .ok (.construct q) → ¬ (3 ≤ q.toNat ∧ q.toNat ≤ 31)) :
    OnlyHostAccesses s t ∧ ((∀ a v, x ≠ .bsWrite a v) → t.bs = s.bs) := by
  cases x with
  | write a v =>
    by_cases ha : a = 0
    · subst ha
      rw [perform_write_cmd, commandWrite_faulted hf fun q => hc v q rfl] at h
      cases h
      exact ⟨rfl, fun _ => rfl⟩
    · rw [perform_write_register ha] at h
      cases h
      exact ⟨registerWrite_faulted _ v hf, fun _ => registerWrite_bs _ v s⟩
  | read a =>
    cases h
    exact ⟨rfl, fun _ => rfl⟩
  | bsWrite a v =>
    cases (hostBsWrite_free (not_sessionOwns_of_fault hf) v).symm.trans h
    exact ⟨rfl, fun hx => absurd rfl (hx a v)⟩
  | bsRead a =>
    cases (hostBsRead_free (not_sessionOwns_of_fault hf)).symm.trans h
    exact ⟨rfl, fun _ => rfl⟩
  | rst => exact absurd rfl hrst

/-- Settles O59: the step is the one transaction, on the state whose list has lost it. -/
theorem faultIsSticky : Obligations.FaultIsSticky := by
  intro s t x rest hf hhost h hrst hc
  rw [step_of_cons hhost] at h
  exact perform_faulted (s := { s with host := rest }) hf h hrst hc

/-! ### `rst` and completion -/

/-- Settles O47: the two tables are the new draw. -/
theorem resetGivesTheResetValues : Obligations.ResetGivesTheResetValues :=
  fun s _ hhost => ⟨Table.tabulate 256 (Config.resetCounts (s.draws + 1)),
    Table.tabulate 257 (Config.resetCumulative (s.draws + 1)), step_of_cons hhost⟩

/-- Settles O52: the gate answers a next state, and so does the commit of every rule (`bodyOf_completes`). -/
theorem everyCommandCompletes : Obligations.EveryCommandCompletes := exec_completes

end Sys2Proof.Machine
end
